-- ==== Sys2Proof/Word.lean ====
section
/-! DEFINITION. The word types of NFR-CORE. -/

namespace Sys2Proof

/-- A host word: 32 bits, bit 0 least significant (R10, R62). -/
abbrev Word := BitVec 32

/-- A value of `NUM.S` under `NUM_B32`, held as its IEEE 754 binary32 bit pattern (R13, R15). -/
abbrev F32 := BitVec 32

/-- `+0`. -/
abbrev plusZero : F32 := 0#32

/-- A rational number of either sign, `(-1)^negative * num / den`: how decimal literals and the values of `SETP` and `SETFS` are
written (R13, R90). -/
structure Decimal where
  negative : Bool := false
  num : Nat
  den : Nat := 1
  deriving DecidableEq, Repr, Inhabited

end Sys2Proof
end

