-- ==== Sys2Proof/Config/Free.lean ====
section
/-! DEFINITION. The free values: constants without a body, standing for what the spec leaves without a value. Nothing can
be proved of them beyond their type. -/

namespace Sys2Proof

/-- The arithmetic primitives of `NUM` that can meet an invalid operation or a NaN operand (R13). -/
inductive FloatOp
  | add | sub | mul | div | cvt64
  deriving DecidableEq, Repr, Inhabited

/-- Sign (top bit) and payload (the other 22 bits) of the quiet NaN that an operation on these operands delivers: IEEE 754
fixes neither (R15; log entry 2). -/
opaque Config.nanBits : FloatOp → BitVec 64 → BitVec 64 → BitVec 23

/-- What an interpolated read returns from a store of capacity below 4, which was not prepared with headroom 3 as R107
requires: arguments are the capacity and the delay (log entry 17). -/
opaque Config.shortStoreRead : Nat → F32 → F32

/-- The capacity that `RB.PREP` leaves when `maxDelay + headroom` does not fit the `IDX_W` bits of `st.C`, which R29 and R101 give
no value: the argument is `maxDelay + headroom` (log entry 26). It is brought into the range of R29. -/
opaque Config.wideCapacity : Nat → Nat

/-- Which of the values that a parameter register held during a latch the snapshot takes, by the number of the latch and the
number of the register (R67, U8; log entry 13). It is reduced modulo how many values there were. -/
opaque Config.latchDraw : Nat → Nat → Nat

end Sys2Proof
end

