-- ==== Sys2Proof/Machine/Fp.lean ====
section
/-! DEFINITION. The primitives of the numerics record `NUM`, instance `NUM_B32` (R13 to R15): every result is the rounding
`rnd` of the exact result, and the exact results are computed on integers that count units of `2^-149`, the spacing of the
smallest subnormals, of which every finite value is a whole number. -/

namespace Sys2Proof.Fp

/-- Sign bit. -/
def sgn (a : F32) : Bool := a.getLsbD 31

/-- The 31 bits below the sign: as a number they grow with the magnitude of the value. -/
def mag (a : F32) : Nat := a.toNat % 2 ^ 31

/-- The magnitude bits of an infinity. -/
abbrev infMag : Nat := 0x7F800000

def isNaN (a : F32) : Bool := decide (infMag < mag a)

def isInf (a : F32) : Bool := decide (mag a = infMag)

/-- `finite(x)` (R13): neither an infinity nor a NaN. -/
def finite (a : F32) : Bool := decide (mag a < infMag)

/-- `x` is one of the two zeros. -/
def isZero (a : F32) : Bool := decide (mag a = 0)

/-- `-x`: the sign bit turned over. -/
def neg (a : F32) : F32 := a ^^^ 0x80000000#32

/-- An integer that orders the non-NaN values as their numerical values do, with `-0` and `+0` equal. -/
def key (a : F32) : Int := if sgn a then -(mag a : Int) else (mag a : Int)

/-- `flt(a, b)` (R13): IEEE comparison, false on a NaN, `-0 = +0`. -/
def flt (a b : F32) : Bool := !isNaN a && !isNaN b && decide (key a < key b)

/-- `feq(a, b)` (R13). -/
def feq (a b : F32) : Bool := !isNaN a && !isNaN b && decide (key a = key b)

/-- `a <= b` as values, false on a NaN. -/
def fle (a b : F32) : Bool := !isNaN a && !isNaN b && decide (key a ≤ key b)

/-- How many units of `2^-149` make 1. -/
def one149 : Nat := 2 ^ 149

/-- The magnitude of a finite value in units of `2^-149`, from its magnitude bits. -/
def magUnits (m : Nat) : Nat :=
  if m < 2 ^ 23 then m else (m % 2 ^ 23 + 2 ^ 23) * 2 ^ (m / 2 ^ 23 - 1)

/-- A finite value in units of `2^-149`. -/
def units (a : F32) : Int := if sgn a then -(magUnits (mag a) : Int) else (magUnits (mag a) : Int)

/-- Rounds the exact non-negative quotient `n / d`, counted in units of the smallest subnormal, to nearest even with gradual
underflow and overflow to the pattern `top`, in a format whose significand has `p + 1` bits; the answer is magnitude bits. -/
def roundUnits (p top n d : Nat) : Nat :=
  let shift := (n / d).log2 - p
  let ulp := d * 2 ^ shift
  let q := n / ulp
  let r := n % ulp
  let q' := if ulp < 2 * r ∨ (2 * r = ulp ∧ q % 2 = 1) then q + 1 else q
  min top (shift * 2 ^ p + q')

/-- The pattern with a given sign and magnitude bits. -/
def pack (s : Bool) (m : Nat) : F32 := BitVec.ofNat 32 ((if s then 2 ^ 31 else 0) + m)

/-- `NUM.rnd` of the exact value `(-1)^s * n / d`, in units of `2^-149` (R13, R15). -/
def rnd (s : Bool) (n d : Nat) : F32 := pack s (roundUnits 23 infMag n d)

/-- The quiet NaN an operation delivers, its sign and payload free (log entry 2). -/
def quietNaN (op : FloatOp) (a b : BitVec 64) : F32 :=
  let p := Config.nanBits op a b
  pack (p.getLsbD 22) (0x7FC00000 + p.toNat % 2 ^ 22)

/-- The sum, under the name of the operation that asked for it. -/
def addAs (op : FloatOp) (a b : F32) : F32 :=
  if isNaN a || isNaN b || (isInf a && isInf b && sgn a != sgn b) then quietNaN op (a.zeroExtend 64) (b.zeroExtend 64)
  else if isInf a then a
  else if isInf b then b
  else
    let u := units a + units b
    rnd (if u = 0 then sgn a && sgn b else decide (u < 0)) u.natAbs 1

/-- `fadd(a, b)` (R13). -/
def fadd (a b : F32) : F32 := addAs .add a b

/-- `fsub(a, b)` (R13): the sum with the second operand's sign turned over. -/
def fsub (a b : F32) : F32 := addAs .sub a (neg b)

/-- `fmul(a, b)` (R13). -/
def fmul (a b : F32) : F32 :=
  let s := sgn a != sgn b
  if isNaN a || isNaN b || (isInf a && isZero b) || (isZero a && isInf b) then
    quietNaN .mul (a.zeroExtend 64) (b.zeroExtend 64)
  else if isInf a || isInf b then pack s infMag
  else rnd s (magUnits (mag a) * magUnits (mag b)) one149

/-- `fdiv(a, b)` (R13). A zero divisor, which no rule of the schedule supplies (R16), gives the IEEE default result. -/
def fdiv (a b : F32) : F32 :=
  let s := sgn a != sgn b
  if isNaN a || isNaN b || (isInf a && isInf b) || (isZero a && isZero b) then
    quietNaN .div (a.zeroExtend 64) (b.zeroExtend 64)
  else if isInf a || isZero b then pack s infMag
  else if isInf b then pack s 0
  else rnd s (magUnits (mag a) * one149) (magUnits (mag b))

/-- `lit(n/d)` (R13) for a non-negative decimal literal written as a fraction. -/
def lit (n d : Nat) : F32 := rnd false (n * one149) d

/-- `itof(n)` (R13); every integer a rule converts is non-negative. -/
def itof (n : Nat) : F32 := rnd false (n * one149) 1

/-- `floor_i(x)` (R13), which the rules call on finite `x >= 0` only; elsewhere this answers 0 (log entry 19). -/
def floorI (x : F32) : Nat := if finite x && !sgn x then magUnits (mag x) / one149 else 0

/-- `clamp(x, lo, hi)` (R14). -/
def clamp (x lo hi : F32) : F32 :=
  if isNaN x then lo else if flt x lo then lo else if flt hi x then hi else x

/-- `clampi(n, lo, hi)` (R10). -/
def clampi (n lo hi : Int) : Int := if n < lo then lo else if hi < n then hi else n

/-- `NUM.cvt32(w)`: the binary32 value of `w`, which is a value of S already (R13, R15). -/
def cvt32 (w : Word) : F32 := w

/-- `NUM.enc32(v)`: the pattern of `v` itself (R13, R63). -/
def enc32 (v : F32) : Word := v

/-- `NUM.cvt64(w)`: the binary64 value of `w`, rounded into S (R13). A finite binary64 magnitude is a whole number of units of
`2^-1074`, that is `2^925` to the unit of `2^-149`. -/
def cvt64 (w : BitVec 64) : F32 :=
  let s := w.getLsbD 63
  let m := w.toNat % 2 ^ 63
  let top := 0x7FF0000000000000
  if top < m then quietNaN .cvt64 w 0#64
  else if m = top then pack s infMag
  else
    let u := if m < 2 ^ 52 then m else (m % 2 ^ 52 + 2 ^ 52) * 2 ^ (m / 2 ^ 52 - 1)
    rnd s u (2 ^ 925)

/-- `bits32(v)` (R90) of the value `(-1)^s * n / d`. -/
def bits32 (s : Bool) (n d : Nat) : Word := rnd s (n * one149) d

/-- `bits64(v)` (R90) of the value `(-1)^s * n / d`. -/
def bits64 (s : Bool) (n d : Nat) : BitVec 64 :=
  BitVec.ofNat 64 ((if s then 2 ^ 63 else 0) + roundUnits 52 0x7FF0000000000000 (n * 2 ^ 1074) d)

end Sys2Proof.Fp
end

