-- ==== Sys2Proof/Machine/Numerics.lean ====
section
/-! DEFINITION. The numerics record `NUM` (R13), an argument of the model: every value of the datapath is an element of the type `S`
and every arithmetic step is a call of a field of the record. Its instance `NUM_B32` (R15); `NUM_IDEAL` is in
`Sys2Proof/Machine/Ideal.lean`. The value `+0` of `S` is its `0`. -/

namespace Sys2Proof

/-- `NUM` over the set `S` of values (R13). -/
structure Numerics (S : Type) where
  /-- `x` is finite and its exact value is this real. Only the constraints of R8 and what is stated of `NUM` speak of it. -/
  denotes : S → ℝ → Prop
  /-- `NUM.rnd` of the exact value `(-1)^s * n / d`, as literals and integers are; what an operation computes exactly it rounds
  itself. -/
  rnd : Bool → Nat → Nat → S
  fadd : S → S → S
  fsub : S → S → S
  fmul : S → S → S
  fdiv : S → S → S
  /-- `floor_i(x)`, called on finite `x >= 0` only. -/
  floorI : S → Nat
  flt : S → S → Bool
  feq : S → S → Bool
  finite : S → Bool
  /-- `x` is a NaN, as `clamp` asks (R14). -/
  isNaN : S → Bool
  /-- `-x`, as `P_TANH` speaks of it (R17). -/
  neg : S → S
  /-- `NUM.cvt64`. -/
  cvt64 : BitVec 64 → S
  /-- `NUM.cvt32`. -/
  cvt32 : Word → S
  /-- `NUM.enc32`. -/
  enc32 : S → Word
  tanh : S → S
  sin : S → S
  pow10 : S → S
  lpA : S → S → S
  /-- `TWO_PI`. -/
  twoPi : S

variable {S : Type}

/-- `lit(n/d)` (R13) of a decimal literal that is not negative. -/
def Numerics.lit (N : Numerics S) (n d : Nat) : S := N.rnd false n d

/-- `itof(n)` (R13); every integer a rule converts is non-negative. -/
def Numerics.itof (N : Numerics S) (n : Nat) : S := N.rnd false n 1

/-- `lit` of any decimal (R13). -/
def Numerics.litOf (N : Numerics S) (c : Decimal) : S := N.rnd c.negative c.num c.den

/-- `clamp(x, lo, hi)` (R14). -/
def Numerics.clamp (N : Numerics S) (x lo hi : S) : S :=
  if N.isNaN x then lo else if N.flt x lo then lo else if N.flt hi x then hi else x

/-- `a <= b` as values. -/
def Numerics.fle (N : Numerics S) (a b : S) : Bool := N.flt a b || N.feq a b

/-- The numerics whose `cvt32` returns `v` for the word `w` (R90). -/
def Numerics.withWord (N : Numerics S) (w : Word) (v : S) : Numerics S := { N with cvt32 := fun u => if u = w then v else N.cvt32 u }

/-- The numerics whose `cvt64` returns `v` for the word `w` (R90). -/
def Numerics.withRate (N : Numerics S) (w : BitVec 64) (v : S) : Numerics S :=
  { N with cvt64 := fun u => if u = w then v else N.cvt64 u }

/-- The named properties of R17, which are all that is assumed of the four functions. -/
structure Numerics.Named [Zero S] (N : Numerics S) : Prop where
  /-- `P_TANH`: `tanh(+0) = +0`. -/
  tanh_zero : N.tanh 0 = 0
  /-- `P_TANH`: odd. -/
  tanh_odd : ∀ x, N.isNaN x = false → N.tanh (N.neg x) = N.neg (N.tanh x)
  /-- `P_TANH`: non-decreasing. -/
  tanh_mono : ∀ x y, N.fle x y = true → N.fle (N.tanh x) (N.tanh y) = true
  /-- `P_TANH`: `|tanh(x)| <= 1` for every non-NaN `x`. -/
  tanh_bound : ∀ x, N.isNaN x = false → N.fle (N.rnd true 1 1) (N.tanh x) = true ∧ N.fle (N.tanh x) (N.lit 1 1) = true
  /-- `P_SIN`: `|sin(x)| <= 1` for finite `x`. -/
  sin_bound : ∀ x, N.finite x = true → N.fle (N.rnd true 1 1) (N.sin x) = true ∧ N.fle (N.sin x) (N.lit 1 1) = true
  /-- `P_SIN`: `sin(+0) = +0`. -/
  sin_zero : N.sin 0 = 0
  /-- `P_POW10`: `0 <= pow10(x) <= 1`, and so finite, for finite `x <= 0`. -/
  pow10_range : ∀ x, N.finite x = true → N.fle x 0 = true → N.fle 0 (N.pow10 x) = true ∧ N.fle (N.pow10 x) (N.lit 1 1) = true
  /-- `P_POW10`: non-decreasing. -/
  pow10_mono : ∀ x y, N.finite x = true → N.finite y = true → N.fle x y = true → N.fle (N.pow10 x) (N.pow10 y) = true
  /-- `P_LPA`: `0 < lpA(fc, fs) <= 1` for finite `fc > 0`, `fs > 0`. -/
  lpA_range : ∀ fc fs, N.finite fc = true → N.finite fs = true → N.flt 0 fc = true → N.flt 0 fs = true →
      N.flt 0 (N.lpA fc fs) = true ∧ N.fle (N.lpA fc fs) (N.lit 1 1) = true
  /-- `P_LPA`: non-decreasing in `fc`. -/
  lpA_mono : ∀ fc fc' fs, N.finite fc = true → N.finite fc' = true → N.finite fs = true → N.flt 0 fc = true → N.flt 0 fs = true →
      N.fle fc fc' = true → N.fle (N.lpA fc fs) (N.lpA fc' fs) = true

/-- `TWO_PI` of `NUM_B32` (R13): the binary32 value nearest to 2π (log entry 18). -/
def Fp.twoPi : F32 := 0x40C90FDB#32

/-- `NUM_B32` (R15), with its four unspecified functions. -/
def Numerics.b32 (tanh sin pow10 : F32 → F32) (lpA : F32 → F32 → F32) : Numerics F32 where
  denotes x r := Fp.finite x = true ∧ r = (Fp.units x : ℝ) / 2 ^ 149
  rnd s n d := Fp.rnd s (n * Fp.one149) d
  fadd := Fp.fadd
  fsub := Fp.fsub
  fmul := Fp.fmul
  fdiv := Fp.fdiv
  floorI := Fp.floorI
  flt := Fp.flt
  feq := Fp.feq
  finite := Fp.finite
  isNaN := Fp.isNaN
  neg := Fp.neg
  cvt64 := Fp.cvt64
  cvt32 := Fp.cvt32
  enc32 := Fp.enc32
  tanh := tanh
  sin := sin
  pow10 := pow10
  lpA := lpA
  twoPi := Fp.twoPi

end Sys2Proof
end

