-- ==== Sys2Proof/Syntax.lean ====
section
/-! DEFINITION. Identifiers of the block's parts and the syntax of its operations: one constructor of `Instr` for each row of
`spec/opcode_table.json`, with the operands of the operation's rule as arguments. -/

namespace Sys2Proof

/-- The two strings (R12). -/
inductive Str
  | L | R
  deriving DecidableEq, Repr, Inhabited

/-- The two channels (R12). -/
inductive Chan
  | c0 | c1
  deriving DecidableEq, Repr, Inhabited

/-- The allpass stages 1, 2, 3 of a string (R12). -/
inductive Stage
  | k1 | k2 | k3
  deriving DecidableEq, Repr, Inhabited

/-- The eight delay stores: `PD[c]` and `AP[s][k]` (R12, R20). -/
inductive StoreId
  | pd (c : Chan)
  | ap (s : Str) (k : Stage)
  deriving DecidableEq, Repr, Inhabited

/-- Whether a read of a store comes before or after the owner's write of the same step (R105). -/
inductive Order
  | pre | post
  deriving DecidableEq, Repr, Inhabited

/-- The two headrooms, `HEAD_INT` = 2 and `HEAD_FRAC` = 3 (R7, R101). -/
inductive Headroom
  | int | frac
  deriving DecidableEq, Repr, Inhabited

/-- The two parameter smoothers (R30). -/
inductive SmootherId
  | mix | drive
  deriving DecidableEq, Repr, Inhabited

/-- The seven parameters (R21, R90). -/
inductive Param
  | mix | decay | tension | predelay | damping | wobble | drive
  deriving DecidableEq, Repr, Inhabited

/-- The sources a mono block may feed its right string from (R8, R211). -/
inductive MonoSource
  | left | zero
  deriving DecidableEq, Repr, Inhabited

/-- The operations of the block (R80): the four host commands of R83 and the thirty datapath operations of R85. -/
inductive Instr
  /-- `NOP` (R201); every reserved `OP` is this too (R84). -/
  | nop
  /-- `PREPARE` (R202). -/
  | prepare
  /-- `RESET` (R203). -/
  | reset
  /-- `PROCESS` (R204): two channels or fewer, and how many frames. -/
  | process (stereo : Bool) (nframes : BitVec 16)
  /-- `RB.PREP(st, maxDelay, headroom)` (R101). -/
  | rbPrep (st : StoreId) (maxDelay : Nat) (headroom : Headroom)
  /-- `RB.RESET(st)` (R102). -/
  | rbReset (st : StoreId)
  /-- `RB.WRITE(st, v)` (R103). -/
  | rbWrite (st : StoreId) (v : F32)
  /-- `RB.RDI(st, d, ord)` (R106); the delay is an integer of either sign. -/
  | rbRdi (st : StoreId) (d : Int) (ord : Order)
  /-- `RB.RDF(st, d, ord)` (R107). -/
  | rbRdf (st : StoreId) (d : F32) (ord : Order)
  /-- `AP.PROC(st, x, N, g)` (R121) on the store `AP[s][k]`. -/
  | apProc (s : Str) (k : Stage) (x : F32) (n : Int) (g : F32)
  /-- `AP.PROCM(st, x, d, g)` (R122) on the store `AP[s][k]`. -/
  | apProcm (s : Str) (k : Stage) (x : F32) (d : F32) (g : F32)
  /-- `PD.WRITE(c, x)` (R131). -/
  | pdWrite (c : Chan) (x : F32)
  /-- `PD.READ(c, n)` (R132). -/
  | pdRead (c : Chan) (n : Int)
  /-- `LFO.MOD(s)` (R141). -/
  | lfoMod (s : Str)
  /-- `LFO.ADV(s)` (R142). -/
  | lfoAdv (s : Str)
  /-- `LP.PROC(s, x)` (R145). -/
  | lpProc (s : Str) (x : F32)
  /-- `FB.SUM(s, xs)` (R147). -/
  | fbSum (s : Str) (xs : F32)
  /-- `FB.UPD(s, z)` (R148). -/
  | fbUpd (s : Str) (z : F32)
  /-- `STR.STEP(s, xin, gain)` (R150). -/
  | strStep (s : Str) (xin : F32) (gain : F32)
  /-- `DRV.GAIN(d)` (R161). -/
  | drvGain (d : F32)
  /-- `DRV.SHAPE(x, gain)` (R162). -/
  | drvShape (x : F32) (gain : F32)
  /-- `MAP.CLAMP` on the seven snapshot words (R171). -/
  | mapClamp (wMix wDecay wTension wPredelay wDamping wWobble wDrive : Word)
  /-- `MAP.AP(tenC)` (R172). -/
  | mapAp (tenC : F32)
  /-- `MAP.FB(s, decC)` (R173). -/
  | mapFb (s : Str) (decC : F32)
  /-- `MAP.LP(dmpC)` (R174). -/
  | mapLp (dmpC : F32)
  /-- `MAP.WOB(wobC)` (R175). -/
  | mapWob (wobC : F32)
  /-- `MAP.PD(pdC)` (R176). -/
  | mapPd (pdC : F32)
  /-- `SM.SEED(p, v)` (R191). -/
  | smSeed (p : SmootherId) (v : F32)
  /-- `SM.SET(p, v)` (R193). -/
  | smSet (p : SmootherId) (v : F32)
  /-- `SM.NEXT(p)` (R194). -/
  | smNext (p : SmootherId)
  /-- `BLK.LATCH` (R205). -/
  | blkLatch
  /-- `IN.SAN(w)` (R208). -/
  | inSan (w : Word)
  /-- `MIX.BLEND(dry, wet, m)` (R209). -/
  | mixBlend (dry : F32) (wet : F32) (m : F32)
  /-- `FRAME` (R210). -/
  | frame
  deriving DecidableEq, Repr

end Sys2Proof
end

