-- ==== Sys2Proof/Config.lean ====
section
/-! DEFINITION. The configuration record `CFG` (R7, R8), an argument of the model, and the configuration of the hardware the fixed
names of the package stand for: `NUM_B32` and the defaults where the spec decides one (log entries 1 and 6), constants without a body
where R8 says OPEN. -/

namespace Sys2Proof

open Fp

/-- `CFG` (R8), with the free values that depend on `S` beside the parameters. -/
structure Cfg (S : Type := F32) where
  num : Numerics S
  /-- `T[s][k]`, seconds. -/
  base : Str → Stage → S
  /-- `LFO_RATE[s]`, Hz. -/
  rate : Str → S
  fsMin : Decimal
  fsMax : Decimal
  monoSource : MonoSource
  /-- `IDX_W`. -/
  idxW : Nat
  /-- What `RB.RDF` returns from a store too small for it (log entry 17). -/
  shortStoreRead : Nat → S → S
  /-- The capacity that `RB.PREP` leaves when it does not fit `IDX_W` bits (log entry 26). -/
  wideCapacity : Nat → Nat

/-- A decimal as the real number it is. -/
noncomputable def Decimal.toReal (c : Decimal) : ℝ := (if c.negative then -1 else 1) * (c.num / c.den)

/-- The constraints R8 and R252 put on `CFG`, on exact values, and R17 on its functions. -/
structure Cfg.Valid {S : Type} [Zero S] (C : Cfg S) : Prop where
  /-- `0 < FS_MIN <= FS_MAX`. -/
  fs_range : 0 < C.fsMin.toReal ∧ C.fsMin.toReal ≤ C.fsMax.toReal
  /-- Each `T[s][k]` is finite and positive, and the stage-3 capacity it makes at `FS_MAX` is below `2^IDX_W`. -/
  base_fits : ∀ s k, ∃ r, C.num.denotes (C.base s k) r ∧ 0 < r ∧
      ⌊r * C.fsMax.toReal⌋₊ + ⌊3 * C.fsMax.toReal / 1000⌋₊ + 4 < 2 ^ C.idxW
  /-- Each `LFO_RATE[s]` is finite and in `[0, FS_MIN)`. -/
  rate_range : ∀ s, ∃ r, C.num.denotes (C.rate s) r ∧ 0 ≤ r ∧ r < C.fsMin.toReal
  /-- The pre-delay capacity, the ramp length and the largest frame count are below `2^IDX_W` (R252). -/
  sizes_fit : ⌊100 * C.fsMax.toReal / 1000⌋₊ + 2 < 2 ^ C.idxW ∧ ⌊C.fsMax.toReal / 100⌋₊ < 2 ^ C.idxW ∧ 65535 < 2 ^ C.idxW
  /-- `P_TANH`, `P_SIN`, `P_POW10`, `P_LPA`. -/
  named : C.num.Named

/-- `lit(FS_MIN)` (R202). -/
def Cfg.fsLow {S : Type} (C : Cfg S) : S := C.num.litOf C.fsMin

/-- `lit(FS_MAX)` (R202). -/
def Cfg.fsHigh {S : Type} (C : Cfg S) : S := C.num.litOf C.fsMax

/-- `loopT[s]`, the total fixed-delay loop time of a string in seconds; not state (R25). -/
def Cfg.loopTime {S : Type} (C : Cfg S) (s : Str) : S :=
  C.num.fadd (C.num.fadd (C.base s .k1) (C.base s .k2)) (C.base s .k3)

/-! ### The hardware's configuration -/

/-- `IDX_W` of the hardware (R8, D7; log entry 6). -/
abbrev Config.idxWidth : Nat := 16

/-- `lit(FS_MIN)` of the hardware (R8, D14; log entry 6). -/
def Config.fsMin : F32 := lit 8000 1

/-- `lit(FS_MAX)` of the hardware (R8, D14; log entry 6). -/
def Config.fsMax : F32 := lit 192000 1

/-- `HEAD_INT` and `HEAD_FRAC` (R7). -/
def Config.headroom : Headroom → Nat
  | .int => 2
  | .frac => 3

/-- `TWO_PI` of the hardware (R13). -/
abbrev Config.twoPi : F32 := Fp.twoPi

/-- The sign of `x` on a zero: a function with the properties `P_TANH`, there only to show that such functions exist. -/
def Config.signedZero (x : F32) : F32 := x &&& 0x80000000#32

theorem Config.mag_signedZero (x : F32) : mag (Config.signedZero x) = 0 := by
  have h : (x.toNat &&& 2 ^ 31) % 2 ^ 31 = 0 := by rw [Nat.and_mod_two_pow]; simp
  simpa [mag, signedZero, BitVec.toNat_and] using h

theorem Config.isNaN_signedZero (x : F32) : isNaN (Config.signedZero x) = false := by
  simp [isNaN, mag_signedZero]

theorem Config.key_signedZero (x : F32) : key (Config.signedZero x) = 0 := by
  simp [key, mag_signedZero]

/-- `NUM.tanh`, `NUM.sin`, `NUM.pow10`, `NUM.lpA` with the named properties of R17, which are all that is assumed of them
(log entry 3). The values after `:=` only show that functions with these properties exist; nothing can be proved from them. -/
structure Config.Functions where
  tanh : F32 → F32 := Config.signedZero
  sin : F32 → F32 := fun _ => plusZero
  pow10 : F32 → F32 := fun _ => plusZero
  lpA : F32 → F32 → F32 := fun _ _ => lit 1 1
  /-- `P_TANH`: `tanh(+0) = +0`. -/
  tanh_zero : tanh plusZero = plusZero := by rfl
  /-- `P_TANH`: odd. -/
  tanh_odd : ∀ x, isNaN x = false → tanh (neg x) = neg (tanh x) := by
    intro x _; unfold neg Config.signedZero; ext; simp; grind
  /-- `P_TANH`: non-decreasing. -/
  tanh_mono : ∀ x y, fle x y = true → fle (tanh x) (tanh y) = true := by
    intro x y _; simp [fle, Config.isNaN_signedZero, Config.key_signedZero]
  /-- `P_TANH`: `|tanh(x)| <= 1` for every non-NaN `x`. -/
  tanh_bound : ∀ x, isNaN x = false → fle (neg (lit 1 1)) (tanh x) = true ∧ fle (tanh x) (lit 1 1) = true := by
    intro x _; simp only [fle, Config.isNaN_signedZero, Config.key_signedZero]; decide +kernel
  /-- `P_SIN`: `sin(+0) = +0`. -/
  sin_zero : sin plusZero = plusZero := by rfl
  /-- `P_SIN`: `|sin(x)| <= 1` for finite `x`. -/
  sin_bound : ∀ x, finite x = true → fle (neg (lit 1 1)) (sin x) = true ∧ fle (sin x) (lit 1 1) = true := by
    intro _ _; decide +kernel
  /-- `P_POW10`: `0 <= pow10(x) <= 1`, and so finite, for finite `x <= 0`. -/
  pow10_range : ∀ x, finite x = true → fle x plusZero = true →
      fle plusZero (pow10 x) = true ∧ fle (pow10 x) (lit 1 1) = true := by
    intro _ _ _; decide +kernel
  /-- `P_POW10`: non-decreasing. -/
  pow10_mono : ∀ x y, finite x = true → finite y = true → fle x y = true → fle (pow10 x) (pow10 y) = true := by
    intro _ _ _ _ _; decide +kernel
  /-- `P_LPA`: `0 < lpA(fc, fs) <= 1` for finite `fc > 0`, `fs > 0`. -/
  lpA_range : ∀ fc fs, finite fc = true → finite fs = true → flt plusZero fc = true → flt plusZero fs = true →
      flt plusZero (lpA fc fs) = true ∧ fle (lpA fc fs) (lit 1 1) = true := by
    intro _ _ _ _ _ _; decide +kernel
  /-- `P_LPA`: non-decreasing in `fc`. -/
  lpA_mono : ∀ fc fc' fs, finite fc = true → finite fc' = true → finite fs = true → flt plusZero fc = true →
      flt plusZero fs = true → fle fc fc' = true → fle (lpA fc fs) (lpA fc' fs) = true := by
    intro _ _ _ _ _ _ _ _ _; decide +kernel
  deriving Inhabited

/-- The functions of this block (U9). -/
opaque Config.functions : Config.Functions

/-- The tuning constants with the constraints of R8, which are all that is assumed of them (D2, U10; log entry 4). That the two
strings differ is not assumed (N1). The values after `:=` only show that constants with these properties exist. -/
structure Config.Tuning where
  /-- `T[s][k]`, seconds. -/
  base : Str → Stage → F32 := fun _ _ => lit 1 20
  /-- `LFO_RATE[s]`, Hz. -/
  rate : Str → F32 := fun _ => plusZero
  /-- Finite and positive. -/
  base_pos : ∀ s k, finite (base s k) = true ∧ flt plusZero (base s k) = true := by intro _ _; decide +kernel
  /-- The stage-3 capacity at `FS_MAX` is below `2^IDX_W`, on exact values: a magnitude counts units of `2^-149`. -/
  base_fits : ∀ s k, magUnits (mag (base s k)) * 192000 / one149 + 3 * 192000 / 1000 + 4 < 2 ^ Config.idxWidth := by
    intro _ _; decide +kernel
  /-- `0 <= LFO_RATE[s] < FS_MIN`. -/
  rate_range : ∀ s, finite (rate s) = true ∧ fle plusZero (rate s) = true ∧ flt (rate s) Config.fsMin = true := by
    intro _; decide +kernel
  deriving Inhabited

/-- The tuning of this block (D2). -/
opaque Config.tuning : Config.Tuning

/-- `MONO_R_SRC` (R8, D13; log entry 5). -/
opaque Config.monoSource : MonoSource

/-- `loopT[s]` of the hardware (R25). -/
def Config.loopTime (s : Str) : F32 :=
  fadd (fadd (Config.tuning.base s .k1) (Config.tuning.base s .k2)) (Config.tuning.base s .k3)

/-- The hardware's `CFG`. -/
def Config.block : Cfg where
  num := Numerics.b32 Config.functions.tanh Config.functions.sin Config.functions.pow10 Config.functions.lpA
  base := Config.tuning.base
  rate := Config.tuning.rate
  fsMin := { num := 8000 }
  fsMax := { num := 192000 }
  monoSource := Config.monoSource
  idxW := Config.idxWidth
  shortStoreRead := Config.shortStoreRead
  wideCapacity := Config.wideCapacity

end Sys2Proof
end

