-- ==== Sys2Proof/WellFormed.lean ====
section
/-! DEFINITION. Which terms of `Instr` are instructions: the operand limits that the type of an operand does not carry. -/

namespace Sys2Proof

/-- An integer delay of either sign fits the 32-bit operand word of the model's own datapath words (log entry 11). -/
abbrev fitsSigned32 (d : Int) : Bool := decide (-(2 ^ 31) ≤ d) && decide (d < 2 ^ 31)

/-- `RB.PREP` takes a `maxDelay >= 1` (R101), and one that fits the 32-bit operand word of the model's own record (log entry 11). -/
abbrev fitsDelay (maxDelay : Nat) : Bool := decide (1 ≤ maxDelay) && decide (maxDelay ≤ 2 ^ 32)

/-- The operand checks, one arm for each constructor. -/
def wellFormed : Instr → Bool
  | .nop => true
  | .prepare => true
  | .reset => true
  | .process _ _ => true
  | .rbPrep _ maxDelay _ => fitsDelay maxDelay
  | .rbReset _ => true
  | .rbWrite _ _ => true
  | .rbRdi _ d _ => fitsSigned32 d
  | .rbRdf _ _ _ => true
  | .apProc _ _ _ n _ => fitsSigned32 n
  | .apProcm _ _ _ _ _ => true
  | .pdWrite _ _ => true
  | .pdRead _ n => fitsSigned32 n
  | .lfoMod _ => true
  | .lfoAdv _ => true
  | .lpProc _ _ => true
  | .fbSum _ _ => true
  | .fbUpd _ _ => true
  | .strStep _ _ _ => true
  | .drvGain _ => true
  | .drvShape _ _ => true
  | .mapClamp _ _ _ _ _ _ _ => true
  | .mapAp _ => true
  | .mapFb _ _ => true
  | .mapLp _ => true
  | .mapWob _ => true
  | .mapPd _ => true
  | .smSeed _ _ => true
  | .smSet _ _ => true
  | .smNext _ => true
  | .blkLatch => true
  | .inSan _ => true
  | .mixBlend _ _ _ => true
  | .frame => true

end Sys2Proof
end

