-- ==== Sys2Proof/Decode.lean ====
section
/-! DEFINITION. The decoder and the encoder. A host command is one 32-bit word (format `CW`, R81 to R84) and every word decodes.
A datapath operation has only an 8-bit label in the spec (format `UOP`, R85), which no register, bus or memory holds; so that
one can be presented on its own, the model gives it a record of eight 32-bit words of its own (log entry 11): word 0 holds the
label in bits 7:0 and selectors above it, words 1 to 7 the operands, and all that an operation does not use is zero.

Selectors of word 0: bit 8 string or channel (0 = L or 0, 1 = R or 1); bits 10:9 stage less 1; bit 11 store kind (0 = `PD[c]`,
1 = `AP[s][k]`); bit 12 order (0 = `PRE`, 1 = `POST`); bit 13 smoother (0 = mix, 1 = drive); bit 14 headroom (0 = 2, 1 = 3). -/

namespace Sys2Proof

/-- The two formats of `spec/opcode_table.json`. -/
inductive Format
  | cw | uop
  deriving DecidableEq, Repr, Inhabited

/-- Why a list of words is no operation. -/
inductive DecodeError
  /-- A command is one word (R81). -/
  | notOneWord
  /-- A datapath record has eight words (log entry 11). -/
  | notEightWords
  /-- No row of R85 has this label. -/
  | unknownLabel
  /-- A bit or word that the operation does not use is not zero (log entry 11). -/
  | reservedBits
  /-- The selectors name no store or no stage (log entry 11). -/
  | noSuchStore
  deriving DecidableEq, Repr, Inhabited

/-- A command word (R81 to R84): bits 31:28 select, a reserved `OP` is `NOP`, and only `PROCESS` reads further bits. -/
def decodeCommand (w : Word) : Instr :=
  match (w.extractLsb' 28 4).toNat with
  | 0 => .nop
  | 1 => .prepare
  | 2 => .reset
  | 3 => .process (w.getLsbD 16) (w.extractLsb' 0 16)
  | _ => .nop

def decodeStr (h : Word) : Str := if h.getLsbD 8 then .R else .L

def decodeChan (h : Word) : Chan := if h.getLsbD 8 then .c1 else .c0

def decodeOrder (h : Word) : Order := if h.getLsbD 12 then .post else .pre

def decodeSmoother (h : Word) : SmootherId := if h.getLsbD 13 then .drive else .mix

def decodeHeadroom (h : Word) : Headroom := if h.getLsbD 14 then .frac else .int

def decodeStage (h : Word) : Option Stage :=
  match (h.extractLsb' 9 2).toNat with
  | 0 => some .k1
  | 1 => some .k2
  | 2 => some .k3
  | _ => none

/-- A store of either kind; a pre-delay store has no stage. -/
def decodeStore (h : Word) : Option StoreId :=
  if h.getLsbD 11 then (decodeStage h).map (StoreId.ap (decodeStr h))
  else if h.extractLsb' 9 2 = 0#2 then some (.pd (decodeChan h))
  else none

/-- The selector bits an operation uses and how many operand words it has, by label (R85). -/
def labelRow (label : Nat) : Option (Word × Nat) :=
  match label with
  | 0x01 => some (0x4F00#32, 1)
  | 0x02 => some (0x0F00#32, 0)
  | 0x03 => some (0x0F00#32, 1)
  | 0x04 => some (0x1F00#32, 1)
  | 0x05 => some (0x1F00#32, 1)
  | 0x10 => some (0x0700#32, 3)
  | 0x11 => some (0x0700#32, 3)
  | 0x18 => some (0x0100#32, 1)
  | 0x19 => some (0x0100#32, 1)
  | 0x20 => some (0x0100#32, 0)
  | 0x21 => some (0x0100#32, 0)
  | 0x28 => some (0x0100#32, 1)
  | 0x30 => some (0x0100#32, 1)
  | 0x31 => some (0x0100#32, 1)
  | 0x38 => some (0x0100#32, 2)
  | 0x40 => some (0#32, 1)
  | 0x41 => some (0#32, 2)
  | 0x50 => some (0#32, 7)
  | 0x51 => some (0#32, 1)
  | 0x52 => some (0x0100#32, 1)
  | 0x53 => some (0#32, 1)
  | 0x54 => some (0#32, 1)
  | 0x55 => some (0#32, 1)
  | 0x60 => some (0x2000#32, 1)
  | 0x61 => some (0x2000#32, 1)
  | 0x62 => some (0x2000#32, 0)
  | 0x70 => some (0#32, 0)
  | 0x71 => some (0#32, 1)
  | 0x72 => some (0#32, 3)
  | 0x73 => some (0#32, 0)
  | _ => none

/-- An operation on a store, or the refusal that there is none. -/
def withStore (h : Word) (k : StoreId → Instr) : Except DecodeError Instr :=
  match decodeStore h with
  | some st => .ok (k st)
  | none => .error .noSuchStore

/-- An operation on an allpass stage, or the refusal that there is none. -/
def withStage (h : Word) (k : Stage → Instr) : Except DecodeError Instr :=
  match decodeStage h with
  | some st => .ok (k st)
  | none => .error .noSuchStore

/-- The operation of a label, from its selectors and operand words. -/
def decodeFields (h a b c d e f g : Word) : Except DecodeError Instr :=
  match (h.extractLsb' 0 8).toNat with
  | 0x01 => withStore h fun st => .rbPrep st (a.toNat + 1) (decodeHeadroom h)
  | 0x02 => withStore h fun st => .rbReset st
  | 0x03 => withStore h fun st => .rbWrite st a
  | 0x04 => withStore h fun st => .rbRdi st a.toInt (decodeOrder h)
  | 0x05 => withStore h fun st => .rbRdf st a (decodeOrder h)
  | 0x10 => withStage h fun k => .apProc (decodeStr h) k a b.toInt c
  | 0x11 => withStage h fun k => .apProcm (decodeStr h) k a b c
  | 0x18 => .ok (.pdWrite (decodeChan h) a)
  | 0x19 => .ok (.pdRead (decodeChan h) a.toInt)
  | 0x20 => .ok (.lfoMod (decodeStr h))
  | 0x21 => .ok (.lfoAdv (decodeStr h))
  | 0x28 => .ok (.lpProc (decodeStr h) a)
  | 0x30 => .ok (.fbSum (decodeStr h) a)
  | 0x31 => .ok (.fbUpd (decodeStr h) a)
  | 0x38 => .ok (.strStep (decodeStr h) a b)
  | 0x40 => .ok (.drvGain a)
  | 0x41 => .ok (.drvShape a b)
  | 0x50 => .ok (.mapClamp a b c d e f g)
  | 0x51 => .ok (.mapAp a)
  | 0x52 => .ok (.mapFb (decodeStr h) a)
  | 0x53 => .ok (.mapLp a)
  | 0x54 => .ok (.mapWob a)
  | 0x55 => .ok (.mapPd a)
  | 0x60 => .ok (.smSeed (decodeSmoother h) a)
  | 0x61 => .ok (.smSet (decodeSmoother h) a)
  | 0x62 => .ok (.smNext (decodeSmoother h))
  | 0x70 => .ok .blkLatch
  | 0x71 => .ok (.inSan a)
  | 0x72 => .ok (.mixBlend a b c)
  | 0x73 => .ok .frame
  | _ => .error .unknownLabel

/-- A datapath record (log entry 11). -/
def decodeRecord (ws : List Word) : Except DecodeError Instr :=
  match ws with
  | [h, a, b, c, d, e, f, g] =>
    match labelRow (h.extractLsb' 0 8).toNat with
    | none => .error .unknownLabel
    | some (selectors, operands) =>
      if h &&& ~~~(selectors ||| 0xFF#32) = 0#32 ∧ ([a, b, c, d, e, f, g].drop operands).all (· == 0#32) = true then
        decodeFields h a b c d e f g
      else .error .reservedBits
  | _ => .error .notEightWords

/-- The decoder, total on any words. -/
def decode (fmt : Format) (ws : List Word) : Except DecodeError Instr :=
  match fmt with
  | .cw =>
    match ws with
    | [w] => .ok (decodeCommand w)
    | _ => .error .notOneWord
  | .uop => decodeRecord ws

/-- The `n` words of a number whose bit 0 is the least significant bit of the first word. -/
def wordsOf (n w : Nat) : List Word :=
  match n with
  | 0 => []
  | n + 1 => BitVec.ofNat 32 w :: wordsOf n (w / 2 ^ 32)

/-- What the decoder reads from an instruction of `spec/opcode_table.json` whose bits are `w`: a row of 32 bits is a command
word, a row of 8 bits the label of a datapath record whose other bits are zero. -/
def decodeTableWord (nbits w : Nat) : Option Instr :=
  if nbits = 32 then (decode .cw (wordsOf 1 w)).toOption
  else if nbits = 8 then (decode .uop (wordsOf 8 w)).toOption
  else none

/-! The encoder, written from R81, R83, R85 and the selectors above, not from the decoder. -/

def strBit : Str → Word
  | .L => 0x0000#32
  | .R => 0x0100#32

def chanBit : Chan → Word
  | .c0 => 0x0000#32
  | .c1 => 0x0100#32

def stageBits : Stage → Word
  | .k1 => 0x0000#32
  | .k2 => 0x0200#32
  | .k3 => 0x0400#32

def storeBits : StoreId → Word
  | .pd c => chanBit c
  | .ap s k => 0x0800#32 ||| strBit s ||| stageBits k

def orderBit : Order → Word
  | .pre => 0x0000#32
  | .post => 0x1000#32

def smootherBit : SmootherId → Word
  | .mix => 0x0000#32
  | .drive => 0x2000#32

def headroomBit : Headroom → Word
  | .int => 0x0000#32
  | .frac => 0x4000#32

/-- The words of an operation, its ignored bits zero. -/
def encode : Instr → List Word
  | .nop => [0x00000000#32]
  | .prepare => [0x10000000#32]
  | .reset => [0x20000000#32]
  | .process stereo n => [(0x3#4 ++ 0x0#11 ++ BitVec.ofBool stereo ++ n : BitVec 32)]
  | .rbPrep st m h => [0x01#32 ||| storeBits st ||| headroomBit h, BitVec.ofNat 32 (m - 1), 0#32, 0#32, 0#32, 0#32, 0#32, 0#32]
  | .rbReset st => [0x02#32 ||| storeBits st, 0#32, 0#32, 0#32, 0#32, 0#32, 0#32, 0#32]
  | .rbWrite st v => [0x03#32 ||| storeBits st, v, 0#32, 0#32, 0#32, 0#32, 0#32, 0#32]
  | .rbRdi st d o => [0x04#32 ||| storeBits st ||| orderBit o, BitVec.ofInt 32 d, 0#32, 0#32, 0#32, 0#32, 0#32, 0#32]
  | .rbRdf st d o => [0x05#32 ||| storeBits st ||| orderBit o, d, 0#32, 0#32, 0#32, 0#32, 0#32, 0#32]
  | .apProc s k x n g => [0x10#32 ||| strBit s ||| stageBits k, x, BitVec.ofInt 32 n, g, 0#32, 0#32, 0#32, 0#32]
  | .apProcm s k x d g => [0x11#32 ||| strBit s ||| stageBits k, x, d, g, 0#32, 0#32, 0#32, 0#32]
  | .pdWrite c x => [0x18#32 ||| chanBit c, x, 0#32, 0#32, 0#32, 0#32, 0#32, 0#32]
  | .pdRead c n => [0x19#32 ||| chanBit c, BitVec.ofInt 32 n, 0#32, 0#32, 0#32, 0#32, 0#32, 0#32]
  | .lfoMod s => [0x20#32 ||| strBit s, 0#32, 0#32, 0#32, 0#32, 0#32, 0#32, 0#32]
  | .lfoAdv s => [0x21#32 ||| strBit s, 0#32, 0#32, 0#32, 0#32, 0#32, 0#32, 0#32]
  | .lpProc s x => [0x28#32 ||| strBit s, x, 0#32, 0#32, 0#32, 0#32, 0#32, 0#32]
  | .fbSum s x => [0x30#32 ||| strBit s, x, 0#32, 0#32, 0#32, 0#32, 0#32, 0#32]
  | .fbUpd s z => [0x31#32 ||| strBit s, z, 0#32, 0#32, 0#32, 0#32, 0#32, 0#32]
  | .strStep s x gain => [0x38#32 ||| strBit s, x, gain, 0#32, 0#32, 0#32, 0#32, 0#32]
  | .drvGain d => [0x40#32, d, 0#32, 0#32, 0#32, 0#32, 0#32, 0#32]
  | .drvShape x gain => [0x41#32, x, gain, 0#32, 0#32, 0#32, 0#32, 0#32]
  | .mapClamp a b c d e f g => [0x50#32, a, b, c, d, e, f, g]
  | .mapAp t => [0x51#32, t, 0#32, 0#32, 0#32, 0#32, 0#32, 0#32]
  | .mapFb s d => [0x52#32 ||| strBit s, d, 0#32, 0#32, 0#32, 0#32, 0#32, 0#32]
  | .mapLp d => [0x53#32, d, 0#32, 0#32, 0#32, 0#32, 0#32, 0#32]
  | .mapWob w => [0x54#32, w, 0#32, 0#32, 0#32, 0#32, 0#32, 0#32]
  | .mapPd p => [0x55#32, p, 0#32, 0#32, 0#32, 0#32, 0#32, 0#32]
  | .smSeed p v => [0x60#32 ||| smootherBit p, v, 0#32, 0#32, 0#32, 0#32, 0#32, 0#32]
  | .smSet p v => [0x61#32 ||| smootherBit p, v, 0#32, 0#32, 0#32, 0#32, 0#32, 0#32]
  | .smNext p => [0x62#32 ||| smootherBit p, 0#32, 0#32, 0#32, 0#32, 0#32, 0#32, 0#32]
  | .blkLatch => [0x70#32, 0#32, 0#32, 0#32, 0#32, 0#32, 0#32, 0#32]
  | .inSan w => [0x71#32, w, 0#32, 0#32, 0#32, 0#32, 0#32, 0#32]
  | .mixBlend a b m => [0x72#32, a, b, m, 0#32, 0#32, 0#32, 0#32]
  | .frame => [0x73#32, 0#32, 0#32, 0#32, 0#32, 0#32, 0#32, 0#32]

/-- The format of an operation (R80): commands are the operations of one word. -/
def formatOf (i : Instr) : Format := if (encode i).length = 1 then .cw else .uop

end Sys2Proof
end

