-- ==== Sys2Proof/Machine/State.lean ====
section
/-! DEFINITION. The state of NFR-CORE as plain data, what can stop a step, and the state after power-on. -/

namespace Sys2Proof.Machine

/-- Two things of a kind: one for each string, or one for each channel (R12). -/
structure Pair (α : Type) where
  l : α
  r : α
  deriving DecidableEq, Repr

/-- Three things of a kind, one for each allpass stage of a string (R12). -/
structure Stages (α : Type) where
  k1 : α
  k2 : α
  k3 : α
  deriving DecidableEq, Repr

/-- The cells of a ring memory: (cell number, value) pairs, numbers strictly rising, no value `+0`, which is what a cell not
listed reads as (R101, R102; log entries 8 and 9). -/
abbrev Memory (S : Type := F32) := List (Nat × S)

/-- A Circular Delay Store (R29). -/
structure Store (S : Type := F32) where
  /-- `st.C`, the capacity in cells. -/
  cap : Nat
  /-- `st.wr`, the cell the next write fills. -/
  wr : Nat
  /-- `st.buf`. -/
  cells : Memory S
  deriving DecidableEq, Repr

/-- The host registers that hold a word (R21). `CMD` and the reserved words hold nothing, and `STATUS` is composed on reading. -/
structure HostRegs where
  fsLo : Word
  fsHi : Word
  maxBlk : Word
  pMix : Word
  pDecay : Word
  pTension : Word
  pPredelay : Word
  pDamping : Word
  pWobble : Word
  pDrive : Word
  deriving DecidableEq, Repr

/-- The sequencer (R24). `run` is `STATUS.RUN`. -/
structure Sequencer where
  run : Bool
  frames : BitVec 16
  stereo : Bool
  bypass : Bool
  deriving DecidableEq, Repr

/-- The constants latched by `PREPARE` (R25). -/
structure Constants (S : Type := F32) where
  fs : S
  /-- `NR`. -/
  nr : Nat
  /-- `PD_MAX`. -/
  pdMax : Nat
  /-- `W_MAX`. -/
  wMax : S
  /-- `N[s][k]`. -/
  n : Pair (Stages Nat)
  /-- `inc[s]`. -/
  inc : Pair S
  deriving DecidableEq, Repr

/-- The coefficient registers, written by the latch (R26). -/
structure Coefficients (S : Type := F32) where
  apCoeff : S
  lpCut : S
  lpA : S
  fbGain : Pair S
  wobDepth : S
  pdN : Nat
  deriving DecidableEq, Repr

/-- The recurrent state of one string (R27). -/
structure StringState (S : Type := F32) where
  fb : S
  ph : S
  lpz : S
  /-- `AP[s][1]`, `AP[s][2]`, `AP[s][3]`. -/
  ap : Stages (Store S)
  deriving DecidableEq, Repr

/-- A parameter smoother (R30). -/
structure Smoother (S : Type := F32) where
  cur : S
  tgt : S
  step : S
  cnt : Nat
  deriving DecidableEq, Repr

/-- One frame of a sample stream: the words of channel 0 and channel 1 (R60). -/
structure Frame where
  l : Word
  r : Word
  deriving DecidableEq, Repr

/-- What the host does, or has the datapath do, in one step (R262; log entries 10, 11 and 13). -/
inductive Event
  /-- A read of `size` bytes at an offset of the register map, `MemRead` (R11). -/
  | read (offset size : Nat)
  /-- A write of `size` bytes at an offset of the register map, `MemWrite` (R11). -/
  | write (offset size : Nat) (w : Word)
  /-- One more frame reaches the `IN` stream (R263). -/
  | supply (f : Frame)
  /-- A parameter write that will land while the next latch runs (R67). -/
  | duringLatch (p : Param) (w : Word)
  /-- The datapath has its turn: one frame, if a block runs and its input is there. -/
  | turn
  /-- One datapath operation on its own, as a record of the model's own. -/
  | datapath (ws : List Word)
  deriving DecidableEq, Repr

/-- The machine, over the values `S` of `NUM` (R13), which are binary32 where none are named. The fields from `inQ` on are not
registers of the block: the two streams (R60), and what the model keeps to be one deterministic step function (log entries 10, 12,
13 and 20). -/
structure State (S : Type := F32) where
  /-- The host registers. -/
  host : HostRegs
  /-- `STATUS.PREP` (R22). -/
  prep : Bool
  seq : Sequencer
  consts : Constants S
  coeffs : Coefficients S
  /-- `PD[0]` and `PD[1]` (R28). -/
  pd : Pair (Store S)
  /-- The strings `L` and `R` (R27). -/
  str : Pair (StringState S)
  /-- `SM[mix]`. -/
  smMix : Smoother S
  /-- `SM[drive]`. -/
  smDrive : Smoother S
  /-- `IN`: frames supplied and not yet consumed, the next one first. -/
  inQ : List Frame
  /-- `OUT`: frames produced, the oldest first. -/
  outQ : List Frame
  /-- The events to come, the next one first. -/
  agenda : List Event
  /-- What host reads returned, the oldest first. -/
  readLog : List Word
  /-- What the last datapath operation presented on its own returned. -/
  result : List S
  /-- The parameter writes that land during the next latch, the earliest first. -/
  racing : List (Param × Word)
  /-- How many latches met such writes. -/
  draws : Nat
  deriving DecidableEq, Repr

/-- There is no fault: the set of exceptions is empty and every command and datapath operation completes (R230; log entry 22). -/
inductive Fault
  deriving DecidableEq, Repr

/-- Why the model gives a step no meaning. -/
inductive Refusal
  /-- Raised by an arm of `exec` whose instruction has no meaning yet; none is left. Safe. -/
  | notModelled (mnemonic : String)
  /-- Raised by a write to `CMD` while a block runs, which R260 and U1 order a model to refuse. Safe. -/
  | commandWhileRunning
  /-- Raised by a host access that is no aligned 32-bit word below 0x40, which R62 and U6 put outside the interface. Safe. -/
  | accessOutsideInterface (offset size : Nat)
  /-- Raised by a datapath record that encodes no operation (log entry 11). Safe. -/
  | noSuchOperation (e : DecodeError)
  deriving DecidableEq, Repr

variable {S : Type} [Zero S]

/-- A cleared store of a given capacity. -/
def emptyStore (cap : Nat) : Store S := { cap := cap, wr := 0, cells := [] }

/-- A string at power-on: cleared, with the least capacities `RB.PREP` can make (log entry 7). -/
def emptyString : StringState S :=
  { fb := 0, ph := 0, lpz := 0, ap := { k1 := emptyStore 3, k2 := emptyStore 3, k3 := emptyStore 4 } }

/-- A settled smoother at `+0` (log entry 7). -/
def emptySmoother : Smoother S := { cur := 0, tgt := 0, step := 0, cnt := 0 }

/-- The host registers after power-on (R21). -/
def HostRegs.powerOn : HostRegs :=
  { fsLo := 0x00000000#32, fsHi := 0x40E58880#32, maxBlk := 0x00000000#32, pMix := 0x3F000000#32, pDecay := 0x40000000#32,
    pTension := 0x3F000000#32, pPredelay := 0x41200000#32, pDamping := 0x3ECCCCCD#32, pWobble := 0x3E99999A#32,
    pDrive := 0x3E4CCCCD#32 }

/-- The machine after power-on under a configuration (R21, R32, R250). The host registers, `STATUS` and the sequencer have the values of
R21 and R32; what R32 leaves unspecified has, by log entry 7, the least value its range admits. -/
def State.powerOn (C : Cfg S) : State S :=
  { host := HostRegs.powerOn
    prep := false
    seq := { run := false, frames := 0#16, stereo := false, bypass := false }
    consts :=
      { fs := C.fsLow, nr := 1, pdMax := 1, wMax := 0, n := { l := { k1 := 1, k2 := 1, k3 := 1 }, r := { k1 := 1, k2 := 1, k3 := 1 } },
        inc := { l := 0, r := 0 } }
    coeffs :=
      { apCoeff := C.num.lit 2 10, lpCut := C.num.lit 2000 1, lpA := C.num.lit 1 1, fbGain := { l := 0, r := 0 }, wobDepth := 0, pdN := 0 }
    pd := { l := emptyStore 3, r := emptyStore 3 }
    str := { l := emptyString, r := emptyString }
    smMix := emptySmoother
    smDrive := emptySmoother
    inQ := []
    outQ := []
    agenda := []
    readLog := []
    result := []
    racing := []
    draws := 0 }

/-- The hardware after power-on: `State.powerOn` under its configuration, written out. -/
def State.reset : State :=
  { host := HostRegs.powerOn
    prep := false
    seq := { run := false, frames := 0#16, stereo := false, bypass := false }
    consts :=
      { fs := 0x45FA0000#32, nr := 1, pdMax := 1, wMax := plusZero, n := { l := { k1 := 1, k2 := 1, k3 := 1 }, r := { k1 := 1, k2 := 1, k3 := 1 } },
        inc := { l := plusZero, r := plusZero } }
    coeffs :=
      { apCoeff := 0x3E4CCCCD#32, lpCut := 0x44FA0000#32, lpA := 0x3F800000#32, fbGain := { l := plusZero, r := plusZero },
        wobDepth := plusZero, pdN := 0 }
    pd := { l := emptyStore 3, r := emptyStore 3 }
    str := { l := emptyString, r := emptyString }
    smMix := emptySmoother
    smDrive := emptySmoother
    inQ := []
    outQ := []
    agenda := []
    readLog := []
    result := []
    racing := []
    draws := 0 }

/-- The two are the same machine. -/
theorem State.powerOn_block : State.powerOn Config.block = State.reset := by decide +kernel

end Sys2Proof.Machine
end

