-- ==== Sys2Proof/Machine/Ops.lean ====
section
/-! DEFINITION. The named operations that the meanings share: ring memories and delay stores (R64, R100 to R108), the parts of
State, the acceptance of a command (R260).

There is no operation that takes an exception and none that returns from one: nothing is raised, no state is saved, no mode
changes and no vector exists (R230, R235). -/

namespace Sys2Proof.Machine

variable {S : Type} [Zero S] [DecidableEq S]

/-! ### Ring memories -/

/-- The value of a cell; a cell not listed holds `+0` (R101, R102). -/
def Memory.read : Memory S → Nat → S
  | [], _ => 0
  | (b, u) :: m, a => if a = b then u else Memory.read m a

/-- Fills a cell, keeping the canonical form. -/
def Memory.write : Memory S → Nat → S → Memory S
  | [], a, v => if v = 0 then [] else [(a, v)]
  | (b, u) :: m, a, v =>
    if a < b then if v = 0 then (b, u) :: m else (a, v) :: (b, u) :: m
    else if a = b then if v = 0 then m else (a, v) :: m
    else (b, u) :: Memory.write m a v

/-- The canonical form: cell numbers strictly rising, no `+0` listed. -/
def Memory.wf : Memory S → Bool
  | [] => true
  | (a, v) :: m => v != 0 && m.all (fun c => decide (a < c.1)) && Memory.wf m

/-! ### Delay stores -/

/-- A capacity as `st.C` can hold it: one that does not fit its `IDX_W` bits leaves a free value of the range R29 gives (log entry
26). -/
def fitCapacity (C : Cfg S) (n : Nat) : Nat := if n < 2 ^ C.idxW then n else 3 + C.wideCapacity n % (2 ^ C.idxW - 3)

/-- `RB.PREP(st, maxDelay, headroom)` (R101). -/
def storePrep (C : Cfg S) (maxDelay : Nat) (h : Headroom) : Store S :=
  { cap := fitCapacity C (maxDelay + Config.headroom h), wr := 0, cells := [] }

/-- `RB.RESET(st)` (R102): the capacity stays. -/
def storeReset (st : Store S) : Store S := { st with wr := 0, cells := [] }

/-- `RB.WRITE(st, v)` (R103). -/
def storeWrite (st : Store S) (v : S) : Store S :=
  { st with cells := Memory.write st.cells st.wr v, wr := (st.wr + 1) % st.cap }

/-- The cell that `TAP(st, k)` names (R104): `(wr - 1 - k) mod C`, the least non-negative residue (R10). -/
def tapIndex (st : Store S) (k : Int) : Nat := (((st.wr : Int) - 1 - k) % (st.cap : Int)).toNat

/-- `TAP(st, k)` (R104). -/
def tap (st : Store S) (k : Int) : S := Memory.read st.cells (tapIndex st k)

/-- How far the tap of a lag lies behind the lag: a read before the owner's write finds the values of earlier steps one cell
nearer (R105). -/
def orderShift : Order → Int
  | .pre => 1
  | .post => 0

/-- `RB.RDI(st, d, ord)` (R106). -/
def storeReadInt (st : Store S) (d : Int) (ord : Order) : S :=
  tap st (Fp.clampi d 1 ((st.cap : Int) - 2) - orderShift ord)

/-- `RB.RDF(st, d, ord)` (R107). A store of capacity below 4 was not prepared with headroom 3; R107 does not say what it returns
(log entry 17). -/
def storeReadFrac (C : Cfg S) (st : Store S) (d : S) (ord : Order) : S :=
  if st.cap < 4 then C.shortStoreRead st.cap d
  else
    let dc := C.num.clamp d (C.num.itof 1) (C.num.itof (st.cap - 3))
    let i := C.num.floorI dc
    let f := C.num.fsub dc (C.num.itof i)
    let s0 := tap st ((i : Int) - orderShift ord)
    let s1 := tap st ((i : Int) + 1 - orderShift ord)
    C.num.fadd s0 (C.num.fmul f (C.num.fsub s1 s0))

/-! ### The parts of State -/

/-- The member of a pair that belongs to a string. -/
def Pair.get {α : Type} (p : Pair α) : Str → α
  | .L => p.l
  | .R => p.r

def Pair.set {α : Type} (p : Pair α) (s : Str) (x : α) : Pair α :=
  match s with
  | .L => { p with l := x }
  | .R => { p with r := x }

/-- The member that belongs to a stage. -/
def Stages.get {α : Type} (p : Stages α) : Stage → α
  | .k1 => p.k1
  | .k2 => p.k2
  | .k3 => p.k3

def Stages.set {α : Type} (p : Stages α) (k : Stage) (x : α) : Stages α :=
  match k with
  | .k1 => { p with k1 := x }
  | .k2 => { p with k2 := x }
  | .k3 => { p with k3 := x }

/-- The channel of a string: 0 for `L`, 1 for `R` (R12, R150). -/
def chanOf : Str → Chan
  | .L => .c0
  | .R => .c1

/-- The string of a channel. -/
def strOf : Chan → Str
  | .c0 => .L
  | .c1 => .R

/-- A store of the machine. -/
def State.store (σ : State S) : StoreId → Store S
  | .pd c => σ.pd.get (strOf c)
  | .ap s k => (σ.str.get s).ap.get k

/-- The machine with one store replaced. -/
def State.setStore (σ : State S) (id : StoreId) (st : Store S) : State S :=
  match id with
  | .pd c => { σ with pd := σ.pd.set (strOf c) st }
  | .ap s k => { σ with str := σ.str.set s { σ.str.get s with ap := (σ.str.get s).ap.set k st } }

/-- The machine with one string's feedback value replaced. -/
def State.setFb (σ : State S) (s : Str) (v : S) : State S := { σ with str := σ.str.set s { σ.str.get s with fb := v } }

/-- The machine with one string's LFO phase replaced. -/
def State.setPh (σ : State S) (s : Str) (v : S) : State S := { σ with str := σ.str.set s { σ.str.get s with ph := v } }

/-- The machine with one string's damping filter state replaced. -/
def State.setLpz (σ : State S) (s : Str) (v : S) : State S := { σ with str := σ.str.set s { σ.str.get s with lpz := v } }

/-- A smoother of the machine. -/
def State.smoother (σ : State S) : SmootherId → Smoother S
  | .mix => σ.smMix
  | .drive => σ.smDrive

/-- The machine with one smoother replaced. -/
def State.setSmoother (σ : State S) (p : SmootherId) (x : Smoother S) : State S :=
  match p with
  | .mix => { σ with smMix := x }
  | .drive => { σ with smDrive := x }

/-- The machine with what a datapath operation presented on its own returned (log entry 12). -/
def State.withResult (σ : State S) (vs : List S) : State S := { σ with result := vs }

/-! ### Commands -/

/-- A command is accepted only while no block runs; else the model refuses, as R260 and U1 say it must. -/
def accept (σ : State S) (k : Host.Outcome (State S) Fault Refusal) :
    Host.Outcome (State S) Fault Refusal :=
  if σ.seq.run then .refused .commandWhileRunning else k

end Sys2Proof.Machine
end

