-- ==== Sys2Proof/Machine/Operands.lean ====
section
/-! DEFINITION. Where operations find operands that are not written in them: the sample rate pair, the parameter registers and
their clamps, the snapshots of the latch. -/

namespace Sys2Proof.Machine

variable {S : Type} [Zero S] [DecidableEq S]

/-- The sample rate word: `FS_HI * 2^32 + FS_LO` (R62, R202). -/
def sampleRateWord (h : HostRegs) : BitVec 64 := h.fsHi ++ h.fsLo

/-- The sample rate, clamped into [`FS_MIN`, `FS_MAX`] (R202). -/
def sampleRate (C : Cfg S) (h : HostRegs) : S := C.num.clamp (C.num.cvt64 (sampleRateWord h)) C.fsLow C.fsHigh

/-- A parameter register (R21). -/
def HostRegs.param (h : HostRegs) : Param → Word
  | .mix => h.pMix
  | .decay => h.pDecay
  | .tension => h.pTension
  | .predelay => h.pPredelay
  | .damping => h.pDamping
  | .wobble => h.pWobble
  | .drive => h.pDrive

/-- The registers with one parameter written. -/
def HostRegs.setParam (h : HostRegs) (p : Param) (w : Word) : HostRegs :=
  match p with
  | .mix => { h with pMix := w }
  | .decay => { h with pDecay := w }
  | .tension => { h with pTension := w }
  | .predelay => { h with pPredelay := w }
  | .damping => { h with pDamping := w }
  | .wobble => { h with pWobble := w }
  | .drive => { h with pDrive := w }

/-- The documented domain of a parameter (R7, R21), its lower end. -/
def paramLow (C : Cfg S) : Param → S
  | .mix => C.num.lit 0 1
  | .decay => C.num.lit 1 10
  | .tension => C.num.lit 0 1
  | .predelay => C.num.lit 0 1
  | .damping => C.num.lit 0 1
  | .wobble => C.num.lit 0 1
  | .drive => C.num.lit 0 1

/-- Its upper end. -/
def paramHigh (C : Cfg S) : Param → S
  | .mix => C.num.lit 1 1
  | .decay => C.num.lit 8 1
  | .tension => C.num.lit 1 1
  | .predelay => C.num.lit 100 1
  | .damping => C.num.lit 1 1
  | .wobble => C.num.lit 1 1
  | .drive => C.num.lit 1 1

/-- A parameter word clamped into its domain (R171). -/
def clampParam (C : Cfg S) (p : Param) (w : Word) : S := C.num.clamp (C.num.cvt32 w) (paramLow C p) (paramHigh C p)

/-- The number of a parameter, by its place in the register map (R21). -/
def paramIndex : Param → Nat
  | .mix => 0
  | .decay => 1
  | .tension => 2
  | .predelay => 3
  | .damping => 4
  | .wobble => 5
  | .drive => 6

/-- The values a parameter register holds while the next latch runs: the one it has, then those written meanwhile (R67). -/
def heldDuringLatch (σ : State S) (p : Param) : List Word :=
  σ.host.param p :: (σ.racing.filter (fun e => e.1 == p)).map Prod.snd

/-- The snapshot of a parameter register: one of the values it holds during the latch; where there is more than one, which of them
is free (R67, U8; log entry 13). -/
def snapshot (σ : State S) (p : Param) : Word :=
  match heldDuringLatch σ p with
  | [w] => w
  | held => held.getD (Config.latchDraw σ.draws (paramIndex p) % held.length) (σ.host.param p)

/-- The parameter writes that land while a latch runs have landed. -/
def landRacing (σ : State S) : State S :=
  { σ with
    host := σ.racing.foldl (fun h e => h.setParam e.1 e.2) σ.host
    draws := if σ.racing.isEmpty then σ.draws else σ.draws + 1
    racing := [] }

end Sys2Proof.Machine
end

