-- ==== Sys2Proof/Machine/Mapper.lean ====
section
/-! DEFINITION. The parameter-to-coefficient mapper `MAP.*` (R170 to R177). -/

namespace Sys2Proof.Machine

variable {S : Type} [Zero S] [DecidableEq S] (C : Cfg S)

/-- `MAP.CLAMP` (R171): the seven clamped values, in the order of the rule. -/
def mapClamp (wMix wDecay wTension wPredelay wDamping wWobble wDrive : Word) : List S :=
  [clampParam C .mix wMix, clampParam C .decay wDecay, clampParam C .tension wTension, clampParam C .predelay wPredelay,
    clampParam C .damping wDamping, clampParam C .wobble wWobble, clampParam C .drive wDrive]

/-- The allpass coefficient of a tension (R172). -/
def apCoeffOf (tenC : S) : S :=
  C.num.clamp (C.num.fadd (C.num.lit 30 100) (C.num.fmul tenC (C.num.lit 45 100))) (C.num.lit 2 10) (C.num.lit 8 10)

/-- `MAP.AP(tenC)` (R172). -/
def mapAp (tenC : S) (σ : State S) : State S := { σ with coeffs := { σ.coeffs with apCoeff := apCoeffOf C tenC } }

/-- The feedback gain of a string for a decay time (R173). -/
def fbGainOf (s : Str) (decC : S) : S :=
  C.num.clamp (C.num.pow10 (C.num.fdiv (C.num.fmul (C.num.rnd true 3 1) (C.loopTime s)) decC)) (C.num.lit 0 1) (C.num.lit 95 100)

/-- `MAP.FB(s, decC)` (R173). -/
def mapFb (s : Str) (decC : S) (σ : State S) : State S :=
  { σ with coeffs := { σ.coeffs with fbGain := σ.coeffs.fbGain.set s (fbGainOf C s decC) } }

/-- The damping cutoff, Hz (R174). -/
def lpCutOf (dmpC : S) : S := C.num.fsub (C.num.lit 16000 1) (C.num.fmul dmpC (C.num.lit 14000 1))

/-- `MAP.LP(dmpC)` (R174). -/
def mapLp (dmpC : S) (σ : State S) : State S :=
  { σ with coeffs := { σ.coeffs with lpCut := lpCutOf C dmpC, lpA := C.num.lpA (lpCutOf C dmpC) σ.consts.fs } }

/-- `MAP.WOB(wobC)` (R175). -/
def mapWob (wobC : S) (σ : State S) : State S :=
  { σ with coeffs := { σ.coeffs with wobDepth := C.num.fmul wobC σ.consts.wMax } }

/-- The pre-delay in samples (R176). -/
def pdNOf (pdC fs : S) (pdMax : Nat) : Nat :=
  C.num.floorI (C.num.clamp (C.num.fdiv (C.num.fmul pdC fs) (C.num.lit 1000 1)) (C.num.lit 0 1) (C.num.itof pdMax))

/-- `MAP.PD(pdC)` (R176). -/
def mapPd (pdC : S) (σ : State S) : State S :=
  { σ with coeffs := { σ.coeffs with pdN := pdNOf C pdC σ.consts.fs σ.consts.pdMax } }

/-- The meaning of `MAP.CLAMP`. -/
def execMapClamp (wMix wDecay wTension wPredelay wDamping wWobble wDrive : Word) (σ : State) :
    Host.Outcome State Fault Refusal :=
  .next (σ.withResult (mapClamp Config.block wMix wDecay wTension wPredelay wDamping wWobble wDrive))

/-- The meaning of `MAP.AP`. -/
def execMapAp (tenC : F32) (σ : State) : Host.Outcome State Fault Refusal := .next (mapAp Config.block tenC σ)

/-- The meaning of `MAP.FB`. -/
def execMapFb (s : Str) (decC : F32) (σ : State) : Host.Outcome State Fault Refusal := .next (mapFb Config.block s decC σ)

/-- The meaning of `MAP.LP`. -/
def execMapLp (dmpC : F32) (σ : State) : Host.Outcome State Fault Refusal := .next (mapLp Config.block dmpC σ)

/-- The meaning of `MAP.WOB`. -/
def execMapWob (wobC : F32) (σ : State) : Host.Outcome State Fault Refusal := .next (mapWob Config.block wobC σ)

/-- The meaning of `MAP.PD`. -/
def execMapPd (pdC : F32) (σ : State) : Host.Outcome State Fault Refusal := .next (mapPd Config.block pdC σ)

end Sys2Proof.Machine
end

