-- ==== Sys2Proof/Machine/Smoothing.lean ====
section
/-! DEFINITION. The Parameter Smoother operations `SM.*` (R190 to R196). -/

namespace Sys2Proof.Machine

variable {S : Type} [Zero S] [DecidableEq S] (C : Cfg S)

/-- `SM.SEED` (R191): settled on `v`. -/
def seeded (v : S) : Smoother S := { cur := v, tgt := v, step := 0, cnt := 0 }

/-- `SM.SET` (R193): an equal target changes nothing, another starts a ramp of `nr` samples from the current value. -/
def retargeted (nr : Nat) (v : S) (x : Smoother S) : Smoother S :=
  if C.num.feq v x.tgt then x
  else { cur := x.cur, tgt := v, step := C.num.fdiv (C.num.fsub v x.cur) (C.num.itof nr), cnt := nr }

/-- `SM.NEXT` (R194): the last step of a ramp lands on the target. -/
def advanced (x : Smoother S) : Smoother S :=
  if x.cnt = 0 then x
  else if x.cnt - 1 = 0 then { x with cnt := 0, cur := x.tgt }
  else { x with cnt := x.cnt - 1, cur := C.num.fadd x.cur x.step }

/-- `SM.SEED(p, v)` on the machine. -/
def smSeed (p : SmootherId) (v : S) (σ : State S) : State S := σ.setSmoother p (seeded v)

/-- `SM.SET(p, v)` on the machine. -/
def smSet (p : SmootherId) (v : S) (σ : State S) : State S :=
  σ.setSmoother p (retargeted C σ.consts.nr v (σ.smoother p))

/-- `SM.NEXT(p)` on the machine, with the value to use in this frame. -/
def smNext (p : SmootherId) (σ : State S) : State S × S :=
  (σ.setSmoother p (advanced C (σ.smoother p)), (advanced C (σ.smoother p)).cur)

/-- Both smoothers seeded from their parameter registers, as `PREPARE` and `RESET` do (R66, R191). -/
def reseed (σ : State S) : State S :=
  smSeed .drive (clampParam C .drive σ.host.pDrive) (smSeed .mix (clampParam C .mix σ.host.pMix) σ)

/-- The meaning of `SM.SEED`. -/
def execSmSeed (p : SmootherId) (v : F32) (σ : State) : Host.Outcome State Fault Refusal := .next (smSeed p v σ)

/-- The meaning of `SM.SET`. -/
def execSmSet (p : SmootherId) (v : F32) (σ : State) : Host.Outcome State Fault Refusal := .next (smSet Config.block p v σ)

/-- The meaning of `SM.NEXT`. -/
def execSmNext (p : SmootherId) (σ : State) : Host.Outcome State Fault Refusal :=
  .next ((smNext Config.block p σ).1.withResult [(smNext Config.block p σ).2])

end Sys2Proof.Machine
end

