-- ==== Sys2Proof/Machine/Allpass.lean ====
section
/-! DEFINITION. The Allpass Section operations `AP.*` (R120 to R125). -/

namespace Sys2Proof.Machine

variable {S : Type} [Zero S] [DecidableEq S] (C : Cfg S)

/-- What an allpass section pushes into its store: `v = x - g * v_delayed` (R120). -/
def allpassState (x g vd : S) : S := C.num.fsub x (C.num.fmul g vd)

/-- What an allpass section returns: `y = g * v + v_delayed` (R120). -/
def allpassOut (x g vd : S) : S := C.num.fadd (C.num.fmul g (allpassState C x g vd)) vd

/-- `AP.PROC(st, x, N, g)` (R121): the delayed value is read before the push. -/
def apProc (s : Str) (k : Stage) (x : S) (n : Int) (g : S) (σ : State S) : State S × S :=
  let vd := storeReadInt (σ.store (.ap s k)) n .pre
  (σ.setStore (.ap s k) (storeWrite (σ.store (.ap s k)) (allpassState C x g vd)), allpassOut C x g vd)

/-- `AP.PROCM(st, x, d, g)` (R122): the same with an interpolated read. -/
def apProcm (s : Str) (k : Stage) (x d g : S) (σ : State S) : State S × S :=
  let vd := storeReadFrac C (σ.store (.ap s k)) d .pre
  (σ.setStore (.ap s k) (storeWrite (σ.store (.ap s k)) (allpassState C x g vd)), allpassOut C x g vd)

/-- The meaning of `AP.PROC`. -/
def execApProc (s : Str) (k : Stage) (x : F32) (n : Int) (g : F32) (σ : State) : Host.Outcome State Fault Refusal :=
  .next ((apProc Config.block s k x n g σ).1.withResult [(apProc Config.block s k x n g σ).2])

/-- The meaning of `AP.PROCM`. -/
def execApProcm (s : Str) (k : Stage) (x d g : F32) (σ : State) : Host.Outcome State Fault Refusal :=
  .next ((apProcm Config.block s k x d g σ).1.withResult [(apProcm Config.block s k x d g σ).2])

end Sys2Proof.Machine
end

