-- ==== Sys2Proof/Machine/Drive.lean ====
section
/-! DEFINITION. The Drive Stage operations `DRV.*` (R160 to R163). The stage has no state. -/

namespace Sys2Proof.Machine

variable {S : Type} (C : Cfg S)

/-- `DRV.GAIN(d)` (R161). -/
def drvGain (d : S) : S := C.num.fadd (C.num.lit 1 1) (C.num.fmul d (C.num.lit 3 1))

/-- `DRV.SHAPE(x, gain)` (R162). -/
def drvShape (x gain : S) : S := C.num.fdiv (C.num.tanh (C.num.fmul x gain)) gain

/-- The meaning of `DRV.GAIN`. -/
def execDrvGain (d : F32) (σ : State) : Host.Outcome State Fault Refusal := .next (σ.withResult [drvGain Config.block d])

/-- The meaning of `DRV.SHAPE`. -/
def execDrvShape (x gain : F32) (σ : State) : Host.Outcome State Fault Refusal := .next (σ.withResult [drvShape Config.block x gain])

end Sys2Proof.Machine
end

