-- ==== Sys2Proof/Machine/PreDelay.lean ====
section
/-! DEFINITION. The Pre-Delay Line operations `PD.*` (R130 to R133). -/

namespace Sys2Proof.Machine

variable {S : Type} [Zero S] [DecidableEq S]

/-- `PD.WRITE(c, x)` (R131). -/
def pdWrite (c : Chan) (x : S) (σ : State S) : State S := σ.setStore (.pd c) (storeWrite (σ.store (.pd c)) x)

/-- `PD.READ(c, n)` (R132): after the write of the same step. -/
def pdRead (c : Chan) (n : Int) (σ : State S) : S := storeReadInt (σ.store (.pd c)) n .post

/-- The meaning of `PD.WRITE`. -/
def execPdWrite (c : Chan) (x : F32) (σ : State) : Host.Outcome State Fault Refusal := .next (pdWrite c x σ)

/-- The meaning of `PD.READ`. -/
def execPdRead (c : Chan) (n : Int) (σ : State) : Host.Outcome State Fault Refusal := .next (σ.withResult [pdRead c n σ])

end Sys2Proof.Machine
end

