-- ==== Sys2Proof/Machine/SpringString.lean ====
section
/-! DEFINITION. The Spring Tank String: LFO, damping filter, feedback and the per-sample recurrence (R140 to R153). -/

namespace Sys2Proof.Machine

variable {S : Type} [Zero S] [DecidableEq S] (C : Cfg S)

/-- `LFO.MOD(s)` (R141): the stage-3 delay of this sample. -/
def lfoMod (s : Str) (σ : State S) : S :=
  let m := C.num.sin (C.num.fmul C.num.twoPi (σ.str.get s).ph)
  C.num.fadd (C.num.itof ((σ.consts.n.get s).get .k3)) (C.num.fmul σ.coeffs.wobDepth m)

/-- The LFO phase after one advance, wrapping at 1.0 (R142). -/
def nextPhase (ph inc : S) : S :=
  let p := C.num.fadd ph inc
  if C.num.flt p (C.num.lit 1 1) then p else C.num.fsub p (C.num.lit 1 1)

/-- `LFO.ADV(s)` (R142). -/
def lfoAdv (s : Str) (σ : State S) : State S := σ.setPh s (nextPhase C (σ.str.get s).ph (σ.consts.inc.get s))

/-- The damping filter's output, which is also its next state (R145). -/
def lpOut (s : Str) (x : S) (σ : State S) : S :=
  C.num.fadd (σ.str.get s).lpz (C.num.fmul σ.coeffs.lpA (C.num.fsub x (σ.str.get s).lpz))

/-- `LP.PROC(s, x)` (R145). -/
def lpProc (s : Str) (x : S) (σ : State S) : State S × S := (σ.setLpz s (lpOut C s x σ), lpOut C s x σ)

/-- `FB.SUM(s, xs)` (R147). -/
def fbSum (s : Str) (xs : S) (σ : State S) : S := C.num.fadd xs (σ.str.get s).fb

/-- `FB.UPD(s, z)` (R148). -/
def fbUpd (s : Str) (z : S) (σ : State S) : State S := σ.setFb s (C.num.fmul (σ.coeffs.fbGain.get s) z)

/-- `STR.STEP(s, xin, gain)` (R150): one sample of one string, its operations in the order of the rule. -/
def strStep (s : Str) (xin gain : S) (σ : State S) : State S × S :=
  let σ1 := pdWrite (chanOf s) xin σ
  let xd := pdRead (chanOf s) σ1.coeffs.pdN σ1
  let xs := drvShape C xd gain
  let u := fbSum C s xs σ1
  let a1 := apProc C s .k1 u ((σ1.consts.n.get s).get .k1) σ1.coeffs.apCoeff σ1
  let a2 := apProc C s .k2 a1.2 ((σ1.consts.n.get s).get .k2) σ1.coeffs.apCoeff a1.1
  let d3 := lfoMod C s a2.1
  let a3 := apProcm C s .k3 a2.2 d3 σ1.coeffs.apCoeff a2.1
  let z := lpProc C s a3.2 a3.1
  (lfoAdv C s (fbUpd C s z.2 z.1), a3.2)

/-- The meaning of `LFO.MOD`. -/
def execLfoMod (s : Str) (σ : State) : Host.Outcome State Fault Refusal := .next (σ.withResult [lfoMod Config.block s σ])

/-- The meaning of `LFO.ADV`. -/
def execLfoAdv (s : Str) (σ : State) : Host.Outcome State Fault Refusal := .next (lfoAdv Config.block s σ)

/-- The meaning of `LP.PROC`. -/
def execLpProc (s : Str) (x : F32) (σ : State) : Host.Outcome State Fault Refusal :=
  .next ((lpProc Config.block s x σ).1.withResult [(lpProc Config.block s x σ).2])

/-- The meaning of `FB.SUM`. -/
def execFbSum (s : Str) (xs : F32) (σ : State) : Host.Outcome State Fault Refusal := .next (σ.withResult [fbSum Config.block s xs σ])

/-- The meaning of `FB.UPD`. -/
def execFbUpd (s : Str) (z : F32) (σ : State) : Host.Outcome State Fault Refusal := .next (fbUpd Config.block s z σ)

/-- The meaning of `STR.STEP`. -/
def execStrStep (s : Str) (xin gain : F32) (σ : State) : Host.Outcome State Fault Refusal :=
  .next ((strStep Config.block s xin gain σ).1.withResult [(strStep Config.block s xin gain σ).2])

end Sys2Proof.Machine
end

