-- ==== Sys2Proof/Machine/Renderer.lean ====
section
/-! DEFINITION. The host commands and the Block Renderer (R200 to R212). -/

namespace Sys2Proof.Machine

variable {S : Type} [Zero S] [DecidableEq S] (C : Cfg S)

/-! ### `PREPARE` and `RESET` -/

/-- `NR` (R192, R202). -/
def rampLength (fs : S) : Nat := max 1 (C.num.floorI (C.num.fdiv fs (C.num.lit 100 1)))

/-- `PD_MAX` (R202). -/
def maxPreDelay (fs : S) : Nat := max 1 (C.num.floorI (C.num.fdiv (C.num.fmul (C.num.lit 100 1) fs) (C.num.lit 1000 1)))

/-- `W_MAX` (R202). -/
def maxWobble (fs : S) : S := C.num.fdiv (C.num.fmul (C.num.lit 3 1) fs) (C.num.lit 1000 1)

/-- `N[s][k]` (R202). -/
def baseDelay (fs : S) (s : Str) (k : Stage) : Nat := max 1 (C.num.floorI (C.num.fmul (C.base s k) fs))

/-- The three base delays of a string. -/
def baseDelays (fs : S) (s : Str) : Stages Nat :=
  { k1 := baseDelay C fs s .k1, k2 := baseDelay C fs s .k2, k3 := baseDelay C fs s .k3 }

/-- What `PREPARE` computes from the sample rate (R25, R202). -/
def constantsFor (fs : S) : Constants S :=
  { fs := fs
    nr := rampLength C fs
    pdMax := maxPreDelay C fs
    wMax := maxWobble C fs
    n := { l := baseDelays C fs .L, r := baseDelays C fs .R }
    inc := { l := C.num.fdiv (C.rate .L) fs, r := C.num.fdiv (C.rate .R) fs } }

/-- A string sized for its base delays, its signal state zero (R202). -/
def preparedString (wMax : S) (n : Stages Nat) : StringState S :=
  { fb := 0
    ph := 0
    lpz := 0
    ap := { k1 := storePrep C n.k1 .int, k2 := storePrep C n.k2 .int, k3 := storePrep C (n.k3 + C.num.floorI wMax + 1) .frac } }

/-- `PREPARE` on the machine (R202). -/
def prepareAll (σ : State S) : State S :=
  let c := constantsFor C (sampleRate C σ.host)
  { reseed C
      { σ with
        consts := c
        pd := { l := storePrep C c.pdMax .int, r := storePrep C c.pdMax .int }
        str := { l := preparedString C c.wMax c.n.l, r := preparedString C c.wMax c.n.r } } with
    prep := true }

/-- A string with its stores cleared and its signal state zero, its capacities kept (R203). -/
def clearedString (x : StringState S) : StringState S :=
  { fb := 0
    ph := 0
    lpz := 0
    ap := { k1 := storeReset x.ap.k1, k2 := storeReset x.ap.k2, k3 := storeReset x.ap.k3 } }

/-- `RESET` on the machine (R203): nothing before the first `PREPARE`. -/
def resetAll (σ : State S) : State S :=
  if σ.prep then
    reseed C
      { σ with
        pd := { l := storeReset σ.pd.l, r := storeReset σ.pd.r }
        str := { l := clearedString σ.str.l, r := clearedString σ.str.r } }
  else σ

/-! ### The latch -/

/-- `BLK.LATCH` on the machine (R205): the seven snapshots, the coefficient registers, the smoother targets. -/
def latch (σ : State S) : State S :=
  let at' (p : Param) : S := clampParam C p (snapshot σ p)
  let σ1 := mapAp C (at' .tension) (landRacing σ)
  let σ2 := mapLp C (at' .damping) σ1
  let σ3 := mapFb C .R (at' .decay) (mapFb C .L (at' .decay) σ2)
  let σ4 := mapPd C (at' .predelay) (mapWob C (at' .wobble) σ3)
  smSet C .drive (at' .drive) (smSet C .mix (at' .mix) σ4)

/-! ### Frames -/

/-- `IN.SAN(w)` (R208). -/
def inSan (w : Word) : S := if C.num.finite (C.num.cvt32 w) then C.num.cvt32 w else 0

/-- `MIX.BLEND(dry, wet, m)` (R209). -/
def mixBlend (dry wet m : S) : S := C.num.fadd (C.num.fmul dry (C.num.fsub (C.num.lit 1 1) m)) (C.num.fmul wet m)

/-- What the right string is fed in a frame (R210, R211). -/
def rightInput (stereo : Bool) (xl xr : S) : S :=
  if stereo then xr
  else
    match C.monoSource with
    | .left => xl
    | .zero => 0

/-- One frame on the input frame `f` (R210): the machine after it and the two output values, before they become words (R63). -/
def frameSignal (f : Frame) (σ : State S) : State S × S × S :=
  let xl := inSan C f.l
  let xr := inSan C f.r
  let m := smNext C .mix σ
  let d := smNext C .drive m.1
  let gain := drvGain C d.2
  let wetL := strStep C .L xl gain d.1
  let wetR := strStep C .R (rightInput C σ.seq.stereo xl xr) gain wetL.1
  (wetR.1, mixBlend C xl wetL.2 m.2, if σ.seq.stereo then mixBlend C xr wetR.2 m.2 else 0)

/-- `FRAME` on the machine (R210). With no frame at `IN` it waits (R204, R263; log entry 14). -/
def frameOp (σ : State S) : State S :=
  match σ.inQ with
  | [] => σ
  | f :: rest =>
    let o := frameSignal C f { σ with inQ := rest }
    { o.1 with outQ := o.1.outQ ++ [{ l := C.num.enc32 o.2.1, r := C.num.enc32 o.2.2 }] }

/-- `BYPASS_FRAME`, the frame of a block accepted before any `PREPARE` (R206). -/
def bypassFrame (σ : State S) : State S :=
  match σ.inQ with
  | [] => σ
  | f :: rest =>
    { σ with inQ := rest, outQ := σ.outQ ++ [{ l := f.l, r := if σ.seq.stereo then f.r else 0x00000000#32 }] }

/-- The acceptance and latch of `PROCESS` (R204, R262): the sequencer is set up and, once prepared, the latch runs. The frames
are the steps that follow. -/
def startBlock (stereo : Bool) (nframes : BitVec 16) (σ : State S) : State S :=
  let σ1 := { σ with seq := { run := false, frames := nframes, stereo := stereo, bypass := !σ.prep } }
  let σ2 := if σ.prep then latch C σ1 else σ1
  { σ2 with seq := { σ2.seq with run := nframes != 0#16 } }

/-! ### The meanings -/

/-- The meaning of `NOP` (R201). -/
def execNop (σ : State) : Host.Outcome State Fault Refusal := accept σ (.next σ)

/-- The meaning of `PREPARE` (R202). -/
def execPrepare (σ : State) : Host.Outcome State Fault Refusal := accept σ (.next (prepareAll Config.block σ))

/-- The meaning of `RESET` (R203). -/
def execReset (σ : State) : Host.Outcome State Fault Refusal := accept σ (.next (resetAll Config.block σ))

/-- The meaning of `PROCESS` (R204). -/
def execProcess (stereo : Bool) (nframes : BitVec 16) (σ : State) : Host.Outcome State Fault Refusal :=
  accept σ (.next (startBlock Config.block stereo nframes σ))

/-- The meaning of `BLK.LATCH` (R205). -/
def execBlkLatch (σ : State) : Host.Outcome State Fault Refusal := .next (latch Config.block σ)

/-- The meaning of `IN.SAN` (R208). -/
def execInSan (w : Word) (σ : State) : Host.Outcome State Fault Refusal := .next (σ.withResult [inSan Config.block w])

/-- The meaning of `MIX.BLEND` (R209). -/
def execMixBlend (dry wet m : F32) (σ : State) : Host.Outcome State Fault Refusal :=
  .next (σ.withResult [mixBlend Config.block dry wet m])

/-- The meaning of `FRAME` (R210). -/
def execFrame (σ : State) : Host.Outcome State Fault Refusal := .next (frameOp Config.block σ)

end Sys2Proof.Machine
end

