-- ==== Sys2Proof/Machine/Ring.lean ====
section
/-! DEFINITION. The meanings of the Circular Delay Store operations `RB.*` (R100 to R109). -/

namespace Sys2Proof.Machine

/-- `RB.PREP` (R101). -/
def execRbPrep (id : StoreId) (maxDelay : Nat) (h : Headroom) (σ : State) : Host.Outcome State Fault Refusal :=
  .next (σ.setStore id (storePrep Config.block maxDelay h))

/-- `RB.RESET` (R102). -/
def execRbReset (id : StoreId) (σ : State) : Host.Outcome State Fault Refusal :=
  .next (σ.setStore id (storeReset (σ.store id)))

/-- `RB.WRITE` (R103). -/
def execRbWrite (id : StoreId) (v : F32) (σ : State) : Host.Outcome State Fault Refusal :=
  .next (σ.setStore id (storeWrite (σ.store id) v))

/-- `RB.RDI` (R106): read-only. -/
def execRbRdi (id : StoreId) (d : Int) (ord : Order) (σ : State) : Host.Outcome State Fault Refusal :=
  .next (σ.withResult [storeReadInt (σ.store id) d ord])

/-- `RB.RDF` (R107): read-only. -/
def execRbRdf (id : StoreId) (d : F32) (ord : Order) (σ : State) : Host.Outcome State Fault Refusal :=
  .next (σ.withResult [storeReadFrac Config.block (σ.store id) d ord])

end Sys2Proof.Machine
end

