-- ==== Sys2Proof/Machine/Dispatch.lean ====
section
/-! DEFINITION. What each instruction does: one arm for each constructor of `Instr`. -/

namespace Sys2Proof.Machine

/-- The meaning of an operation on a state. -/
def exec (i : Instr) (s : State) : Host.Outcome State Fault Refusal :=
  match i with
  -- host commands (R83)
  | .nop => Sys2Proof.Machine.execNop s
  | .prepare => Sys2Proof.Machine.execPrepare s
  | .reset => Sys2Proof.Machine.execReset s
  | .process stereo nframes => Sys2Proof.Machine.execProcess stereo nframes s
  -- datapath operations (R85)
  | .rbPrep st maxDelay headroom => Sys2Proof.Machine.execRbPrep st maxDelay headroom s
  | .rbReset st => Sys2Proof.Machine.execRbReset st s
  | .rbWrite st v => Sys2Proof.Machine.execRbWrite st v s
  | .rbRdi st d ord => Sys2Proof.Machine.execRbRdi st d ord s
  | .rbRdf st d ord => Sys2Proof.Machine.execRbRdf st d ord s
  | .apProc t k x n g => Sys2Proof.Machine.execApProc t k x n g s
  | .apProcm t k x d g => Sys2Proof.Machine.execApProcm t k x d g s
  | .pdWrite c x => Sys2Proof.Machine.execPdWrite c x s
  | .pdRead c n => Sys2Proof.Machine.execPdRead c n s
  | .lfoMod t => Sys2Proof.Machine.execLfoMod t s
  | .lfoAdv t => Sys2Proof.Machine.execLfoAdv t s
  | .lpProc t x => Sys2Proof.Machine.execLpProc t x s
  | .fbSum t xs => Sys2Proof.Machine.execFbSum t xs s
  | .fbUpd t z => Sys2Proof.Machine.execFbUpd t z s
  | .strStep t xin gain => Sys2Proof.Machine.execStrStep t xin gain s
  | .drvGain d => Sys2Proof.Machine.execDrvGain d s
  | .drvShape x gain => Sys2Proof.Machine.execDrvShape x gain s
  | .mapClamp w1 w2 w3 w4 w5 w6 w7 => Sys2Proof.Machine.execMapClamp w1 w2 w3 w4 w5 w6 w7 s
  | .mapAp tenC => Sys2Proof.Machine.execMapAp tenC s
  | .mapFb t decC => Sys2Proof.Machine.execMapFb t decC s
  | .mapLp dmpC => Sys2Proof.Machine.execMapLp dmpC s
  | .mapWob wobC => Sys2Proof.Machine.execMapWob wobC s
  | .mapPd pdC => Sys2Proof.Machine.execMapPd pdC s
  | .smSeed p v => Sys2Proof.Machine.execSmSeed p v s
  | .smSet p v => Sys2Proof.Machine.execSmSet p v s
  | .smNext p => Sys2Proof.Machine.execSmNext p s
  | .blkLatch => Sys2Proof.Machine.execBlkLatch s
  | .inSan w => Sys2Proof.Machine.execInSan w s
  | .mixBlend dry wet m => Sys2Proof.Machine.execMixBlend dry wet m s
  | .frame => Sys2Proof.Machine.execFrame s

end Sys2Proof.Machine
end

