-- ==== Sys2Proof/Machine/Flags.lean ====
section
/-! DEFINITION. The flags. No operation leaves a flag or condition code; the two handshake bits of `STATUS` are the only flags of
any kind (R22, R31, R232). -/

namespace Sys2Proof.Machine

/-- `STATUS` as it reads: bit 0 `PREP`, bit 1 `RUN`, bits 31:2 zero (R21, R22). -/
def statusWord {S : Type} (σ : State S) : Word := 0x0#30 ++ BitVec.ofBool σ.seq.run ++ BitVec.ofBool σ.prep

end Sys2Proof.Machine
end

