-- ==== Sys2Proof/Machine/HostPort.lean ====
section
/-! DEFINITION. The host port: the register map and host reads and writes (R21, R62, R65, R72). -/

namespace Sys2Proof.Machine

/-- A word of the register map (R21). -/
inductive HostReg
  | cmd | status | fsLo | fsHi | maxBlk | reserved
  | param (p : Param)
  deriving DecidableEq, Repr

/-- The register at a word of the map, by its offset divided by 4 (R21). -/
def regAt : Nat → Option HostReg
  | 0 => some .cmd
  | 1 => some .status
  | 2 => some .fsLo
  | 3 => some .fsHi
  | 4 => some .maxBlk
  | 5 => some .reserved
  | 6 => some .reserved
  | 7 => some .reserved
  | 8 => some (.param .mix)
  | 9 => some (.param .decay)
  | 10 => some (.param .tension)
  | 11 => some (.param .predelay)
  | 12 => some (.param .damping)
  | 13 => some (.param .wobble)
  | 14 => some (.param .drive)
  | 15 => some .reserved
  | _ => none

/-- What an access reaches: an aligned whole word of the map, or nothing (R62). -/
def hostTarget (offset size : Nat) : Option HostReg :=
  if size = 4 ∧ offset % 4 = 0 then regAt (offset / 4) else none

/-- The byte offset of a register's first word (R21). -/
def offsetOf : HostReg → Nat
  | .cmd => 0x00
  | .status => 0x04
  | .fsLo => 0x08
  | .fsHi => 0x0C
  | .maxBlk => 0x10
  | .reserved => 0x14
  | .param p => 0x20 + 4 * paramIndex p

variable {S : Type}

/-- What a read of a register returns (R21); no read has a side effect (R65). -/
def readReg (σ : State S) : HostReg → Word
  | .cmd => 0x00000000#32
  | .status => statusWord σ
  | .fsLo => σ.host.fsLo
  | .fsHi => σ.host.fsHi
  | .maxBlk => σ.host.maxBlk
  | .reserved => 0x00000000#32
  | .param p => σ.host.param p

/-- A write of a register other than `CMD` (R21, R65): `STATUS` and the reserved words ignore it, and a write of `CMD` stores
nothing. -/
def writeReg (σ : State S) (r : HostReg) (w : Word) : State S :=
  match r with
  | .cmd => σ
  | .status => σ
  | .fsLo => { σ with host := { σ.host with fsLo := w } }
  | .fsHi => { σ with host := { σ.host with fsHi := w } }
  | .maxBlk => { σ with host := { σ.host with maxBlk := w } }
  | .reserved => σ
  | .param p => { σ with host := σ.host.setParam p w }

/-- A host read: the word returned is noted. -/
def hostRead (offset size : Nat) (σ : State S) : Host.Outcome (State S) Fault Refusal :=
  match hostTarget offset size with
  | some r => .next { σ with readLog := σ.readLog ++ [readReg σ r] }
  | none => .refused (.accessOutsideInterface offset size)

/-- A host write; `command` is what the machine does with a command word. -/
def hostWrite (command : Word → State S → Host.Outcome (State S) Fault Refusal) (offset size : Nat) (w : Word) (σ : State S) :
    Host.Outcome (State S) Fault Refusal :=
  match hostTarget offset size with
  | some .cmd => command w σ
  | some r => .next (writeReg σ r w)
  | none => .refused (.accessOutsideInterface offset size)

end Sys2Proof.Machine
end

