-- ==== Sys2Proof/Machine/Loop.lean ====
section
/-! DEFINITION. The loop of `PROCESS`, one iteration a step (R204, R262). -/

namespace Sys2Proof.Machine

variable {S : Type} [Zero S] [DecidableEq S] (C : Cfg S)

/-- `SEQ.frames` counted down, the block over when it reaches 0 (R24, R204). -/
def countFrame (σ : State S) : State S :=
  let left := σ.seq.frames - 1#16
  { σ with seq := { σ.seq with frames := left, run := left != 0#16 } }

/-- The datapath's turn: while a block runs and its next input frame is there, one iteration of the loop of `PROCESS`; a block
short of input waits, and an idle datapath does nothing (R204, R263). -/
def datapathTurn (σ : State S) : State S :=
  if σ.seq.run then
    if σ.seq.frames = 0#16 then { σ with seq := { σ.seq with run := false } }
    else
      match σ.inQ with
      | [] => σ
      | _ :: _ => countFrame (if σ.seq.bypass then bypassFrame σ else frameOp C σ)
  else σ

end Sys2Proof.Machine
end

