-- ==== Sys2Proof/Machine/Step.lean ====
section
/-! DEFINITION. One step of the machine: one host access, one input frame's arrival, one turn of the datapath (R262; log entry 10).
The block has no program counter and fetches nothing (R24, R71); what happens next is the next event of the agenda. -/

namespace Sys2Proof.Machine

/-! The parts of a step, under any configuration and any meaning `ex` of the operations. -/

variable {S : Type} [Zero S] [DecidableEq S] (C : Cfg S) (ex : Instr → State S → Host.Outcome (State S) Fault Refusal)

/-- A command word written to `CMD`. -/
def runCommand (w : Word) (s : State S) : Host.Outcome (State S) Fault Refusal := ex (decodeCommand w) s

/-- A datapath record presented on its own (log entry 11). -/
def runRecord (ws : List Word) (s : State S) : Host.Outcome (State S) Fault Refusal :=
  match decode .uop ws with
  | .ok i => ex i s
  | .error e => .refused (.noSuchOperation e)

/-- What an event does to the machine. -/
def runEventOf (e : Event) (s : State S) : Host.Outcome (State S) Fault Refusal :=
  match e with
  | .read offset size => hostRead offset size s
  | .write offset size w => hostWrite (runCommand ex) offset size w s
  | .supply f => .next { s with inQ := s.inQ ++ [f] }
  | .duringLatch p w => .next { s with racing := s.racing ++ [(p, w)] }
  | .turn => .next (datapathTurn C s)
  | .datapath ws => runRecord ex ws s

/-- One step: the next event of the agenda, or the datapath's turn when the host does nothing. -/
def stepOf (s : State S) : Host.Outcome (State S) Fault Refusal :=
  match s.agenda with
  | [] => .next (datapathTurn C s)
  | e :: rest => runEventOf C ex e { s with agenda := rest }

/-- What an event does to the hardware. -/
def runEvent (e : Event) (s : State) : Host.Outcome State Fault Refusal := runEventOf Config.block exec e s

/-- One step of the hardware: the step of the model under its configuration, with `exec`, which is the model's meaning under that
configuration (`execOf_block` in `Sys2Proof/Laws/Config.lean`). -/
def step (s : State) : Host.Outcome State Fault Refusal := stepOf Config.block exec s

/-- The state whose next step runs the instruction of `spec/opcode_table.json` with the bits `w`: a command word is about to be
written to `CMD`, a datapath record about to be presented. -/
def State.withFetchWord (s : State) (nbits w : Nat) : State :=
  if nbits = 32 then { s with agenda := .write 0 4 (BitVec.ofNat 32 w) :: s.agenda }
  else if nbits = 8 then { s with agenda := .datapath (wordsOf 8 w) :: s.agenda }
  else s

end Sys2Proof.Machine
end

