-- ==== Sys2Proof/Machine/Model.lean ====
section
/-! DEFINITION. The model as a function of its configuration `CFG` (R8, R13, R31): the meaning of every operation and the step for any
numerics and any parameters. The fixed names `exec` and `step` are these under `Config.block`. An operand that is a value of `S`
stands in `Instr` as a 32-bit word and is what `NUM.cvt32` makes of it (log entry 11). -/

namespace Sys2Proof.Machine

variable {S : Type} [Zero S] [DecidableEq S] (C : Cfg S)

/-- What a datapath operation presented alone leaves when it returns one value beside the state (log entry 12). -/
def returning (r : State S × S) : Host.Outcome (State S) Fault Refusal := .next (r.1.withResult [r.2])

/-- The meaning of an operation under a configuration. -/
def execOf (i : Instr) (σ : State S) : Host.Outcome (State S) Fault Refusal :=
  let v := C.num.cvt32
  match i with
  | .nop => accept σ (.next σ)
  | .prepare => accept σ (.next (prepareAll C σ))
  | .reset => accept σ (.next (resetAll C σ))
  | .process stereo nframes => accept σ (.next (startBlock C stereo nframes σ))
  | .rbPrep st maxDelay headroom => .next (σ.setStore st (storePrep C maxDelay headroom))
  | .rbReset st => .next (σ.setStore st (storeReset (σ.store st)))
  | .rbWrite st x => .next (σ.setStore st (storeWrite (σ.store st) (v x)))
  | .rbRdi st d ord => returning (σ, storeReadInt (σ.store st) d ord)
  | .rbRdf st d ord => returning (σ, storeReadFrac C (σ.store st) (v d) ord)
  | .apProc s k x n g => returning (apProc C s k (v x) n (v g) σ)
  | .apProcm s k x d g => returning (apProcm C s k (v x) (v d) (v g) σ)
  | .pdWrite c x => .next (pdWrite c (v x) σ)
  | .pdRead c n => returning (σ, pdRead c n σ)
  | .lfoMod s => returning (σ, lfoMod C s σ)
  | .lfoAdv s => .next (lfoAdv C s σ)
  | .lpProc s x => returning (lpProc C s (v x) σ)
  | .fbSum s x => returning (σ, fbSum C s (v x) σ)
  | .fbUpd s z => .next (fbUpd C s (v z) σ)
  | .strStep s x gain => returning (strStep C s (v x) (v gain) σ)
  | .drvGain d => returning (σ, drvGain C (v d))
  | .drvShape x gain => returning (σ, drvShape C (v x) (v gain))
  | .mapClamp w1 w2 w3 w4 w5 w6 w7 => .next (σ.withResult (mapClamp C w1 w2 w3 w4 w5 w6 w7))
  | .mapAp t => .next (mapAp C (v t) σ)
  | .mapFb s d => .next (mapFb C s (v d) σ)
  | .mapLp d => .next (mapLp C (v d) σ)
  | .mapWob w => .next (mapWob C (v w) σ)
  | .mapPd p => .next (mapPd C (v p) σ)
  | .smSeed p x => .next (smSeed p (v x) σ)
  | .smSet p x => .next (smSet C p (v x) σ)
  | .smNext p => returning (smNext C p σ)
  | .blkLatch => .next (latch C σ)
  | .inSan w => returning (σ, inSan C w)
  | .mixBlend dry wet m => returning (σ, mixBlend C (v dry) (v wet) (v m))
  | .frame => .next (frameOp C σ)

/-- The machine under a configuration, from `State.powerOn C`. -/
def machine : Host.Core :=
  { State := State S, Fault := Fault, Refusal := Refusal, step := stepOf C (execOf C), reset := State.powerOn C }

end Sys2Proof.Machine
end

