-- ==== Sys2Proof/Machine/Script.lean ====
section
/-! DEFINITION. The host script language (R89, R90): what each statement has the host do, as events of the machine, and what a script
states of the `OUT` stream. A sample of a script is a value of `S`, which under `NUM_B32` is its word (R89). The host of a script acts
when the datapath has done all that its input allows (log entry 21). -/

namespace Sys2Proof.Machine

open Fp

/-- The statements of R89 and the pseudo-operations of R90. -/
inductive Stmt (S : Type := F32)
  | wr (r : HostReg) (w : Word)
  | rd (r : HostReg)
  | nop
  | prepare
  | reset
  | process (stereo : Bool) (n : BitVec 16)
  | input (fs : List (Pair S))
  | expect (fs : List (Pair S))
  | setp (p : Param) (v : Decimal)
  | setfs (v : Decimal)
  | prep (fs : Decimal) (maxblk : Word)
  | block (stereo : Bool) (fs : List (Pair S))
  deriving DecidableEq, Repr

/-! ### Host accesses -/

/-- The write of a `WR` (R89). -/
def wrEvent (r : HostReg) (w : Word) : Event := .write (offsetOf r) 4 w

/-- The frames of the block that an operation starts (R204). -/
def framesOf : Instr → Nat
  | .process _ n => n.toNat
  | _ => 0

/-- The frames of the block that a register write starts: a write of `CMD` issues a command (R65). -/
def framesStarted (r : HostReg) (w : Word) : Nat :=
  match r with
  | .cmd => framesOf (decodeCommand w)
  | _ => 0

/-- `WR` (R89), after which the datapath has the turns that its block can use. -/
def writeEvents (r : HostReg) (w : Word) : List Event := wrEvent r w :: List.replicate (framesStarted r w) .turn

/-- `IN` (R89), after which the datapath has the turns that a block short of input can use (R263). -/
def inputEvents (fs : List Frame) : List Event := fs.map .supply ++ List.replicate fs.length .turn

/-- `PROCESS` (R89): its word written to `CMD`. -/
def processEvents (stereo : Bool) (n : BitVec 16) : List Event :=
  writeEvents .cmd ((if stereo then 0x30010000#32 else 0x30000000#32) + n.zeroExtend 32)

/-- Writes of both halves of a sample rate word (R90). -/
def rateEvents (w : BitVec 64) : List Event :=
  writeEvents .fsLo (w.extractLsb' 0 32) ++ writeEvents .fsHi (w.extractLsb' 32 32)

/-- `PREPARE` (R89). -/
def prepareEvents : List Event := writeEvents .cmd 0x10000000#32

/-- `BLOCK` (R90). DESIGN CHOICE: R89 has no `PROCESS` of more than 65535 frames and R90 does not say what `BLOCK` does with more;
the model supplies them all and takes their number modulo `2^16` (log entry 21). -/
def blockEvents (stereo : Bool) (fs : List Frame) : List Event :=
  inputEvents fs ++ processEvents stereo (BitVec.ofNat 16 fs.length)

/-! ### Scripts under `NUM_B32` -/

/-- The frame of two samples under `NUM_B32`, where each is its word (R89). -/
def wordFrame (x : Pair F32) : Frame := { l := x.l, r := x.r }

/-- What a statement has the host do (R89, R90); `EXPECT` has it do nothing. -/
def stmtEvents : Stmt → List Event
  | .wr r w => writeEvents r w
  | .rd r => [.read (offsetOf r) 4]
  | .nop => writeEvents .cmd 0x00000000#32
  | .prepare => prepareEvents
  | .reset => writeEvents .cmd 0x20000000#32
  | .process stereo n => processEvents stereo n
  | .input fs => inputEvents (fs.map wordFrame)
  | .expect _ => []
  | .setp p v => writeEvents (.param p) (bits32 v.negative v.num v.den)
  | .setfs v => rateEvents (bits64 v.negative v.num v.den)
  | .prep v maxblk => rateEvents (bits64 v.negative v.num v.den) ++ writeEvents .maxBlk maxblk ++ prepareEvents
  | .block stereo fs => blockEvents stereo (fs.map wordFrame)

/-- What a script has the host do. -/
def scriptEvents (ss : List Stmt) : List Event := ss.flatMap stmtEvents

/-- The frames of `OUT` a script states, in order (R89). -/
def scriptExpects {S : Type} (ss : List (Stmt S)) : List (Pair S) :=
  ss.flatMap fun
    | .expect fs => fs
    | _ => []

/-! ### Scripts with exact values

Under `NUM_IDEAL` the samples of `IN` and the values of `SETP` and `SETFS` are exact (R89, R90), and no word may hold one. Such a
value is named by a word that stands for no value of its own, a NaN pattern; the host gives the machine that word, and the script's
numerics convert it to the value, which is how R90 has such a statement set what the conversion returns. -/

section
variable {S : Type}

/-- The numerics of a script so far, and how many values have been named. -/
structure Names (S : Type) where
  num : Numerics S
  used : Nat

/-- The word that stands for the `k`-th exact value of a script. -/
def exactWord (k : Nat) : Word := 0x7F800001#32 + BitVec.ofNat 32 k

/-- The binary64 word that stands for the `k`-th exact value. -/
def exactRate (k : Nat) : BitVec 64 := 0x7FF0000000000001#64 + BitVec.ofNat 64 k

variable [DecidableEq S]

/-- A word that converts to a value: the value's own, where one does, or a name for it. -/
def Names.word (ν : Names S) (v : S) : Word × Names S :=
  if ν.num.cvt32 (ν.num.enc32 v) = v then (ν.num.enc32 v, ν)
  else (exactWord ν.used, { num := ν.num.withWord (exactWord ν.used) v, used := ν.used + 1 })

/-- A sample rate word that converts to a value. -/
def Names.rate (ν : Names S) (v : Decimal) : BitVec 64 × Names S :=
  let w := bits64 v.negative v.num v.den
  if ν.num.cvt64 w = ν.num.litOf v then (w, ν)
  else (exactRate ν.used, { num := ν.num.withRate (exactRate ν.used) (ν.num.litOf v), used := ν.used + 1 })

/-- Frames whose words convert to samples. -/
def Names.frames (ν : Names S) : List (Pair S) → List Frame × Names S
  | [] => ([], ν)
  | x :: xs =>
    let l := ν.word x.l
    let r := l.2.word x.r
    let rest := r.2.frames xs
    ({ l := l.1, r := r.1 } :: rest.1, rest.2)

/-- What a statement has the host do when its values are exact (R89, R90). -/
def exactEvents (ν : Names S) : Stmt S → List Event × Names S
  | .wr r w => (writeEvents r w, ν)
  | .rd r => ([.read (offsetOf r) 4], ν)
  | .nop => (writeEvents .cmd 0x00000000#32, ν)
  | .prepare => (prepareEvents, ν)
  | .reset => (writeEvents .cmd 0x20000000#32, ν)
  | .process stereo n => (processEvents stereo n, ν)
  | .input fs => let r := ν.frames fs; (inputEvents r.1, r.2)
  | .expect _ => ([], ν)
  | .setp p v => let r := ν.word (ν.num.litOf v); (writeEvents (.param p) r.1, r.2)
  | .setfs v => let r := ν.rate v; (rateEvents r.1, r.2)
  | .prep v maxblk => let r := ν.rate v; (rateEvents r.1 ++ writeEvents .maxBlk maxblk ++ prepareEvents, r.2)
  | .block stereo fs => let r := ν.frames fs; (blockEvents stereo r.1, r.2)

/-- What a script with exact values has the host do, and the numerics it runs under. -/
def exactScript (ν : Names S) : List (Stmt S) → List Event × Names S
  | [] => ([], ν)
  | st :: ss =>
    let r := exactEvents ν st
    let rest := exactScript r.2 ss
    (r.1 ++ rest.1, rest.2)

end

/-! ### What `EXPECT` compares -/

section
variable {S : Type} [Zero S] [DecidableEq S] (C : Cfg S)

/-- The values of the frame that the datapath's turn puts to `OUT`, if it makes one. Under `NUM_IDEAL` an `EXPECT` is compared with
these and not with the words made of them (R63). A bypass frame copies words (R206), and its values are what they convert to. -/
def turnValues (σ : State S) : List (Pair S) :=
  if σ.seq.run = true ∧ σ.seq.frames ≠ 0#16 then
    match σ.inQ with
    | [] => []
    | f :: rest =>
      if σ.seq.bypass then [{ l := C.num.cvt32 f.l, r := C.num.cvt32 (if σ.seq.stereo then f.r else 0x00000000#32) }]
      else
        let o := frameSignal C f { σ with inQ := rest }
        [{ l := o.2.1, r := o.2.2 }]
  else []

/-- The values that the next step of a script's machine puts to `OUT`. -/
def stepValues (σ : State S) : List (Pair S) :=
  match σ.agenda with
  | [] => turnValues C σ
  | .turn :: _ => turnValues C σ
  | _ => []

/-- The values that `k` steps put to `OUT`. -/
def runValues : Nat → State S → List (Pair S)
  | 0, _ => []
  | k + 1, σ =>
    stepValues C σ ++
      match stepOf C (execOf C) σ with
      | .next τ => runValues k τ
      | _ => []

/-- The configuration under which a script with exact values runs. -/
def scriptCfg (ss : List (Stmt S)) : Cfg S := { C with num := (exactScript { num := C.num, used := 0 } ss).2.num }

/-- The machine after power-on with a script's host before it. -/
def scriptStart (ss : List (Stmt S)) : State S :=
  { State.powerOn (scriptCfg C ss) with agenda := (exactScript { num := C.num, used := 0 } ss).1 }

/-- A script with exact values runs from power-on to its end, and what it puts to `OUT` begins with the frames its `EXPECT`s state
(R63, R89). -/
def ScriptHolds (ss : List (Stmt S)) : Prop :=
  let C' := scriptCfg C ss
  let n := (scriptStart C ss).agenda.length
  (∃ τ, (machine C').run n (scriptStart C ss) = .next τ) ∧ scriptExpects ss <+: runValues C' n (scriptStart C ss)

end

/-- A script of the hardware runs from power-on to its end, and the words it puts to `OUT` begin with the frames its `EXPECT`s
state (R89). -/
def WordScriptHolds (ss : List Stmt) : Prop :=
  ∃ τ : State,
    (machine Config.block).run (scriptEvents ss).length { State.reset with agenda := scriptEvents ss } = .next τ ∧
      (scriptExpects ss).map wordFrame <+: τ.outQ

end Sys2Proof.Machine
end

