-- ==== Sys2Proof/Safety.lean ====
section
/-! DEFINITION. What claims speak of: the invariants of the machine's state, silence, and "nothing else changed". -/

namespace Sys2Proof.Machine

open Fp

/-- `lo <= x <= hi` as values. -/
def between (lo x hi : F32) : Bool := fle lo x && fle x hi

/-- A value in [0, 1), as an LFO phase and its increment are (R25, R27). -/
def phaseOk (x : F32) : Bool := fle plusZero x && flt x (lit 1 1)

/-- The invariant of a store (R29) and of the list that holds its cells: capacity at least 3, cursor inside, canonical form, every
listed cell inside. -/
def storeOk (st : Store) : Bool :=
  decide (3 ≤ st.cap) && decide (st.wr < st.cap) && Memory.wf st.cells && st.cells.all (fun c => decide (c.1 < st.cap))

/-- The invariant of a smoother (R30): the countdown is at most `NR`, and a settled smoother holds its target. -/
def smootherOk (nr : Nat) (x : Smoother) : Bool := decide (x.cnt ≤ nr) && (x.cnt != 0 || x.cur == x.tgt)

/-- The invariant of the sequencer (R22, R24, R204): a block runs exactly while frames are left, and only a prepared block
renders. -/
def seqOk (s : State) : Bool := (s.seq.run == (s.seq.frames != 0#16)) && (!s.seq.run || s.seq.bypass || s.prep)

/-- All eight stores and the memory behind them are in order (R29). -/
def storesOk (s : State) : Bool :=
  storeOk s.pd.l && storeOk s.pd.r && storeOk s.str.l.ap.k1 && storeOk s.str.l.ap.k2 && storeOk s.str.l.ap.k3
    && storeOk s.str.r.ap.k1 && storeOk s.str.r.ap.k2 && storeOk s.str.r.ap.k3

/-- The structural invariant: stores, smoothers, sequencer (R22, R24, R25, R29, R30). -/
def wellFormedState (s : State) : Bool :=
  storesOk s && decide (1 ≤ s.consts.nr) && smootherOk s.consts.nr s.smMix && smootherOk s.consts.nr s.smDrive && seqOk s

/-- The integer registers fit the `IDX_W` bits R25, R26 and R29 give them: the capacities, `NR`, `PD_MAX`, the base delays and the
pre-delay. -/
def widthsOk (s : State) : Bool :=
  [s.pd.l.cap, s.pd.r.cap, s.str.l.ap.k1.cap, s.str.l.ap.k2.cap, s.str.l.ap.k3.cap, s.str.r.ap.k1.cap, s.str.r.ap.k2.cap,
    s.str.r.ap.k3.cap, s.consts.nr, s.consts.pdMax, s.consts.n.l.k1, s.consts.n.l.k2, s.consts.n.l.k3, s.consts.n.r.k1,
    s.consts.n.r.k2, s.consts.n.r.k3, s.coeffs.pdN].all (fun n => decide (n < 2 ^ Config.idxWidth))

/-- The numeric invariant: the sample rate, the LFO phases and increments, the allpass coefficient and the feedback gains keep to
the ranges R25 to R27 give them, and the integer registers to their widths. -/
def rangesOk (s : State) : Bool :=
  between Config.fsMin s.consts.fs Config.fsMax
    && phaseOk s.consts.inc.l && phaseOk s.consts.inc.r && phaseOk s.str.l.ph && phaseOk s.str.r.ph
    && between (lit 2 10) s.coeffs.apCoeff (lit 8 10)
    && between (lit 0 1) s.coeffs.fbGain.l (lit 95 100) && between (lit 0 1) s.coeffs.fbGain.r (lit 95 100)
    && widthsOk s

/-- The machine holds what a `PREPARE` computes from its sample rate, and stores of the capacities it sizes (R25, R202). -/
def preparedOk (s : State) : Bool :=
  let c := constantsFor Config.block s.consts.fs
  s.consts == c
    && s.pd.l.cap == c.pdMax + 2 && s.pd.r.cap == c.pdMax + 2
    && s.str.l.ap.k1.cap == c.n.l.k1 + 2 && s.str.l.ap.k2.cap == c.n.l.k2 + 2 && s.str.l.ap.k3.cap == c.n.l.k3 + floorI c.wMax + 4
    && s.str.r.ap.k1.cap == c.n.r.k1 + 2 && s.str.r.ap.k2.cap == c.n.r.k2 + 2 && s.str.r.ap.k3.cap == c.n.r.k3 + floorI c.wMax + 4

/-- The ranges that hold as long as no datapath operation is presented alone, which could put any operand into a coefficient (R25,
R26): the constants and capacities from the first `PREPARE` on, the damping cutoff and coefficient, and in every running block that
renders the wobble depth and the pre-delay. -/
def blockRangesOk (s : State) : Bool :=
  between Config.fsMin s.consts.fs Config.fsMax
    && (!s.prep || preparedOk s)
    && between (lit 2000 1) s.coeffs.lpCut (lit 16000 1) && flt plusZero s.coeffs.lpA && fle s.coeffs.lpA (lit 1 1)
    && (!s.seq.run || s.seq.bypass
      || (s.prep && between plusZero s.coeffs.wobDepth s.consts.wMax && decide (s.coeffs.pdN ≤ s.consts.pdMax)))

/-- No datapath operation is about to be presented alone. -/
def noRecords (s : State) : Bool :=
  s.agenda.all fun e =>
    match e with
    | .datapath _ => false
    | _ => true

/-- Every cell of a store holds a zero, and its capacity lets every read be made (R101, R107). -/
def storeSilent (minCap : Nat) (st : Store) : Bool :=
  decide (minCap ≤ st.cap) && decide (st.cap < 2 ^ Config.idxWidth) && st.cells.all (fun c => isZero c.2)

/-- A string whose signal state is all zeros. -/
def stringSilent (x : StringState) : Bool :=
  isZero x.fb && isZero x.lpz && storeSilent 3 x.ap.k1 && storeSilent 3 x.ap.k2 && storeSilent 4 x.ap.k3

/-- A smoother that has settled inside [0, 1]. -/
def settled (x : Smoother) : Bool := decide (x.cnt = 0) && between (lit 0 1) x.cur (lit 1 1)

/-- All signal state is zero, the smoothers have settled, and the coefficients are finite. -/
def silent (s : State) : Bool :=
  storeSilent 3 s.pd.l && storeSilent 3 s.pd.r && stringSilent s.str.l && stringSilent s.str.r
    && settled s.smMix && settled s.smDrive
    && finite s.coeffs.apCoeff && finite s.coeffs.lpA && finite s.coeffs.fbGain.l && finite s.coeffs.fbGain.r

/-- A string with its stores blanked, to compare the rest. -/
def blankString (x : StringState) : StringState :=
  { x with ap := { k1 := emptyStore 3, k2 := emptyStore 3, k3 := emptyStore 3 } }

/-- The machine with its eight stores blanked, to compare the rest. -/
def blankStores (s : State) : State :=
  { s with pd := { l := emptyStore 3, r := emptyStore 3 }, str := { l := blankString s.str.l, r := blankString s.str.r } }

/-- Two machines that differ in their stores at most. -/
abbrev sameButStores (s t : State) : Prop := blankStores t = blankStores s

/-- Only one store may differ. -/
abbrev sameButStore (id : StoreId) (s t : State) : Prop :=
  sameButStores s t ∧ ∀ id', id' ≠ id → t.store id' = s.store id'

/-- Runs instructions one after the other; none when one of them does not answer a next state. -/
def execAll : List Instr → State → Option State
  | [], s => some s
  | i :: is, s =>
    match exec i s with
    | .next t => execAll is t
    | _ => none

/-- Two machines with the same constants, signal state and `PREP`: all that `PREPARE` sets. -/
abbrev sameSignalState (s t : State) : Prop :=
  s.consts = t.consts ∧ s.pd = t.pd ∧ s.str = t.str ∧ s.smMix = t.smMix ∧ s.smDrive = t.smDrive ∧ s.prep = t.prep

end Sys2Proof.Machine
end

