-- ==== Sys2Proof/Certificates/Slice0/Obligations.lean ====
section
/-! DEFINITION. The statements for the provers, each a rule of `spec/` or rests on one. -/

open Sys2Proof Sys2Proof.Machine Sys2Proof.Fp

/-! ### Encodings -/

/-- R91: the worked encodings. -/
def Obligations.WorkedEncodings : Prop :=
  encode (.process true 512#16) = [0x30010200#32] ∧ decodeTableWord 32 0x30010200 = some (.process true 512#16) ∧
  encode (.process false 0#16) = [0x30000000#32] ∧ decodeTableWord 32 0x30000000 = some (.process false 0#16) ∧
  decodeTableWord 32 0x1ABCDEF0 = some .prepare ∧
  decodeTableWord 32 0x40000000 = some .nop ∧
  stmtEvents (.setp .decay { negative := false, num := 2, den := 1 }) = [.write 0x24 4 0x40000000#32] ∧
  stmtEvents (.setfs { negative := false, num := 44100, den := 1 }) =
    [.write 0x08 4 0x00000000#32, .write 0x0C 4 0x40E58880#32] ∧
  stmtEvents (.setfs { negative := false, num := 48000, den := 1 }) =
    [.write 0x08 4 0x00000000#32, .write 0x0C 4 0x40E77000#32]

/-- R83: a word selects a row of the opcode map by its mask and match; `PROCESS` reads its two fields (R82). -/
def Obligations.CommandWordSelectsItsRow : Prop :=
  ∀ w : Word,
    (w &&& 0xF0000000#32 = 0x00000000#32 → decodeCommand w = .nop) ∧
    (w &&& 0xF0000000#32 = 0x10000000#32 → decodeCommand w = .prepare) ∧
    (w &&& 0xF0000000#32 = 0x20000000#32 → decodeCommand w = .reset) ∧
    (w &&& 0xF0000000#32 = 0x30000000#32 → decodeCommand w = .process (w.getLsbD 16) (w.extractLsb' 0 16))

/-- R84, R201: `NOP` and every reserved `OP` change nothing. -/
def Obligations.NopAndReservedChangeNothing : Prop :=
  ∀ (s : State) (w : Word), s.seq.run = false →
    exec .nop s = .next s ∧
    (3 < (w >>> 28).toNat → exec (decodeCommand w) s = .next s) ∧
    ((w >>> 28).toNat = 0 → exec (decodeCommand w) s = .next s)

/-- Every well-formed instruction decodes from its encoding, with every operand at every value the encoding admits. The operand
words of datapath operations are the model's own (log entry 11). -/
def Obligations.DecodeInvertsEncode : Prop :=
  ∀ i : Instr, wellFormed i = true → decode (formatOf i) (encode i) = .ok i

/-- A datapath record that decodes is the encoding of a well-formed instruction, and so of only one (log entry 11). -/
def Obligations.EncodeInvertsDecodeOfRecords : Prop :=
  ∀ (ws : List Word) (i : Instr), decode .uop ws = .ok i → encode i = ws ∧ wellFormed i = true ∧ formatOf i = .uop

/-! ### Steps -/

/-- A word written to `CMD` is decoded and executed by that very step, with the event taken off the agenda (R65, R262). -/
def Obligations.StepRunsTheCommandWord : Prop :=
  ∀ (s : State) (w : Word) (rest : List Event), s.agenda = .write 0x00 4 w :: rest →
    step s = exec (decodeCommand w) { s with agenda := rest }

/-- A datapath record presented on its own is decoded and executed by that very step (log entry 11), and `withFetchWord`
presents the instruction that `decodeTableWord` reads. -/
def Obligations.StepRunsTheDecodedInstruction : Prop :=
  (∀ (s : State) (ws : List Word) (i : Instr) (rest : List Event), s.agenda = .datapath ws :: rest →
    decode .uop ws = .ok i → step s = exec i { s with agenda := rest }) ∧
  (∀ (s : State) (nbits w : Nat) (i : Instr), decodeTableWord nbits w = some i → step (s.withFetchWord nbits w) = exec i s)

/-- R204, R262: while a prepared block runs and input is there, the datapath's turn runs `FRAME` once, counts the frame down and
ends the block with the last one. -/
def Obligations.RunningBlockRunsFrame : Prop :=
  ∀ (s : State) (f : Frame) (rest : List Frame), s.seq.run = true → s.seq.bypass = false → s.seq.frames ≠ 0#16 →
    s.inQ = f :: rest → s.agenda = [] →
    ∃ t, exec .frame s = .next t ∧
      step s = .next { t with seq := { t.seq with frames := s.seq.frames - 1#16, run := s.seq.frames != 1#16 } }

/-- R206: the frame of a block accepted before any `PREPARE` copies its words bit for bit, the right one zero in a mono block,
and touches nothing but the streams and the sequencer's count. -/
def Obligations.BypassFrameCopiesInput : Prop :=
  ∀ (s : State) (f : Frame) (rest : List Frame), s.seq.run = true → s.seq.bypass = true → s.seq.frames ≠ 0#16 →
    s.inQ = f :: rest → s.agenda = [] →
    step s = .next
      { s with
        inQ := rest
        outQ := s.outQ ++ [if s.seq.stereo then f else { l := f.l, r := 0x00000000#32 }]
        seq := { s.seq with frames := s.seq.frames - 1#16, run := s.seq.frames != 1#16 } }

/-- R204: a `PROCESS` that finds its `NFRAMES` input frames runs to completion: it consumes exactly those frames, produces as many
after what was there, and leaves the block idle, whatever the operands. Constants, `PREP`, the rate registers and what the model
keeps of the host stay; the parameter registers change by what landed during the latch only (R67), and before any `PREPARE`
nothing but the streams and the sequencer changes (R206). -/
def Obligations.BlockRunsToCompletion : Prop :=
  ∀ (s : State) (stereo : Bool) (n : BitVec 16) (fs rest : List Frame), s.seq.run = false → s.agenda = [] →
    s.inQ = fs ++ rest → fs.length = n.toNat →
    ∃ s0 t : State, ∃ produced : List Frame, exec (.process stereo n) s = .next s0 ∧
      Host.Core.run Sys2Proof.core n.toNat s0 = .next t ∧
      produced.length = n.toNat ∧
      t = { s with
        inQ := rest
        outQ := s.outQ ++ produced
        seq := { run := false, frames := 0#16, stereo := stereo, bypass := !s.prep }
        host := t.host
        coeffs := t.coeffs
        pd := t.pd
        str := t.str
        smMix := t.smMix
        smDrive := t.smDrive
        racing := if s.prep then [] else s.racing
        draws := t.draws } ∧
      t.host.fsLo = s.host.fsLo ∧ t.host.fsHi = s.host.fsHi ∧ t.host.maxBlk = s.host.maxBlk ∧
      (s.racing = [] → t.host = s.host ∧ t.draws = s.draws) ∧
      (s.prep = true → ∀ p, (heldDuringLatch s p).getLast? = some (t.host.param p)) ∧
      (s.prep = false → t.host = s.host ∧ t.coeffs = s.coeffs ∧ t.pd = s.pd ∧ t.str = s.str ∧ t.smMix = s.smMix ∧
        t.smDrive = s.smDrive ∧ t.draws = s.draws)

/-- R264: with constant parameters the output and the end state do not depend on how the frames are cut into blocks, before any
`PREPARE` as after it. `processEvents` is what log entry 21 makes of one `PROCESS` of a host program. -/
def Obligations.BlockSplittingIsInaudible : Prop :=
  ∀ (s : State) (stereo : Bool) (a b : BitVec 16), s.seq.run = false → (s.prep = true → s.racing = []) →
    a.toNat + b.toNat < 2 ^ 16 → a.toNat + b.toNat ≤ s.inQ.length →
    Host.Core.run Sys2Proof.core (1 + (a + b).toNat)
        { s with agenda := processEvents stereo (a + b) } =
      Host.Core.run Sys2Proof.core (1 + a.toNat + (1 + b.toNat))
        { s with agenda := processEvents stereo a ++ processEvents stereo b }

/-! ### The host port -/

/-- R21: what a read of each word of the register map returns; a read changes nothing but the reader's own note (R65). -/
def Obligations.HostReadsFollowTheMap : Prop :=
  ∀ (s : State) (o : Nat) (rest : List Event), s.agenda = .read o 4 :: rest → o < 0x40 → o % 4 = 0 →
    ∃ w : Word, step s = .next { s with agenda := rest, readLog := s.readLog ++ [w] } ∧
      (o = 0x00 → w = 0#32) ∧
      (o = 0x04 → w.getLsbD 0 = s.prep ∧ w.getLsbD 1 = s.seq.run ∧ w.extractLsb' 2 30 = 0#30) ∧
      (o = 0x08 → w = s.host.fsLo) ∧ (o = 0x0C → w = s.host.fsHi) ∧ (o = 0x10 → w = s.host.maxBlk) ∧
      (o = 0x14 ∨ o = 0x18 ∨ o = 0x1C ∨ o = 0x3C → w = 0#32) ∧
      (o = 0x20 → w = s.host.pMix) ∧ (o = 0x24 → w = s.host.pDecay) ∧ (o = 0x28 → w = s.host.pTension) ∧
      (o = 0x2C → w = s.host.pPredelay) ∧ (o = 0x30 → w = s.host.pDamping) ∧ (o = 0x34 → w = s.host.pWobble) ∧
      (o = 0x38 → w = s.host.pDrive)

/-- R21, R65: a write of a word other than `CMD` stores it where the map says read/write, is ignored elsewhere, and has no other
effect, whether or not a block runs (R261). -/
def Obligations.HostWritesFollowTheMap : Prop :=
  ∀ (s : State) (o : Nat) (w : Word) (rest : List Event), s.agenda = .write o 4 w :: rest → o < 0x40 → o % 4 = 0 → o ≠ 0x00 →
    ∃ h : HostRegs, step s = .next { s with agenda := rest, host := h } ∧
      h.fsLo = (if o = 0x08 then w else s.host.fsLo) ∧ h.fsHi = (if o = 0x0C then w else s.host.fsHi) ∧
      h.maxBlk = (if o = 0x10 then w else s.host.maxBlk) ∧ h.pMix = (if o = 0x20 then w else s.host.pMix) ∧
      h.pDecay = (if o = 0x24 then w else s.host.pDecay) ∧ h.pTension = (if o = 0x28 then w else s.host.pTension) ∧
      h.pPredelay = (if o = 0x2C then w else s.host.pPredelay) ∧ h.pDamping = (if o = 0x30 then w else s.host.pDamping) ∧
      h.pWobble = (if o = 0x34 then w else s.host.pWobble) ∧ h.pDrive = (if o = 0x38 then w else s.host.pDrive)

/-- R62: an access that is misaligned, narrower or wider than a word, or at 0x40 or above is outside the interface; the model
refuses it, as R62 says a model does. -/
def Obligations.AccessOutsideTheMapRefused : Prop :=
  ∀ (s : State) (o size : Nat) (w : Word) (rest : List Event), (size ≠ 4 ∨ o % 4 ≠ 0 ∨ 0x40 ≤ o) →
    (s.agenda = .read o size :: rest → step s = .refused (.accessOutsideInterface o size)) ∧
    (s.agenda = .write o size w :: rest → step s = .refused (.accessOutsideInterface o size))

/-- R260: a write to `CMD` while a block runs is refused, whatever the word. -/
def Obligations.CommandWhileRunningRefused : Prop :=
  ∀ (s : State) (w : Word) (rest : List Event), s.agenda = .write 0x00 4 w :: rest → s.seq.run = true →
    step s = .refused .commandWhileRunning

/-! ### `PREPARE` and `RESET` -/

/-- R202: what `PREPARE` computes and leaves, with the formulas of the rule; the registers, the coefficients, the sequencer and the
streams stay. -/
def Obligations.PrepareSizesAndClears : Prop :=
  ∀ s : State, s.seq.run = false → ∃ t : State, exec .prepare s = .next t ∧
    (let fs := clamp (cvt64 (BitVec.ofNat 64 (s.host.fsHi.toNat * 2 ^ 32 + s.host.fsLo.toNat))) (lit 8000 1) (lit 192000 1)
     t.consts.fs = fs ∧
     t.consts.nr = max 1 (floorI (fdiv fs (lit 100 1))) ∧
     t.consts.pdMax = max 1 (floorI (fdiv (fmul (lit 100 1) fs) (lit 1000 1))) ∧
     t.consts.wMax = fdiv (fmul (lit 3 1) fs) (lit 1000 1) ∧
     (∀ x k, (t.consts.n.get x).get k = max 1 (floorI (fmul (Config.tuning.base x k) fs))) ∧
     (∀ x, t.consts.inc.get x = fdiv (Config.tuning.rate x) fs)) ∧
    (∀ c, (t.store (.pd c)).cap = t.consts.pdMax + 2) ∧
    (∀ x, (t.store (.ap x .k1)).cap = (t.consts.n.get x).k1 + 2 ∧ (t.store (.ap x .k2)).cap = (t.consts.n.get x).k2 + 2 ∧
      (t.store (.ap x .k3)).cap = (t.consts.n.get x).k3 + floorI t.consts.wMax + 4) ∧
    (∀ id a, (t.store id).wr = 0 ∧ Memory.read (t.store id).cells a = plusZero) ∧
    (∀ x, (t.str.get x).fb = plusZero ∧ (t.str.get x).lpz = plusZero ∧ (t.str.get x).ph = plusZero) ∧
    t.smMix = { cur := clamp s.host.pMix plusZero (lit 1 1), tgt := clamp s.host.pMix plusZero (lit 1 1), step := plusZero, cnt := 0 } ∧
    t.smDrive = { cur := clamp s.host.pDrive plusZero (lit 1 1), tgt := clamp s.host.pDrive plusZero (lit 1 1), step := plusZero, cnt := 0 } ∧
    t.prep = true ∧
    t = { s with consts := t.consts, pd := t.pd, str := t.str, smMix := t.smMix, smDrive := t.smDrive, prep := true }

/-- R202: each `PREPARE` discards all signal state: what it leaves depends on the host registers alone, so that issued twice it
gives the state it gives once. -/
def Obligations.PrepareForgetsThePast : Prop :=
  ∀ s s' t t' : State, s.host = s'.host → exec .prepare s = .next t → exec .prepare s' = .next t' →
    sameSignalState t t' ∧ exec .prepare t = .next t

/-- R202, R14: the sample rate `PREPARE` takes lies in [`FS_MIN`, `FS_MAX`] for every word pair, NaN and infinities included, and
every capacity and the ramp length fit their 16 bits (R252). -/
def Obligations.PrepareAcceptsEveryRate : Prop :=
  ∀ s t : State, exec .prepare s = .next t →
    between (lit 8000 1) t.consts.fs (lit 192000 1) = true ∧
    80 ≤ t.consts.nr ∧ t.consts.nr ≤ 1920 ∧ 800 ≤ t.consts.pdMax ∧ t.consts.pdMax ≤ 19200 ∧
    (∀ x, phaseOk (t.consts.inc.get x) = true) ∧
    ∀ id, 3 ≤ (t.store id).cap ∧ (t.store id).cap < 2 ^ 16

/-- R203: `RESET` clears the eight stores, the feedback values, the filter states and the phases and seeds the smoothers, keeping
capacities, constants and coefficients; before any `PREPARE` it does nothing; twice is as once. -/
def Obligations.ResetClearsSignalState : Prop :=
  ∀ s : State, s.seq.run = false →
    (s.prep = false → exec .reset s = .next s) ∧
    (s.prep = true → ∃ t : State, exec .reset s = .next t ∧
      (∀ id a, (t.store id).cap = (s.store id).cap ∧ (t.store id).wr = 0 ∧ Memory.read (t.store id).cells a = plusZero) ∧
      (∀ x, (t.str.get x).fb = plusZero ∧ (t.str.get x).lpz = plusZero ∧ (t.str.get x).ph = plusZero) ∧
      t.smMix = { cur := clamp s.host.pMix plusZero (lit 1 1), tgt := clamp s.host.pMix plusZero (lit 1 1), step := plusZero, cnt := 0 } ∧
      t.smDrive = { cur := clamp s.host.pDrive plusZero (lit 1 1), tgt := clamp s.host.pDrive plusZero (lit 1 1), step := plusZero, cnt := 0 } ∧
      t = { s with pd := t.pd, str := t.str, smMix := t.smMix, smDrive := t.smDrive } ∧
      exec .reset t = .next t)

/-- R88, R202, R203: `PREPARE` computes its constants, zeroes the feedback values, the filter states and the phases, runs `RB.PREP`
on the eight stores and `SM.SEED` twice, and sets `PREP`; `RESET` zeroes the same values and runs `RB.RESET` on the eight stores and
`SM.SEED` twice: the whole machine they leave is the one that these operations, run as instructions, leave. -/
def Obligations.PrepareAndResetRunTheirSchedule : Prop :=
  ∀ s t : State,
    (let quiet : Pair (StringState) :=
      { l := { s.str.l with fb := plusZero, lpz := plusZero, ph := plusZero }
        r := { s.str.r with fb := plusZero, lpz := plusZero, ph := plusZero } }
     (exec .prepare s = .next t →
      ∃ u, execAll
        [.rbPrep (.pd .c0) t.consts.pdMax .int, .rbPrep (.pd .c1) t.consts.pdMax .int,
          .rbPrep (.ap .L .k1) t.consts.n.l.k1 .int, .rbPrep (.ap .L .k2) t.consts.n.l.k2 .int,
          .rbPrep (.ap .L .k3) (t.consts.n.l.k3 + floorI t.consts.wMax + 1) .frac,
          .rbPrep (.ap .R .k1) t.consts.n.r.k1 .int, .rbPrep (.ap .R .k2) t.consts.n.r.k2 .int,
          .rbPrep (.ap .R .k3) (t.consts.n.r.k3 + floorI t.consts.wMax + 1) .frac,
          .smSeed .mix (clamp s.host.pMix plusZero (lit 1 1)), .smSeed .drive (clamp s.host.pDrive plusZero (lit 1 1))]
          { s with consts := t.consts, str := quiet } = some u ∧
        t = { u with prep := true }) ∧
     (exec .reset s = .next t → s.prep = true →
      execAll
        [.rbReset (.pd .c0), .rbReset (.pd .c1), .rbReset (.ap .L .k1), .rbReset (.ap .L .k2), .rbReset (.ap .L .k3),
          .rbReset (.ap .R .k1), .rbReset (.ap .R .k2), .rbReset (.ap .R .k3),
          .smSeed .mix (clamp s.host.pMix plusZero (lit 1 1)), .smSeed .drive (clamp s.host.pDrive plusZero (lit 1 1))]
          { s with str := quiet } = some t))

/-! ### `PROCESS` and the latch -/

/-- R204: the acceptance of `PROCESS` sets up the sequencer; once prepared it runs the latch, before any `PREPARE` it marks the
block as bypass and reads and writes nothing else; a block of no frames does not run. -/
def Obligations.ProcessAcceptsABlock : Prop :=
  ∀ (s : State) (stereo : Bool) (n : BitVec 16), s.seq.run = false →
    (s.prep = false →
      exec (.process stereo n) s =
        .next { s with seq := { run := n != 0#16, frames := n, stereo := stereo, bypass := true } }) ∧
    (s.prep = true → ∃ t, exec .blkLatch s = .next t ∧
      exec (.process stereo n) s =
        .next { t with seq := { run := n != 0#16, frames := n, stereo := stereo, bypass := false } })

/-- R205, R172 to R176: with no write landing meanwhile, the latch writes the coefficient registers by the formulas of the mapper
and the smoothers' `tgt`, `cnt` and `step`, and nothing else. -/
def Obligations.LatchDerivesCoefficients : Prop :=
  ∀ s : State, s.racing = [] → ∃ t : State, exec .blkLatch s = .next t ∧
    t.coeffs.apCoeff = clamp (fadd (lit 3 10) (fmul (clamp s.host.pTension plusZero (lit 1 1)) (lit 45 100))) (lit 2 10) (lit 8 10) ∧
    t.coeffs.lpCut = fsub (lit 16000 1) (fmul (clamp s.host.pDamping plusZero (lit 1 1)) (lit 14000 1)) ∧
    t.coeffs.lpA = Config.functions.lpA t.coeffs.lpCut s.consts.fs ∧
    (∀ x, t.coeffs.fbGain.get x =
      clamp (Config.functions.pow10
        (fdiv (fmul (neg (lit 3 1)) (Config.loopTime x)) (clamp s.host.pDecay (lit 1 10) (lit 8 1)))) plusZero (lit 95 100)) ∧
    t.coeffs.wobDepth = fmul (clamp s.host.pWobble plusZero (lit 1 1)) s.consts.wMax ∧
    t.coeffs.pdN = floorI (clamp (fdiv (fmul (clamp s.host.pPredelay plusZero (lit 100 1)) s.consts.fs) (lit 1000 1))
      plusZero (itof s.consts.pdMax)) ∧
    t.smMix.cur = s.smMix.cur ∧ t.smDrive.cur = s.smDrive.cur ∧
    t = { s with coeffs := t.coeffs, smMix := t.smMix, smDrive := t.smDrive }

/-- R88, R205: the latch is `MAP.CLAMP` on the seven registers and then the mapper and smoother operations in the order of the rule,
each run as the instruction it is. -/
def Obligations.LatchRunsItsSchedule : Prop :=
  ∀ s : State, s.racing = [] → ∃ u : State, ∃ mixC decC tenC pdC dmpC wobC drvC : F32,
    exec (.mapClamp s.host.pMix s.host.pDecay s.host.pTension s.host.pPredelay s.host.pDamping s.host.pWobble s.host.pDrive) s =
      .next u ∧
    u.result = [mixC, decC, tenC, pdC, dmpC, wobC, drvC] ∧
    ∃ t : State, execAll [.mapAp tenC, .mapLp dmpC, .mapFb .L decC, .mapFb .R decC, .mapWob wobC, .mapPd pdC, .smSet .mix mixC,
        .smSet .drive drvC] s = some t ∧
      exec .blkLatch s = .next t

/-- R67: whatever lands while the latch runs, each snapshot is one of the values its register held meanwhile, the coefficients
follow from the snapshots, the registers end with what was last written, and nothing else changes but the coefficients and the
smoothers. Which value is taken is free (log entry 13). -/
def Obligations.LatchSnapshotsHeldValues : Prop :=
  ∀ s : State, ∃ w : Param → Word, (∀ p, w p ∈ heldDuringLatch s p) ∧
    ∃ t u : State, exec .blkLatch s = .next t ∧
      (let h : HostRegs :=
        { s.host with
          pMix := w .mix
          pDecay := w .decay
          pTension := w .tension
          pPredelay := w .predelay
          pDamping := w .damping
          pWobble := w .wobble
          pDrive := w .drive }
       exec .blkLatch { s with host := h, racing := [] } = .next u) ∧
      t.coeffs = u.coeffs ∧ t.smMix = u.smMix ∧ t.smDrive = u.smDrive ∧
      t = { s with
        host := t.host
        coeffs := t.coeffs
        smMix := t.smMix
        smDrive := t.smDrive
        racing := []
        draws := t.draws } ∧
      (∀ p, (heldDuringLatch s p).getLast? = some (t.host.param p)) ∧
      t.host.fsLo = s.host.fsLo ∧ t.host.fsHi = s.host.fsHi ∧ t.host.maxBlk = s.host.maxBlk

/-- R26: the ranges of the coefficient registers after the latch, for every machine that holds the constants of some `PREPARE`,
however long ago. -/
def Obligations.LatchKeepsCoefficientRanges : Prop :=
  ∀ s t : State, (∃ s0 p : State, exec .prepare s0 = .next p ∧ s.consts = p.consts) → exec .blkLatch s = .next t →
    between (lit 2 10) t.coeffs.apCoeff (lit 8 10) = true ∧
    between (lit 2000 1) t.coeffs.lpCut (lit 16000 1) = true ∧
    (flt plusZero t.coeffs.lpA = true ∧ fle t.coeffs.lpA (lit 1 1) = true) ∧
    (∀ x, between plusZero (t.coeffs.fbGain.get x) (lit 95 100) = true) ∧
    between plusZero t.coeffs.wobDepth t.consts.wMax = true ∧
    t.coeffs.pdN ≤ t.consts.pdMax

/-! ### Frames -/

/-- R210, R88: a frame takes one frame from `IN`, runs its operations in the order of the rule and pushes one frame to `OUT`. -/
def Obligations.FrameRunsItsSchedule : Prop :=
  ∀ (s : State) (f : Frame) (rest : List Frame), s.inQ = f :: rest →
    ∃ (t s1 s2 s3 s4 s5 s6 s7 s8 s9 : State) (xl xr m d gain wetL wetR outL outR : F32),
      exec (.inSan f.l) { s with inQ := rest } = .next s1 ∧ s1.result = [xl] ∧
      exec (.inSan f.r) s1 = .next s2 ∧ s2.result = [xr] ∧
      exec (.smNext .mix) s2 = .next s3 ∧ s3.result = [m] ∧
      exec (.smNext .drive) s3 = .next s4 ∧ s4.result = [d] ∧
      exec (.drvGain d) s4 = .next s5 ∧ s5.result = [gain] ∧
      exec (.strStep .L xl gain) s5 = .next s6 ∧ s6.result = [wetL] ∧
      exec (.strStep .R (if s.seq.stereo then xr else if Config.monoSource = .left then xl else plusZero) gain) s6 = .next s7 ∧
      s7.result = [wetR] ∧
      exec (.mixBlend xl wetL m) s7 = .next s8 ∧ s8.result = [outL] ∧
      exec (.mixBlend xr wetR m) s8 = .next s9 ∧ s9.result = [outR] ∧
      exec .frame s = .next t ∧
      t = { s9 with
        result := s.result
        outQ := s.outQ ++ [{ l := outL, r := if s.seq.stereo then outR else 0x00000000#32 }] }

/-- R263, R60: frames wait at `IN` in order: one that is supplied goes behind those already there, whatever the datapath does, and
changes nothing else. With no frame there `FRAME` waits: nothing changes and nothing is produced, and the block that is short of
input stays running. The datapath's turn among the host's acts is the turn it has when there are none, an idle datapath does
nothing, and a parameter write that is to land during the next latch is only noted (log entries 10 and 13). -/
def Obligations.FrameWaitsForInput : Prop :=
  ∀ s : State,
    (∀ f rest, s.agenda = .supply f :: rest → step s = .next { s with agenda := rest, inQ := s.inQ ++ [f] }) ∧
    (s.inQ = [] →
      exec .frame s = .next s ∧ (s.agenda = [] → s.seq.run = true → s.seq.frames ≠ 0#16 → step s = .next s)) ∧
    (s.agenda = [] → s.seq.run = false → step s = .next s) ∧
    (∀ rest, s.agenda = .turn :: rest → ∃ t : State, step { s with agenda := [] } = .next t ∧ t.agenda = [] ∧
      step s = .next { t with agenda := rest }) ∧
    (∀ p w rest, s.agenda = .duringLatch p w :: rest →
      step s = .next { s with agenda := rest, racing := s.racing ++ [(p, w)] })

/-- R211: in a mono block the second input word is ignored, the second output word is zero, and the right string still runs: its
pre-delay store moves on. -/
def Obligations.MonoBlockIgnoresRightInput : Prop :=
  ∀ (s t : State) (l r r' : Word) (rest : List Frame), s.seq.stereo = false → s.inQ = { l := l, r := r } :: rest →
    exec .frame s = .next t →
    exec .frame { s with inQ := { l := l, r := r' } :: rest } = .next t ∧
    (∃ o : Word, t.outQ = s.outQ ++ [{ l := o, r := 0x00000000#32 }]) ∧
    (t.store (.pd .c1)).wr = ((s.store (.pd .c1)).wr + 1) % (s.store (.pd .c1)).cap

/-- R67: no frame sees a parameter or rate register: frames of machines that differ only there are the same. -/
def Obligations.FrameIgnoresHostRegisters : Prop :=
  ∀ (s t : State) (h : HostRegs), exec .frame s = .next t →
    t.host = s.host ∧ exec .frame { s with host := h } = .next { t with host := h }

/-- R150, NFR's silence property: with all signal state zero, settled smoothers and a silent input frame, the output is silent and
all signal state stays zero, whatever the LFO does. -/
def Obligations.SilenceStaysSilent : Prop :=
  ∀ (s : State) (f : Frame) (rest : List Frame), silent s = true → s.inQ = f :: rest → isZero f.l = true → isZero f.r = true →
    ∃ (t : State) (o : Frame), exec .frame s = .next t ∧ silent t = true ∧ t.outQ = s.outQ ++ [o] ∧ isZero o.l = true ∧
      isZero o.r = true

/-! ### Delay stores -/

/-- R101: `RB.PREP` sizes a store, clears every cell and puts the cursor to 0; no other store and nothing else changes. A capacity
that its 16 bits cannot hold has no value in the rule: it is some capacity that R29 admits (log entry 26). -/
def Obligations.RbPrepSizesAndClears : Prop :=
  ∀ (s : State) (id : StoreId) (m : Nat) (h : Headroom), ∃ t : State, exec (.rbPrep id m h) s = .next t ∧
    (m + (if h = .int then 2 else 3) < 2 ^ 16 → (t.store id).cap = m + (if h = .int then 2 else 3)) ∧
    (t.store id).cap < 2 ^ 16 ∧ (1 ≤ m → 3 ≤ (t.store id).cap) ∧ (t.store id).wr = 0 ∧
    (∀ a, Memory.read (t.store id).cells a = plusZero) ∧ sameButStore id s t

/-- R102: `RB.RESET` clears every cell and the cursor and keeps the capacity; a second one changes nothing. -/
def Obligations.RbResetClears : Prop :=
  ∀ (s : State) (id : StoreId), ∃ t : State, exec (.rbReset id) s = .next t ∧
    (t.store id).cap = (s.store id).cap ∧ (t.store id).wr = 0 ∧ (∀ a, Memory.read (t.store id).cells a = plusZero) ∧
    sameButStore id s t ∧ exec (.rbReset id) t = .next t

/-- R103: `RB.WRITE` fills the cell at the cursor, whatever the value, moves the cursor on modulo the capacity, and leaves every
other cell, every other store and everything else; it keeps the store's invariant (R29). -/
def Obligations.RbWriteFillsCursorCell : Prop :=
  ∀ (s : State) (id : StoreId) (v : F32), storeOk (s.store id) = true → ∃ t : State, exec (.rbWrite id v) s = .next t ∧
    (∀ a, Memory.read (t.store id).cells a = if a = (s.store id).wr then v else Memory.read (s.store id).cells a) ∧
    (t.store id).wr = (if (s.store id).wr + 1 = (s.store id).cap then 0 else (s.store id).wr + 1) ∧
    (t.store id).cap = (s.store id).cap ∧ storeOk (t.store id) = true ∧ sameButStore id s t

/-- R106: `RB.RDI` returns the tap at the clamped delay, one nearer in the order `PRE`, and changes nothing but the result. -/
def Obligations.RbRdiReadsClampedLag : Prop :=
  ∀ (s : State) (id : StoreId) (d : Int) (ord : Order), 3 ≤ (s.store id).cap →
    (let st := s.store id
     let dc : Int := max 1 (min d (st.cap - 2))
     exec (.rbRdi id d ord) s = .next (s.withResult
      [match ord with
       | .post => Memory.read st.cells (((st.wr : Int) - 1 - dc) % st.cap).toNat
       | .pre => Memory.read st.cells (((st.wr : Int) - dc) % st.cap).toNat]))

/-- R107: `RB.RDF` interpolates between the lags below and above the clamped delay and changes nothing but the result. -/
def Obligations.RbRdfInterpolates : Prop :=
  ∀ (s : State) (id : StoreId) (d : F32) (ord : Order), 4 ≤ (s.store id).cap → (s.store id).cap < 2 ^ 16 →
    ∃ (i : Nat) (dc f : F32), dc = clamp d (itof 1) (itof ((s.store id).cap - 3)) ∧ i = floorI dc ∧ f = fsub dc (itof i) ∧
      1 ≤ i ∧ i ≤ (s.store id).cap - 3 ∧
      (let st := s.store id
       let at' (lag : Int) : F32 := Memory.read st.cells (((st.wr : Int) - (if ord = .post then 1 else 0) - lag) % st.cap).toNat
       exec (.rbRdf id d ord) s = .next (s.withResult [fadd (at' i) (fmul f (fsub (at' (i + 1)) (at' i)))]))

/-- R108: every index a read or write of a store forms lies in `0 .. C-1`, and the taps that the reads use reach `C-2` at most. -/
def Obligations.RingIndicesStayInBounds : Prop :=
  ∀ (st : Store), storeOk st = true →
    (∀ k : Int, tapIndex st k < st.cap) ∧ st.wr < st.cap ∧ (∀ v, (storeWrite st v).wr < st.cap) ∧
    (∀ (d : Int) (ord : Order), ∃ k : Nat, k ≤ st.cap - 2 ∧ storeReadInt st d ord = tap st k) ∧
    (∀ (d : F32) (ord : Order), 4 ≤ st.cap → st.cap < 2 ^ 16 → ∃ (k k' : Nat) (f : F32), k ≤ st.cap - 2 ∧ k' ≤ st.cap - 2 ∧
      storeReadFrac Config.block st d ord = fadd (tap st k) (fmul f (fsub (tap st k') (tap st k))))

/-- R104: after a store is cleared and written any number of times, `TAP(st, k)` is the value written `k` writes before the latest,
and the `+0` it was cleared to when there were not so many. -/
def Obligations.TapFindsWriteByAge : Prop :=
  ∀ (s : State) (id : StoreId) (m : Nat) (h : Headroom) (vs : List F32), 1 ≤ m →
    ∃ t : State, execAll (.rbPrep id m h :: vs.map (fun v => .rbWrite id v)) s = some t ∧
      ∀ k : Nat, k < (t.store id).cap → tap (t.store id) k = vs.reverse.getD k plusZero

/-! ### Allpass sections and the pre-delay line -/

/-- R120, R121: one `AP.PROC` reads the delayed value before it pushes, computes `v` and `y`, and pushes `v` at the cursor. -/
def Obligations.AllpassRecurrence : Prop :=
  ∀ (s : State) (x : Str) (k : Stage) (a : F32) (n : Int) (g : F32), storeOk (s.store (.ap x k)) = true →
    ∃ (r t : State) (vd v : F32), exec (.rbRdi (.ap x k) n .pre) s = .next r ∧ r.result = [vd] ∧
      v = fsub a (fmul g vd) ∧
      exec (.apProc x k a n g) s = .next t ∧ t.result = [fadd (fmul g v) vd] ∧
      (∀ c, Memory.read (t.store (.ap x k)).cells c =
        if c = (s.store (.ap x k)).wr then v else Memory.read (s.store (.ap x k)).cells c) ∧
      (t.store (.ap x k)).wr = ((s.store (.ap x k)).wr + 1) % (s.store (.ap x k)).cap ∧
      (t.store (.ap x k)).cap = (s.store (.ap x k)).cap ∧
      sameButStore (.ap x k) (s.withResult [fadd (fmul g v) vd]) t

/-- R122: `AP.PROCM` is the same recurrence on the interpolated read. -/
def Obligations.ModulatedAllpassRecurrence : Prop :=
  ∀ (s : State) (x : Str) (k : Stage) (a d g : F32), storeOk (s.store (.ap x k)) = true →
    ∃ (r t : State) (vd v : F32), exec (.rbRdf (.ap x k) d .pre) s = .next r ∧ r.result = [vd] ∧
      v = fsub a (fmul g vd) ∧
      exec (.apProcm x k a d g) s = .next t ∧ t.result = [fadd (fmul g v) vd] ∧
      (∀ c, Memory.read (t.store (.ap x k)).cells c =
        if c = (s.store (.ap x k)).wr then v else Memory.read (s.store (.ap x k)).cells c) ∧
      (t.store (.ap x k)).wr = ((s.store (.ap x k)).wr + 1) % (s.store (.ap x k)).cap ∧
      (t.store (.ap x k)).cap = (s.store (.ap x k)).cap ∧
      sameButStore (.ap x k) (s.withResult [fadd (fmul g v) vd]) t

/-- R131, R132: `PD.WRITE` is `RB.WRITE` and `PD.READ` is `RB.RDI` in the order `POST` on the channel's store; after any number of
writes `PD.READ` returns the sample of `clampi(n, 1, C - 2)` frames before the latest, `+0` when there were not so many: the read
comes after the write and never returns the latest sample. The capacity `C` of the line is `PD_MAX + 2` for every `PD_MAX` whose
capacity fits 16 bits, as all do that `PREPARE` computes. -/
def Obligations.PreDelayReturnsLaggedSample : Prop :=
  (∀ (s : State) (c : Chan) (x : F32) (n : Int), ∃ t u : State,
    exec (.pdWrite c x) s = .next t ∧ exec (.rbWrite (.pd c) x) s = .next t ∧
    exec (.pdRead c n) s = .next u ∧ exec (.rbRdi (.pd c) n .post) s = .next u) ∧
  ∀ (s : State) (c : Chan) (m : Nat) (xs : List F32) (n : Int), 1 ≤ m →
    ∃ t : State, execAll (.rbPrep (.pd c) m .int :: xs.map (fun x => .pdWrite c x)) s = some t ∧ sameButStore (.pd c) s t ∧
      (m + 2 < 2 ^ 16 → (t.store (.pd c)).cap = m + 2) ∧
      exec (.pdRead c n) t =
        .next (t.withResult [xs.reverse.getD (max 1 (min n (((t.store (.pd c)).cap : Int) - 2))).toNat plusZero])

/-! ### LFO, damping filter, feedback, string -/

/-- R141, R142: the stage-3 delay of a sample and the phase advance, which wraps at 1.0 and keeps the phase in [0, 1). -/
def Obligations.LfoModulatesAndWraps : Prop :=
  ∀ (s : State) (x : Str),
    exec (.lfoMod x) s = .next (s.withResult
      [fadd (itof ((s.consts.n.get x).k3))
        (fmul s.coeffs.wobDepth (Config.functions.sin (fmul Config.twoPi (s.str.get x).ph)))]) ∧
    ∃ t : State, exec (.lfoAdv x) s = .next t ∧
      (let p := fadd (s.str.get x).ph (s.consts.inc.get x)
       t = { s with str := s.str.set x { s.str.get x with ph := if flt p (lit 1 1) then p else fsub p (lit 1 1) } }) ∧
      (phaseOk (s.str.get x).ph = true → phaseOk (s.consts.inc.get x) = true → phaseOk (t.str.get x).ph = true)

/-- R145: the one-pole filter returns its next state, `z + a * (x - z)`, and writes nothing else. -/
def Obligations.DampingFilterStep : Prop :=
  ∀ (s : State) (x : Str) (v : F32),
    (let z := fadd (s.str.get x).lpz (fmul s.coeffs.lpA (fsub v (s.str.get x).lpz))
     exec (.lpProc x v) s = .next { s with str := s.str.set x { s.str.get x with lpz := z }, result := [z] })

/-- R147, R148: the feedback value is added to the driven sample; the filter's output times the feedback gain becomes the next
feedback value, of no greater magnitude than the output when the gain is in its range. -/
def Obligations.FeedbackSumAndUpdate : Prop :=
  ∀ (s : State) (x : Str) (v : F32),
    exec (.fbSum x v) s = .next (s.withResult [fadd v (s.str.get x).fb]) ∧
    exec (.fbUpd x v) s =
      .next { s with str := s.str.set x { s.str.get x with fb := fmul (s.coeffs.fbGain.get x) v } } ∧
    (between plusZero (s.coeffs.fbGain.get x) (lit 95 100) = true → finite v = true →
      mag (fmul (s.coeffs.fbGain.get x) v) ≤ mag v)

/-- R150, R88: `STR.STEP` is its operations run as the instructions they are, in the order of the rule, each fed with what the one
before returned; the wet value is the stage-3 output, before damping (R151). -/
def Obligations.StringStepRunsItsSchedule : Prop :=
  ∀ (s : State) (x : Str) (xin gain : F32),
    ∃ (t s1 s2 s3 s4 s5 s6 s7 s8 s9 s10 s11 : State) (xd xs u a1 a2 d3 a3 z : F32),
      exec (.pdWrite (if x = .L then .c0 else .c1) xin) s = .next s1 ∧
      exec (.pdRead (if x = .L then .c0 else .c1) s.coeffs.pdN) s1 = .next s2 ∧ s2.result = [xd] ∧
      exec (.drvShape xd gain) s2 = .next s3 ∧ s3.result = [xs] ∧
      exec (.fbSum x xs) s3 = .next s4 ∧ s4.result = [u] ∧
      exec (.apProc x .k1 u (s.consts.n.get x).k1 s.coeffs.apCoeff) s4 = .next s5 ∧ s5.result = [a1] ∧
      exec (.apProc x .k2 a1 (s.consts.n.get x).k2 s.coeffs.apCoeff) s5 = .next s6 ∧ s6.result = [a2] ∧
      exec (.lfoMod x) s6 = .next s7 ∧ s7.result = [d3] ∧
      exec (.apProcm x .k3 a2 d3 s.coeffs.apCoeff) s7 = .next s8 ∧ s8.result = [a3] ∧
      exec (.lpProc x a3) s8 = .next s9 ∧ s9.result = [z] ∧
      exec (.fbUpd x z) s9 = .next s10 ∧
      exec (.lfoAdv x) s10 = .next s11 ∧
      exec (.strStep x xin gain) s = .next t ∧ t = s11.withResult [a3]

/-- R69: the strings are independent lanes: a step of one touches nothing of the other, and the two steps of a frame give the same
machine in either order, up to which wet value was returned last. -/
def Obligations.StringsAreIndependent : Prop :=
  ∀ (s t u : State) (xl xr gain : F32), exec (.strStep .L xl gain) s = .next t → exec (.strStep .R xr gain) t = .next u →
    t.str.r = s.str.r ∧ t.pd.r = s.pd.r ∧ u.str.l = t.str.l ∧ u.pd.l = t.pd.l ∧ u.coeffs = s.coeffs ∧ u.consts = s.consts ∧
    ∃ t' u' : State, exec (.strStep .R xr gain) s = .next t' ∧ exec (.strStep .L xl gain) t' = .next u' ∧
      t'.result = u.result ∧ u'.result = t.result ∧ u = { u' with result := u.result }

/-! ### Drive stage -/

/-- R161: the gain of a drive value; in [1, 4] for a value in [0, 1], exactly 1 and 4 at the ends. -/
def Obligations.DriveGain : Prop :=
  (∀ (s : State) (d : F32), exec (.drvGain d) s = .next (s.withResult [fadd (lit 1 1) (fmul d (lit 3 1))])) ∧
  (∀ d : F32, between plusZero d (lit 1 1) = true → between (lit 1 1) (fadd (lit 1 1) (fmul d (lit 3 1))) (lit 4 1) = true) ∧
  (∀ s : State, exec (.drvGain plusZero) s = .next (s.withResult [lit 1 1])) ∧
  (∀ s : State, exec (.drvGain (lit 1 1)) s = .next (s.withResult [lit 4 1]))

/-- R162, R163: the shaped sample, whose magnitude is at most `1/gain`, and so at most 1, for every non-NaN sample and every gain in
[1, 4]; silence stays silence. -/
def Obligations.DriveShapeIsBounded : Prop :=
  (∀ (s : State) (x gain : F32),
    exec (.drvShape x gain) s = .next (s.withResult [fdiv (Config.functions.tanh (fmul x gain)) gain])) ∧
  (∀ (s t : State) (x gain y : F32), isNaN x = false → between (lit 1 1) gain (lit 4 1) = true →
    exec (.drvShape x gain) s = .next t → t.result = [y] →
    mag y ≤ mag (fdiv (lit 1 1) gain) ∧ mag (fdiv (lit 1 1) gain) ≤ mag (lit 1 1) ∧ (x = plusZero → y = plusZero))

/-! ### Mapper -/

/-- R171, R14: each parameter word is clamped into its domain, a NaN to the lower bound; a value inside stays. -/
def Obligations.MapClampKeepsDomains : Prop :=
  ∀ (s : State) (w1 w2 w3 w4 w5 w6 w7 : Word), ∃ c1 c2 c3 c4 c5 c6 c7 : F32,
    exec (.mapClamp w1 w2 w3 w4 w5 w6 w7) s = .next (s.withResult [c1, c2, c3, c4, c5, c6, c7]) ∧
    (∀ e ∈ [(w1, c1, lit 0 1, lit 1 1), (w2, c2, lit 1 10, lit 8 1), (w3, c3, lit 0 1, lit 1 1), (w4, c4, lit 0 1, lit 100 1),
        (w5, c5, lit 0 1, lit 1 1), (w6, c6, lit 0 1, lit 1 1), (w7, c7, lit 0 1, lit 1 1)],
      between e.2.2.1 e.2.1 e.2.2.2 = true ∧
      (isNaN e.1 = true → e.2.1 = e.2.2.1) ∧ (flt e.1 e.2.2.1 = true → e.2.1 = e.2.2.1) ∧
      (flt e.2.2.2 e.1 = true → e.2.1 = e.2.2.2) ∧ (between e.2.2.1 e.1 e.2.2.2 = true → e.2.1 = e.1))

/-- R172, R173: `MAP.AP` and `MAP.FB` write one register each, clamped into [0.2, 0.8] and [0, 0.95] whatever the operand. -/
def Obligations.MapApAndFbStayInRange : Prop :=
  ∀ (s : State) (x : Str) (v : F32),
    (let a := clamp (fadd (lit 3 10) (fmul v (lit 45 100))) (lit 2 10) (lit 8 10)
     exec (.mapAp v) s = .next { s with coeffs := { s.coeffs with apCoeff := a } } ∧ between (lit 2 10) a (lit 8 10) = true) ∧
    (let g := clamp (Config.functions.pow10 (fdiv (fmul (neg (lit 3 1)) (Config.loopTime x)) v)) (lit 0 1) (lit 95 100)
     exec (.mapFb x v) s = .next { s with coeffs := { s.coeffs with fbGain := s.coeffs.fbGain.set x g } } ∧
       between (lit 0 1) g (lit 95 100) = true)

/-- R173: the feedback gain does not fall when the decay time, inside its domain, grows. -/
def Obligations.LongerDecayNeverLowersFeedback : Prop :=
  ∀ (s t t' : State) (x : Str) (v v' : F32), between (lit 1 10) v (lit 8 1) = true → between (lit 1 10) v' (lit 8 1) = true →
    fle v v' = true → exec (.mapFb x v) s = .next t → exec (.mapFb x v') s = .next t' →
    fle (t.coeffs.fbGain.get x) (t'.coeffs.fbGain.get x) = true

/-- R174, R175, R176: the damping cutoff and coefficient, the wobble depth and the pre-delay; the pre-delay is at most `PD_MAX`. -/
def Obligations.MapLpWobPdWriteTheirRegisters : Prop :=
  ∀ (s : State) (v : F32),
    exec (.mapLp v) s = .next { s with coeffs := { s.coeffs with
      lpCut := fsub (lit 16000 1) (fmul v (lit 14000 1)),
      lpA := Config.functions.lpA (fsub (lit 16000 1) (fmul v (lit 14000 1))) s.consts.fs } } ∧
    exec (.mapWob v) s = .next { s with coeffs := { s.coeffs with wobDepth := fmul v s.consts.wMax } } ∧
    ∃ n : Nat, exec (.mapPd v) s = .next { s with coeffs := { s.coeffs with pdN := n } } ∧
      n = floorI (clamp (fdiv (fmul v s.consts.fs) (lit 1000 1)) (lit 0 1) (itof s.consts.pdMax)) ∧
      (s.consts.pdMax < 2 ^ 16 → n ≤ s.consts.pdMax)

/-! ### Smoothers -/

/-- R191, R193: seeding settles the smoother; an equal target changes nothing, another starts a ramp of `NR` samples from the
current value, which does not jump. The other smoother and everything else stay. -/
def Obligations.SmootherSeedAndSet : Prop :=
  ∀ (s : State) (p : SmootherId) (v : F32),
    exec (.smSeed p v) s = .next (s.setSmoother p { cur := v, tgt := v, step := plusZero, cnt := 0 }) ∧
    (feq v (s.smoother p).tgt = true → exec (.smSet p v) s = .next s) ∧
    (feq v (s.smoother p).tgt = false → exec (.smSet p v) s = .next (s.setSmoother p
      { cur := (s.smoother p).cur, tgt := v, step := fdiv (fsub v (s.smoother p).cur) (itof s.consts.nr), cnt := s.consts.nr }))

/-- R194: `SM.NEXT` on a settled smoother, on the last step of a ramp, and before it. -/
def Obligations.SmootherNext : Prop :=
  ∀ (s : State) (p : SmootherId),
    ((s.smoother p).cnt = 0 → exec (.smNext p) s = .next (s.withResult [(s.smoother p).cur])) ∧
    ((s.smoother p).cnt = 1 → exec (.smNext p) s =
      .next ((s.setSmoother p { s.smoother p with cnt := 0, cur := (s.smoother p).tgt }).withResult [(s.smoother p).tgt])) ∧
    (∀ n, (s.smoother p).cnt = n + 2 → exec (.smNext p) s =
      .next ((s.setSmoother p { s.smoother p with cnt := n + 1, cur := fadd (s.smoother p).cur (s.smoother p).step }).withResult
        [fadd (s.smoother p).cur (s.smoother p).step]))

/-- R194: after a new target, the `NR`-th call returns the target exactly, whatever the additions rounded, and every later call
returns it too. -/
def Obligations.RampArrivesExactly : Prop :=
  ∀ (s : State) (p : SmootherId) (v : F32) (extra : Nat), 1 ≤ s.consts.nr → feq v (s.smoother p).tgt = false →
    ∃ t : State, execAll (.smSet p v :: List.replicate (s.consts.nr + extra) (.smNext p)) s = some t ∧
      t.result = [v] ∧ (t.smoother p).cur = v ∧ (t.smoother p).tgt = v ∧ (t.smoother p).cnt = 0

/-! ### Renderer leaves -/

/-- R208: a non-finite input word becomes `+0`, a finite one passes unchanged. -/
def Obligations.InputIsSanitised : Prop :=
  ∀ (s : State) (w : Word),
    (finite w = true → exec (.inSan w) s = .next (s.withResult [w])) ∧
    (finite w = false → exec (.inSan w) s = .next (s.withResult [plusZero]))

/-- R209: the blend, which at `m = +0` is the dry sample and at `m = 1` the wet one, as values, for finite samples. -/
def Obligations.MixBlendEndPoints : Prop :=
  (∀ (s : State) (dry wet m : F32),
    exec (.mixBlend dry wet m) s = .next (s.withResult [fadd (fmul dry (fsub (lit 1 1) m)) (fmul wet m)])) ∧
  (∀ (s t : State) (dry wet y : F32), finite dry = true → finite wet = true →
    (exec (.mixBlend dry wet plusZero) s = .next t → t.result = [y] → feq y dry = true) ∧
    (exec (.mixBlend dry wet (lit 1 1)) s = .next t → t.result = [y] → feq y wet = true))

/-! ### The machine as a whole -/

/-- R22, R24, R25, R29, R30: every step keeps the invariant of the stores, the memory behind them, the smoothers and the sequencer. -/
def Obligations.StepKeepsWellFormedState : Prop :=
  ∀ s t : State, wellFormedState s = true → step s = .next t → wellFormedState t = true

/-- R25 to R27, R29: every step keeps the sample rate, the LFO phases and increments, the allpass coefficient and the feedback gains
in their ranges, under binary32 rounding, and every capacity, `NR`, `PD_MAX`, the base delays and the pre-delay inside 16 bits. As long
as no datapath operation is presented alone, the constants and capacities are those of the last `PREPARE`, the damping cutoff and
coefficient keep to their ranges, and so do the wobble depth and the pre-delay in every running block that renders. -/
def Obligations.StepKeepsRanges : Prop :=
  (∀ s t : State, rangesOk s = true → step s = .next t → rangesOk t = true) ∧
  (∀ s t : State, noRecords s = true → blockRangesOk s = true → step s = .next t → noRecords t = true ∧ blockRangesOk t = true)

/-- The invariants hold after power-on. The values they speak of at power-on are the model's choice (log entry 7). -/
def Obligations.InvariantsHoldAtReset : Prop :=
  wellFormedState State.reset = true ∧ rangesOk State.reset = true ∧ noRecords State.reset = true ∧
    blockRangesOk State.reset = true

/-- R21, R32: the host registers, `STATUS` and the sequencer after power-on. -/
def Obligations.PowerOnRegisters : Prop :=
  State.reset.host =
    { fsLo := 0x00000000#32
      fsHi := 0x40E58880#32
      maxBlk := 0x00000000#32
      pMix := 0x3F000000#32
      pDecay := 0x40000000#32
      pTension := 0x3F000000#32
      pPredelay := 0x41200000#32
      pDamping := 0x3ECCCCCD#32
      pWobble := 0x3E99999A#32
      pDrive := 0x3E4CCCCD#32 } ∧
  State.reset.prep = false ∧ State.reset.seq = { run := false, frames := 0#16, stereo := false, bypass := false }
end

