-- ==== Sys2Proof/Laws/State.lean ====
section
/-! SUPPORT. The small lemmas of State: what each update leaves in each field. With them no proof unfolds an update. -/

namespace Sys2Proof.Machine

/-! ### Pairs and stages -/

@[simp] theorem Pair.get_L {α : Type} (p : Pair α) : p.get .L = p.l := rfl
@[simp] theorem Pair.get_R {α : Type} (p : Pair α) : p.get .R = p.r := rfl
@[simp] theorem Pair.set_L_l {α : Type} (p : Pair α) (x : α) : (p.set .L x).l = x := rfl
@[simp] theorem Pair.set_L_r {α : Type} (p : Pair α) (x : α) : (p.set .L x).r = p.r := rfl
@[simp] theorem Pair.set_R_l {α : Type} (p : Pair α) (x : α) : (p.set .R x).l = p.l := rfl
@[simp] theorem Pair.set_R_r {α : Type} (p : Pair α) (x : α) : (p.set .R x).r = x := rfl

@[simp] theorem Pair.get_set_self {α : Type} (p : Pair α) (s : Str) (x : α) : (p.set s x).get s = x := by cases s <;> rfl

theorem Pair.get_set_ne {α : Type} (p : Pair α) {s s' : Str} (x : α) (h : s' ≠ s) : (p.set s x).get s' = p.get s' := by
  cases s <;> cases s' <;> first | rfl | exact absurd rfl h

@[simp] theorem Pair.set_get_self {α : Type} (p : Pair α) (s : Str) : p.set s (p.get s) = p := by cases s <;> rfl

@[simp] theorem Pair.set_set {α : Type} (p : Pair α) (s : Str) (x y : α) : (p.set s x).set s y = p.set s y := by
  cases s <;> rfl

@[simp] theorem Stages.get_k1 {α : Type} (p : Stages α) : p.get .k1 = p.k1 := rfl
@[simp] theorem Stages.get_k2 {α : Type} (p : Stages α) : p.get .k2 = p.k2 := rfl
@[simp] theorem Stages.get_k3 {α : Type} (p : Stages α) : p.get .k3 = p.k3 := rfl

@[simp] theorem Stages.get_set_self {α : Type} (p : Stages α) (k : Stage) (x : α) : (p.set k x).get k = x := by
  cases k <;> rfl

theorem Stages.get_set_ne {α : Type} (p : Stages α) {k k' : Stage} (x : α) (h : k' ≠ k) : (p.set k x).get k' = p.get k' := by
  cases k <;> cases k' <;> first | rfl | exact absurd rfl h

@[simp] theorem Stages.set_set {α : Type} (p : Stages α) (k : Stage) (x y : α) : (p.set k x).set k y = p.set k y := by
  cases k <;> rfl

@[simp] theorem strOf_chanOf (s : Str) : strOf (chanOf s) = s := by cases s <;> rfl
@[simp] theorem chanOf_strOf (c : Chan) : chanOf (strOf c) = c := by cases c <;> rfl

variable {S : Type}

/-! ### `setStore` -/

@[simp] theorem State.setStore_host (σ : State S) (id : StoreId) (st : Store S) : (σ.setStore id st).host = σ.host := by cases id <;> rfl
@[simp] theorem State.setStore_prep (σ : State S) (id : StoreId) (st : Store S) : (σ.setStore id st).prep = σ.prep := by cases id <;> rfl
@[simp] theorem State.setStore_seq (σ : State S) (id : StoreId) (st : Store S) : (σ.setStore id st).seq = σ.seq := by cases id <;> rfl
@[simp] theorem State.setStore_consts (σ : State S) (id : StoreId) (st : Store S) : (σ.setStore id st).consts = σ.consts := by cases id <;> rfl
@[simp] theorem State.setStore_coeffs (σ : State S) (id : StoreId) (st : Store S) : (σ.setStore id st).coeffs = σ.coeffs := by cases id <;> rfl
@[simp] theorem State.setStore_smMix (σ : State S) (id : StoreId) (st : Store S) : (σ.setStore id st).smMix = σ.smMix := by cases id <;> rfl
@[simp] theorem State.setStore_smDrive (σ : State S) (id : StoreId) (st : Store S) : (σ.setStore id st).smDrive = σ.smDrive := by cases id <;> rfl
@[simp] theorem State.setStore_inQ (σ : State S) (id : StoreId) (st : Store S) : (σ.setStore id st).inQ = σ.inQ := by cases id <;> rfl
@[simp] theorem State.setStore_outQ (σ : State S) (id : StoreId) (st : Store S) : (σ.setStore id st).outQ = σ.outQ := by cases id <;> rfl
@[simp] theorem State.setStore_agenda (σ : State S) (id : StoreId) (st : Store S) : (σ.setStore id st).agenda = σ.agenda := by cases id <;> rfl
@[simp] theorem State.setStore_readLog (σ : State S) (id : StoreId) (st : Store S) : (σ.setStore id st).readLog = σ.readLog := by cases id <;> rfl
@[simp] theorem State.setStore_result (σ : State S) (id : StoreId) (st : Store S) : (σ.setStore id st).result = σ.result := by cases id <;> rfl
@[simp] theorem State.setStore_racing (σ : State S) (id : StoreId) (st : Store S) : (σ.setStore id st).racing = σ.racing := by cases id <;> rfl
@[simp] theorem State.setStore_draws (σ : State S) (id : StoreId) (st : Store S) : (σ.setStore id st).draws = σ.draws := by cases id <;> rfl
@[simp] theorem State.setStore_pd_pd (σ : State S) (c : Chan) (st : Store S) : (σ.setStore (.pd c) st).pd = σ.pd.set (strOf c) st := rfl
@[simp] theorem State.setStore_pd_str (σ : State S) (c : Chan) (st : Store S) : (σ.setStore (.pd c) st).str = σ.str := rfl
@[simp] theorem State.setStore_ap_pd (σ : State S) (s : Str) (k : Stage) (st : Store S) : (σ.setStore (.ap s k) st).pd = σ.pd := rfl
@[simp] theorem State.setStore_ap_str (σ : State S) (s : Str) (k : Stage) (st : Store S) :
    (σ.setStore (.ap s k) st).str = σ.str.set s { σ.str.get s with ap := (σ.str.get s).ap.set k st } := rfl

/-- A store put in place is found there. -/
@[simp] theorem State.store_setStore_self (σ : State S) (id : StoreId) (st : Store S) : (σ.setStore id st).store id = st := by
  cases id <;> simp [State.store]

/-- Every other store stays. -/
theorem State.store_setStore_ne (σ : State S) {id id' : StoreId} (st : Store S) (h : id' ≠ id) :
    (σ.setStore id st).store id' = σ.store id' := by
  rcases id with c | ⟨s, k⟩ <;> rcases id' with c' | ⟨s', k'⟩ <;> first | rfl | skip
  · cases c <;> cases c' <;> first | rfl | exact absurd rfl h
  · cases s <;> cases s' <;> cases k <;> cases k' <;> first | rfl | exact absurd rfl h

@[simp] theorem State.setStore_str_fb (σ : State S) (id : StoreId) (st : Store S) (s : Str) :
    ((σ.setStore id st).str.get s).fb = (σ.str.get s).fb := by
  rcases id with c | ⟨t, k⟩ <;> first | rfl | (cases s <;> cases t <;> rfl)
@[simp] theorem State.setStore_str_ph (σ : State S) (id : StoreId) (st : Store S) (s : Str) :
    ((σ.setStore id st).str.get s).ph = (σ.str.get s).ph := by
  rcases id with c | ⟨t, k⟩ <;> first | rfl | (cases s <;> cases t <;> rfl)
@[simp] theorem State.setStore_str_lpz (σ : State S) (id : StoreId) (st : Store S) (s : Str) :
    ((σ.setStore id st).str.get s).lpz = (σ.str.get s).lpz := by
  rcases id with c | ⟨t, k⟩ <;> first | rfl | (cases s <;> cases t <;> rfl)

/-! ### `setFb` -/

@[simp] theorem State.setFb_host (σ : State S) (s : Str) (v : S) : (σ.setFb s v).host = σ.host := rfl
@[simp] theorem State.setFb_prep (σ : State S) (s : Str) (v : S) : (σ.setFb s v).prep = σ.prep := rfl
@[simp] theorem State.setFb_seq (σ : State S) (s : Str) (v : S) : (σ.setFb s v).seq = σ.seq := rfl
@[simp] theorem State.setFb_consts (σ : State S) (s : Str) (v : S) : (σ.setFb s v).consts = σ.consts := rfl
@[simp] theorem State.setFb_coeffs (σ : State S) (s : Str) (v : S) : (σ.setFb s v).coeffs = σ.coeffs := rfl
@[simp] theorem State.setFb_pd (σ : State S) (s : Str) (v : S) : (σ.setFb s v).pd = σ.pd := rfl
@[simp] theorem State.setFb_str (σ : State S) (s : Str) (v : S) :
    (σ.setFb s v).str = σ.str.set s { σ.str.get s with fb := v } := rfl
@[simp] theorem State.setFb_smMix (σ : State S) (s : Str) (v : S) : (σ.setFb s v).smMix = σ.smMix := rfl
@[simp] theorem State.setFb_smDrive (σ : State S) (s : Str) (v : S) : (σ.setFb s v).smDrive = σ.smDrive := rfl
@[simp] theorem State.setFb_inQ (σ : State S) (s : Str) (v : S) : (σ.setFb s v).inQ = σ.inQ := rfl
@[simp] theorem State.setFb_outQ (σ : State S) (s : Str) (v : S) : (σ.setFb s v).outQ = σ.outQ := rfl
@[simp] theorem State.setFb_agenda (σ : State S) (s : Str) (v : S) : (σ.setFb s v).agenda = σ.agenda := rfl
@[simp] theorem State.setFb_readLog (σ : State S) (s : Str) (v : S) : (σ.setFb s v).readLog = σ.readLog := rfl
@[simp] theorem State.setFb_result (σ : State S) (s : Str) (v : S) : (σ.setFb s v).result = σ.result := rfl
@[simp] theorem State.setFb_racing (σ : State S) (s : Str) (v : S) : (σ.setFb s v).racing = σ.racing := rfl
@[simp] theorem State.setFb_draws (σ : State S) (s : Str) (v : S) : (σ.setFb s v).draws = σ.draws := rfl
@[simp] theorem State.setFb_store (σ : State S) (s : Str) (v : S) (id : StoreId) : (σ.setFb s v).store id = σ.store id := by
  rcases id with c | ⟨t, k⟩ <;> first | rfl | (cases s <;> cases t <;> rfl)

/-! ### `setPh` -/

@[simp] theorem State.setPh_host (σ : State S) (s : Str) (v : S) : (σ.setPh s v).host = σ.host := rfl
@[simp] theorem State.setPh_prep (σ : State S) (s : Str) (v : S) : (σ.setPh s v).prep = σ.prep := rfl
@[simp] theorem State.setPh_seq (σ : State S) (s : Str) (v : S) : (σ.setPh s v).seq = σ.seq := rfl
@[simp] theorem State.setPh_consts (σ : State S) (s : Str) (v : S) : (σ.setPh s v).consts = σ.consts := rfl
@[simp] theorem State.setPh_coeffs (σ : State S) (s : Str) (v : S) : (σ.setPh s v).coeffs = σ.coeffs := rfl
@[simp] theorem State.setPh_pd (σ : State S) (s : Str) (v : S) : (σ.setPh s v).pd = σ.pd := rfl
@[simp] theorem State.setPh_str (σ : State S) (s : Str) (v : S) :
    (σ.setPh s v).str = σ.str.set s { σ.str.get s with ph := v } := rfl
@[simp] theorem State.setPh_smMix (σ : State S) (s : Str) (v : S) : (σ.setPh s v).smMix = σ.smMix := rfl
@[simp] theorem State.setPh_smDrive (σ : State S) (s : Str) (v : S) : (σ.setPh s v).smDrive = σ.smDrive := rfl
@[simp] theorem State.setPh_inQ (σ : State S) (s : Str) (v : S) : (σ.setPh s v).inQ = σ.inQ := rfl
@[simp] theorem State.setPh_outQ (σ : State S) (s : Str) (v : S) : (σ.setPh s v).outQ = σ.outQ := rfl
@[simp] theorem State.setPh_agenda (σ : State S) (s : Str) (v : S) : (σ.setPh s v).agenda = σ.agenda := rfl
@[simp] theorem State.setPh_readLog (σ : State S) (s : Str) (v : S) : (σ.setPh s v).readLog = σ.readLog := rfl
@[simp] theorem State.setPh_result (σ : State S) (s : Str) (v : S) : (σ.setPh s v).result = σ.result := rfl
@[simp] theorem State.setPh_racing (σ : State S) (s : Str) (v : S) : (σ.setPh s v).racing = σ.racing := rfl
@[simp] theorem State.setPh_draws (σ : State S) (s : Str) (v : S) : (σ.setPh s v).draws = σ.draws := rfl
@[simp] theorem State.setPh_store (σ : State S) (s : Str) (v : S) (id : StoreId) : (σ.setPh s v).store id = σ.store id := by
  rcases id with c | ⟨t, k⟩ <;> first | rfl | (cases s <;> cases t <;> rfl)

/-! ### `setLpz` -/

@[simp] theorem State.setLpz_host (σ : State S) (s : Str) (v : S) : (σ.setLpz s v).host = σ.host := rfl
@[simp] theorem State.setLpz_prep (σ : State S) (s : Str) (v : S) : (σ.setLpz s v).prep = σ.prep := rfl
@[simp] theorem State.setLpz_seq (σ : State S) (s : Str) (v : S) : (σ.setLpz s v).seq = σ.seq := rfl
@[simp] theorem State.setLpz_consts (σ : State S) (s : Str) (v : S) : (σ.setLpz s v).consts = σ.consts := rfl
@[simp] theorem State.setLpz_coeffs (σ : State S) (s : Str) (v : S) : (σ.setLpz s v).coeffs = σ.coeffs := rfl
@[simp] theorem State.setLpz_pd (σ : State S) (s : Str) (v : S) : (σ.setLpz s v).pd = σ.pd := rfl
@[simp] theorem State.setLpz_str (σ : State S) (s : Str) (v : S) :
    (σ.setLpz s v).str = σ.str.set s { σ.str.get s with lpz := v } := rfl
@[simp] theorem State.setLpz_smMix (σ : State S) (s : Str) (v : S) : (σ.setLpz s v).smMix = σ.smMix := rfl
@[simp] theorem State.setLpz_smDrive (σ : State S) (s : Str) (v : S) : (σ.setLpz s v).smDrive = σ.smDrive := rfl
@[simp] theorem State.setLpz_inQ (σ : State S) (s : Str) (v : S) : (σ.setLpz s v).inQ = σ.inQ := rfl
@[simp] theorem State.setLpz_outQ (σ : State S) (s : Str) (v : S) : (σ.setLpz s v).outQ = σ.outQ := rfl
@[simp] theorem State.setLpz_agenda (σ : State S) (s : Str) (v : S) : (σ.setLpz s v).agenda = σ.agenda := rfl
@[simp] theorem State.setLpz_readLog (σ : State S) (s : Str) (v : S) : (σ.setLpz s v).readLog = σ.readLog := rfl
@[simp] theorem State.setLpz_result (σ : State S) (s : Str) (v : S) : (σ.setLpz s v).result = σ.result := rfl
@[simp] theorem State.setLpz_racing (σ : State S) (s : Str) (v : S) : (σ.setLpz s v).racing = σ.racing := rfl
@[simp] theorem State.setLpz_draws (σ : State S) (s : Str) (v : S) : (σ.setLpz s v).draws = σ.draws := rfl
@[simp] theorem State.setLpz_store (σ : State S) (s : Str) (v : S) (id : StoreId) : (σ.setLpz s v).store id = σ.store id := by
  rcases id with c | ⟨t, k⟩ <;> first | rfl | (cases s <;> cases t <;> rfl)

/-! ### `setSmoother` -/

@[simp] theorem State.setSmoother_host (σ : State S) (p : SmootherId) (x : Smoother S) : (σ.setSmoother p x).host = σ.host := by cases p <;> rfl
@[simp] theorem State.setSmoother_prep (σ : State S) (p : SmootherId) (x : Smoother S) : (σ.setSmoother p x).prep = σ.prep := by cases p <;> rfl
@[simp] theorem State.setSmoother_seq (σ : State S) (p : SmootherId) (x : Smoother S) : (σ.setSmoother p x).seq = σ.seq := by cases p <;> rfl
@[simp] theorem State.setSmoother_consts (σ : State S) (p : SmootherId) (x : Smoother S) : (σ.setSmoother p x).consts = σ.consts := by cases p <;> rfl
@[simp] theorem State.setSmoother_coeffs (σ : State S) (p : SmootherId) (x : Smoother S) : (σ.setSmoother p x).coeffs = σ.coeffs := by cases p <;> rfl
@[simp] theorem State.setSmoother_pd (σ : State S) (p : SmootherId) (x : Smoother S) : (σ.setSmoother p x).pd = σ.pd := by cases p <;> rfl
@[simp] theorem State.setSmoother_str (σ : State S) (p : SmootherId) (x : Smoother S) : (σ.setSmoother p x).str = σ.str := by cases p <;> rfl
@[simp] theorem State.setSmoother_inQ (σ : State S) (p : SmootherId) (x : Smoother S) : (σ.setSmoother p x).inQ = σ.inQ := by cases p <;> rfl
@[simp] theorem State.setSmoother_outQ (σ : State S) (p : SmootherId) (x : Smoother S) : (σ.setSmoother p x).outQ = σ.outQ := by cases p <;> rfl
@[simp] theorem State.setSmoother_agenda (σ : State S) (p : SmootherId) (x : Smoother S) : (σ.setSmoother p x).agenda = σ.agenda := by cases p <;> rfl
@[simp] theorem State.setSmoother_readLog (σ : State S) (p : SmootherId) (x : Smoother S) : (σ.setSmoother p x).readLog = σ.readLog := by cases p <;> rfl
@[simp] theorem State.setSmoother_result (σ : State S) (p : SmootherId) (x : Smoother S) : (σ.setSmoother p x).result = σ.result := by cases p <;> rfl
@[simp] theorem State.setSmoother_racing (σ : State S) (p : SmootherId) (x : Smoother S) : (σ.setSmoother p x).racing = σ.racing := by cases p <;> rfl
@[simp] theorem State.setSmoother_draws (σ : State S) (p : SmootherId) (x : Smoother S) : (σ.setSmoother p x).draws = σ.draws := by cases p <;> rfl
@[simp] theorem State.setSmoother_mix_smMix (σ : State S) (x : Smoother S) : (σ.setSmoother .mix x).smMix = x := rfl
@[simp] theorem State.setSmoother_mix_smDrive (σ : State S) (x : Smoother S) : (σ.setSmoother .mix x).smDrive = σ.smDrive := rfl
@[simp] theorem State.setSmoother_drive_smMix (σ : State S) (x : Smoother S) : (σ.setSmoother .drive x).smMix = σ.smMix := rfl
@[simp] theorem State.setSmoother_drive_smDrive (σ : State S) (x : Smoother S) : (σ.setSmoother .drive x).smDrive = x := rfl
@[simp] theorem State.smoother_setSmoother_self (σ : State S) (p : SmootherId) (x : Smoother S) : (σ.setSmoother p x).smoother p = x := by
  cases p <;> rfl
theorem State.smoother_setSmoother_ne (σ : State S) {p p' : SmootherId} (x : Smoother S) (h : p' ≠ p) :
    (σ.setSmoother p x).smoother p' = σ.smoother p' := by
  cases p <;> cases p' <;> first | rfl | exact absurd rfl h
@[simp] theorem State.setSmoother_store (σ : State S) (p : SmootherId) (x : Smoother S) (id : StoreId) :
    (σ.setSmoother p x).store id = σ.store id := by cases p <;> rfl
@[simp] theorem State.setSmoother_smoother_self (σ : State S) (p : SmootherId) : σ.setSmoother p (σ.smoother p) = σ := by cases p <;> rfl
@[simp] theorem State.setSmoother_setSmoother (σ : State S) (p : SmootherId) (x y : Smoother S) :
    (σ.setSmoother p x).setSmoother p y = σ.setSmoother p y := by cases p <;> rfl

/-! ### `withResult` -/

@[simp] theorem State.withResult_host (σ : State S) (vs : List S) : (σ.withResult vs).host = σ.host := rfl
@[simp] theorem State.withResult_prep (σ : State S) (vs : List S) : (σ.withResult vs).prep = σ.prep := rfl
@[simp] theorem State.withResult_seq (σ : State S) (vs : List S) : (σ.withResult vs).seq = σ.seq := rfl
@[simp] theorem State.withResult_consts (σ : State S) (vs : List S) : (σ.withResult vs).consts = σ.consts := rfl
@[simp] theorem State.withResult_coeffs (σ : State S) (vs : List S) : (σ.withResult vs).coeffs = σ.coeffs := rfl
@[simp] theorem State.withResult_pd (σ : State S) (vs : List S) : (σ.withResult vs).pd = σ.pd := rfl
@[simp] theorem State.withResult_str (σ : State S) (vs : List S) : (σ.withResult vs).str = σ.str := rfl
@[simp] theorem State.withResult_smMix (σ : State S) (vs : List S) : (σ.withResult vs).smMix = σ.smMix := rfl
@[simp] theorem State.withResult_smDrive (σ : State S) (vs : List S) : (σ.withResult vs).smDrive = σ.smDrive := rfl
@[simp] theorem State.withResult_inQ (σ : State S) (vs : List S) : (σ.withResult vs).inQ = σ.inQ := rfl
@[simp] theorem State.withResult_outQ (σ : State S) (vs : List S) : (σ.withResult vs).outQ = σ.outQ := rfl
@[simp] theorem State.withResult_agenda (σ : State S) (vs : List S) : (σ.withResult vs).agenda = σ.agenda := rfl
@[simp] theorem State.withResult_readLog (σ : State S) (vs : List S) : (σ.withResult vs).readLog = σ.readLog := rfl
@[simp] theorem State.withResult_result (σ : State S) (vs : List S) : (σ.withResult vs).result = vs := rfl
@[simp] theorem State.withResult_racing (σ : State S) (vs : List S) : (σ.withResult vs).racing = σ.racing := rfl
@[simp] theorem State.withResult_draws (σ : State S) (vs : List S) : (σ.withResult vs).draws = σ.draws := rfl
@[simp] theorem State.withResult_store (σ : State S) (vs : List S) (id : StoreId) : (σ.withResult vs).store id = σ.store id := rfl
@[simp] theorem State.withResult_withResult (σ : State S) (vs ws : List S) : (σ.withResult vs).withResult ws = σ.withResult ws := rfl

/-! ### `landRacing` -/

@[simp] theorem landRacing_prep (σ : State S) : (landRacing σ).prep = σ.prep := rfl
@[simp] theorem landRacing_seq (σ : State S) : (landRacing σ).seq = σ.seq := rfl
@[simp] theorem landRacing_consts (σ : State S) : (landRacing σ).consts = σ.consts := rfl
@[simp] theorem landRacing_coeffs (σ : State S) : (landRacing σ).coeffs = σ.coeffs := rfl
@[simp] theorem landRacing_pd (σ : State S) : (landRacing σ).pd = σ.pd := rfl
@[simp] theorem landRacing_str (σ : State S) : (landRacing σ).str = σ.str := rfl
@[simp] theorem landRacing_smMix (σ : State S) : (landRacing σ).smMix = σ.smMix := rfl
@[simp] theorem landRacing_smDrive (σ : State S) : (landRacing σ).smDrive = σ.smDrive := rfl
@[simp] theorem landRacing_inQ (σ : State S) : (landRacing σ).inQ = σ.inQ := rfl
@[simp] theorem landRacing_outQ (σ : State S) : (landRacing σ).outQ = σ.outQ := rfl
@[simp] theorem landRacing_agenda (σ : State S) : (landRacing σ).agenda = σ.agenda := rfl
@[simp] theorem landRacing_readLog (σ : State S) : (landRacing σ).readLog = σ.readLog := rfl
@[simp] theorem landRacing_result (σ : State S) : (landRacing σ).result = σ.result := rfl
@[simp] theorem landRacing_racing (σ : State S) : (landRacing σ).racing = [] := rfl

/-- With nothing in flight a latch lands nothing. -/
theorem landRacing_of_nil {σ : State S} (h : σ.racing = []) : landRacing σ = σ := by
  cases σ; simp only at h; subst h; rfl

/-! ### Host registers -/

@[simp] theorem HostRegs.param_setParam_self (h : HostRegs) (p : Param) (w : Word) : (h.setParam p w).param p = w := by
  cases p <;> rfl

theorem HostRegs.param_setParam_ne (h : HostRegs) {p p' : Param} (w : Word) (hne : p' ≠ p) :
    (h.setParam p w).param p' = h.param p' := by
  cases p <;> cases p' <;> first | rfl | exact absurd rfl hne

@[simp] theorem HostRegs.setParam_fsLo (h : HostRegs) (p : Param) (w : Word) : (h.setParam p w).fsLo = h.fsLo := by cases p <;> rfl
@[simp] theorem HostRegs.setParam_fsHi (h : HostRegs) (p : Param) (w : Word) : (h.setParam p w).fsHi = h.fsHi := by cases p <;> rfl
@[simp] theorem HostRegs.setParam_maxBlk (h : HostRegs) (p : Param) (w : Word) : (h.setParam p w).maxBlk = h.maxBlk := by
  cases p <;> rfl

end Sys2Proof.Machine
end

