-- ==== Sys2Proof/Laws/Block.lean ====
section
/-! SUPPORT. The hardware's configuration: what each field of `Config.block` is, and each operation under it in terms of binary32
arithmetic, so that no proof about the hardware unfolds the configuration. -/

namespace Sys2Proof.Machine

open Fp

/-! ### The numerics of the hardware -/

@[simp] theorem block_rnd (s : Bool) (n d : Nat) : Config.block.num.rnd s n d = rnd s (n * one149) d := (rfl)
@[simp] theorem block_fadd : Config.block.num.fadd = fadd := (rfl)
@[simp] theorem block_fsub : Config.block.num.fsub = fsub := (rfl)
@[simp] theorem block_fmul : Config.block.num.fmul = fmul := (rfl)
@[simp] theorem block_fdiv : Config.block.num.fdiv = fdiv := (rfl)
@[simp] theorem block_floorI : Config.block.num.floorI = floorI := (rfl)
@[simp] theorem block_flt : Config.block.num.flt = flt := (rfl)
@[simp] theorem block_feq : Config.block.num.feq = feq := (rfl)
@[simp] theorem block_finite : Config.block.num.finite = finite := (rfl)
@[simp] theorem block_isNaN : Config.block.num.isNaN = isNaN := (rfl)
@[simp] theorem block_neg : Config.block.num.neg = neg := (rfl)
@[simp] theorem block_cvt64 : Config.block.num.cvt64 = cvt64 := (rfl)
@[simp] theorem block_cvt32 (w : Word) : Config.block.num.cvt32 w = w := (rfl)
@[simp] theorem block_enc32 (v : F32) : Config.block.num.enc32 v = v := (rfl)
@[simp] theorem block_tanh : Config.block.num.tanh = Config.functions.tanh := (rfl)
@[simp] theorem block_sin : Config.block.num.sin = Config.functions.sin := (rfl)
@[simp] theorem block_pow10 : Config.block.num.pow10 = Config.functions.pow10 := (rfl)
@[simp] theorem block_lpA : Config.block.num.lpA = Config.functions.lpA := (rfl)
@[simp] theorem block_twoPi : Config.block.num.twoPi = Config.twoPi := (rfl)
@[simp] theorem block_lit (n d : Nat) : Config.block.num.lit n d = lit n d := (rfl)
@[simp] theorem block_itof (n : Nat) : Config.block.num.itof n = itof n := (rfl)
@[simp] theorem block_clamp (x lo hi : F32) : Config.block.num.clamp x lo hi = clamp x lo hi := (rfl)

/-- `a <= b` is less or equal (R13). -/
theorem block_fle (a b : F32) : Config.block.num.fle a b = fle a b := by
  simp only [Numerics.fle, block_flt, block_feq, flt, feq, fle]
  cases isNaN a <;> cases isNaN b <;> simp [← Bool.decide_or, le_iff_lt_or_eq]

/-! ### Its parameters -/

@[simp] theorem block_base : Config.block.base = Config.tuning.base := (rfl)
@[simp] theorem block_rate : Config.block.rate = Config.tuning.rate := (rfl)
@[simp] theorem block_monoSource : Config.block.monoSource = Config.monoSource := (rfl)
@[simp] theorem block_idxW : Config.block.idxW = 16 := (rfl)
@[simp] theorem block_fsLow : Config.block.fsLow = Config.fsMin := (rfl)
@[simp] theorem block_fsHigh : Config.block.fsHigh = Config.fsMax := (rfl)
@[simp] theorem block_loopTime (s : Str) : Config.block.loopTime s = Config.loopTime s := (rfl)
@[simp] theorem block_minusThree : rnd true (3 * one149) 1 = neg (lit 3 1) := by decide +kernel

/-- The `0` of the values is `+0`. -/
@[simp] theorem zero_eq : (@OfNat.ofNat F32 0 Zero.toOfNat0) = plusZero := (rfl)

/-! ### The operations under it -/

theorem fitCapacity_block (n : Nat) :
    fitCapacity Config.block n = if n < 2 ^ 16 then n else 3 + Config.wideCapacity n % (2 ^ 16 - 3) := (rfl)

/-- A capacity that fits its 16 bits is kept. -/
theorem fitCapacity_of_lt {n : Nat} (h : n < 2 ^ 16) : fitCapacity Config.block n = n := by rw [fitCapacity_block, if_pos h]

/-- Every capacity `RB.PREP` leaves fits its 16 bits. -/
theorem fitCapacity_lt (n : Nat) : fitCapacity Config.block n < 2 ^ 16 := by
  rw [fitCapacity_block]; split
  · assumption
  · have := Nat.mod_lt (Config.wideCapacity n) (show 0 < 2 ^ 16 - 3 by norm_num); omega

/-- A capacity of at least 3 is left as one. -/
theorem fitCapacity_ge {n : Nat} (h : 3 ≤ n) : 3 ≤ fitCapacity Config.block n := by
  rw [fitCapacity_block]; split <;> omega

theorem storeReadFrac_block (st : Store) (d : F32) (ord : Order) :
    storeReadFrac Config.block st d ord =
      if st.cap < 4 then Config.shortStoreRead st.cap d
      else
        let dc := clamp d (itof 1) (itof (st.cap - 3))
        let i := floorI dc
        let f := fsub dc (itof i)
        let s0 := tap st ((i : Int) - orderShift ord)
        let s1 := tap st ((i : Int) + 1 - orderShift ord)
        fadd s0 (fmul f (fsub s1 s0)) := by
  simp only [storeReadFrac, block_fadd, block_fsub, block_fmul, block_floorI, block_itof, block_clamp]
  rfl
theorem allpassState_block (x g vd : F32) : allpassState Config.block x g vd = fsub x (fmul g vd) := (rfl)
theorem allpassOut_block (x g vd : F32) : allpassOut Config.block x g vd = fadd (fmul g (fsub x (fmul g vd))) vd := (rfl)
theorem drvGain_block (d : F32) : drvGain Config.block d = fadd (lit 1 1) (fmul d (lit 3 1)) := (rfl)
theorem drvShape_block (x gain : F32) :
    drvShape Config.block x gain = fdiv (Config.functions.tanh (fmul x gain)) gain := (rfl)
theorem lfoMod_block (s : Str) (σ : State) :
    lfoMod Config.block s σ =
      fadd (itof ((σ.consts.n.get s).get .k3)) (fmul σ.coeffs.wobDepth (Config.functions.sin (fmul Config.twoPi (σ.str.get s).ph))) := (rfl)
theorem nextPhase_block (ph inc : F32) :
    nextPhase Config.block ph inc = if flt (fadd ph inc) (lit 1 1) then fadd ph inc else fsub (fadd ph inc) (lit 1 1) := (rfl)
theorem lpOut_block (s : Str) (x : F32) (σ : State) :
    lpOut Config.block s x σ = fadd (σ.str.get s).lpz (fmul σ.coeffs.lpA (fsub x (σ.str.get s).lpz)) := (rfl)
theorem clampParam_block (p : Param) (w : Word) :
    clampParam Config.block p w = clamp w (paramLow Config.block p) (paramHigh Config.block p) := (rfl)
theorem sampleRate_block (h : HostRegs) :
    sampleRate Config.block h = clamp (cvt64 (sampleRateWord h)) Config.fsMin Config.fsMax := (rfl)
theorem apCoeffOf_block (v : F32) :
    apCoeffOf Config.block v = clamp (fadd (lit 30 100) (fmul v (lit 45 100))) (lit 2 10) (lit 8 10) := by
  simp only [apCoeffOf, block_fadd, block_fmul, block_lit, block_clamp]
theorem fbGainOf_block (s : Str) (v : F32) :
    fbGainOf Config.block s v =
      clamp (Config.functions.pow10 (fdiv (fmul (neg (lit 3 1)) (Config.loopTime s)) v)) (lit 0 1) (lit 95 100) := by
  rw [← block_minusThree]; rfl
theorem lpCutOf_block (v : F32) : lpCutOf Config.block v = fsub (lit 16000 1) (fmul v (lit 14000 1)) := (rfl)
theorem pdNOf_block (v fs : F32) (m : Nat) :
    pdNOf Config.block v fs m = floorI (clamp (fdiv (fmul v fs) (lit 1000 1)) (lit 0 1) (itof m)) := by
  simp only [pdNOf, block_fmul, block_fdiv, block_floorI, block_lit, block_itof, block_clamp]
theorem seeded_eq (v : F32) : seeded v = { cur := v, tgt := v, step := plusZero, cnt := 0 } := (rfl)
theorem retargeted_block (nr : Nat) (v : F32) (x : Smoother) :
    retargeted Config.block nr v x =
      if feq v x.tgt then x else { cur := x.cur, tgt := v, step := fdiv (fsub v x.cur) (itof nr), cnt := nr } := by
  simp only [retargeted, block_feq, block_fsub, block_fdiv, block_itof]
theorem advanced_block (x : Smoother) :
    advanced Config.block x =
      if x.cnt = 0 then x
      else if x.cnt - 1 = 0 then { x with cnt := 0, cur := x.tgt }
      else { x with cnt := x.cnt - 1, cur := fadd x.cur x.step } := (rfl)
theorem rampLength_block (fs : F32) : rampLength Config.block fs = max 1 (floorI (fdiv fs (lit 100 1))) := by
  simp only [rampLength, block_fdiv, block_floorI, block_lit]
theorem maxPreDelay_block (fs : F32) :
    maxPreDelay Config.block fs = max 1 (floorI (fdiv (fmul (lit 100 1) fs) (lit 1000 1))) := by
  simp only [maxPreDelay, block_fmul, block_fdiv, block_floorI, block_lit]
theorem maxWobble_block (fs : F32) : maxWobble Config.block fs = fdiv (fmul (lit 3 1) fs) (lit 1000 1) := (rfl)
theorem baseDelay_block (fs : F32) (s : Str) (k : Stage) :
    baseDelay Config.block fs s k = max 1 (floorI (fmul (Config.tuning.base s k) fs)) := by
  simp only [baseDelay, block_fmul, block_floorI, block_base]
theorem constantsFor_block (fs : F32) :
    constantsFor Config.block fs =
      { fs := fs
        nr := max 1 (floorI (fdiv fs (lit 100 1)))
        pdMax := max 1 (floorI (fdiv (fmul (lit 100 1) fs) (lit 1000 1)))
        wMax := fdiv (fmul (lit 3 1) fs) (lit 1000 1)
        n := { l := baseDelays Config.block fs .L, r := baseDelays Config.block fs .R }
        inc := { l := fdiv (Config.tuning.rate .L) fs, r := fdiv (Config.tuning.rate .R) fs } } := by
  simp only [constantsFor, rampLength_block, maxPreDelay_block, maxWobble_block, block_fdiv, block_rate]
theorem baseDelays_get (fs : F32) (s : Str) (k : Stage) :
    (baseDelays Config.block fs s).get k = max 1 (floorI (fmul (Config.tuning.base s k) fs)) := by
  rw [← baseDelay_block]; cases k <;> rfl
theorem inSan_block (w : Word) : inSan Config.block w = if finite w then w else plusZero := (rfl)
theorem mixBlend_block (dry wet m : F32) :
    mixBlend Config.block dry wet m = fadd (fmul dry (fsub (lit 1 1) m)) (fmul wet m) := by
  simp only [mixBlend, block_fadd, block_fsub, block_fmul, block_lit]
theorem rightInput_block (stereo : Bool) (xl xr : F32) :
    rightInput Config.block stereo xl xr = if stereo then xr else if Config.monoSource = .left then xl else plusZero := by
  unfold rightInput; cases stereo
  · simp only [block_monoSource]; cases Config.monoSource <;> rfl
  · rfl

end Sys2Proof.Machine
end

