-- ==== Sys2Proof/Laws/Rounding.lean ====
section
/-! SUPPORT. What the rounding `roundUnits` can do: it is monotone in the quotient, gives back every value of the format, and so
never leaves a bracket of two values of the format. -/

namespace Sys2Proof.Fp

/-- Rounding a quotient to nearest even, one part of `roundUnits`. -/
def nearestEven (n u : Nat) : Nat := if u < 2 * (n % u) ∨ (2 * (n % u) = u ∧ n / u % 2 = 1) then n / u + 1 else n / u

theorem roundUnits_eq (p top n d : Nat) :
    roundUnits p top n d =
      min top (((n / d).log2 - p) * 2 ^ p + nearestEven n (d * 2 ^ ((n / d).log2 - p))) := rfl

theorem nearestEven_bounds (n u : Nat) : n / u ≤ nearestEven n u ∧ nearestEven n u ≤ n / u + 1 := by
  unfold nearestEven; split <;> omega

theorem nearestEven_mono {n u n' u' : Nat} (hu : 0 < u) (hu' : 0 < u') (h : n * u' ≤ n' * u) :
    nearestEven n u ≤ nearestEven n' u' := by
  have hq : n / u ≤ n' / u' := by
    rw [Nat.le_div_iff_mul_le hu']
    have h1 : n / u * u ≤ n := Nat.div_mul_le_self n u
    have h2 : n / u * u' * u ≤ n' * u := by
      calc n / u * u' * u = n / u * u * u' := by ring
        _ ≤ n * u' := Nat.mul_le_mul_right _ h1
        _ ≤ n' * u := h
    exact Nat.le_of_mul_le_mul_right h2 hu
  rcases Nat.lt_or_ge (n / u) (n' / u') with hlt | hge
  · have := (nearestEven_bounds n u).2; have := (nearestEven_bounds n' u').1; omega
  · have heq : n / u = n' / u' := le_antisymm hq hge
    have e1 := Nat.div_add_mod n u
    have e2 := Nat.div_add_mod n' u'
    have hr : n % u * u' ≤ n' % u' * u := by
      rw [heq] at e1
      have : (u * (n' / u') + n % u) * u' ≤ (u' * (n' / u') + n' % u') * u := by rw [e1, e2]; exact h
      nlinarith
    unfold nearestEven
    rw [heq]
    by_cases c1 : u < 2 * (n % u) ∨ (2 * (n % u) = u ∧ n' / u' % 2 = 1)
    · have c2 : u' < 2 * (n' % u') ∨ (2 * (n' % u') = u' ∧ n' / u' % 2 = 1) := by
        rcases c1 with c | ⟨c, hodd⟩
        · left; nlinarith
        · rcases Nat.lt_or_ge u' (2 * (n' % u')) with k | k
          · exact Or.inl k
          · right; refine ⟨le_antisymm k ?_, hodd⟩; nlinarith
      rw [if_pos c1, if_pos c2]
    · rw [if_neg c1]; split <;> omega

theorem pow_log2_le {w : Nat} (h : w ≠ 0) : 2 ^ w.log2 ≤ w := Nat.log2_self_le h

/-- The significand before rounding fits `p + 1` bits. -/
theorem quotient_lt {p n d : Nat} : n / (d * 2 ^ ((n / d).log2 - p)) < 2 ^ (p + 1) := by
  rw [← Nat.div_div_eq_div_mul, Nat.div_lt_iff_lt_mul (by positivity)]
  have h1 : n / d < 2 ^ ((n / d).log2 + 1) := Nat.lt_log2_self
  refine lt_of_lt_of_le h1 ?_
  rw [← pow_add]
  exact Nat.pow_le_pow_right (by norm_num) (by omega)

/-- With a shift the significand has its leading bit. -/
theorem le_quotient {p n d : Nat} (h : 0 < (n / d).log2 - p) : 2 ^ p ≤ n / (d * 2 ^ ((n / d).log2 - p)) := by
  have hne : n / d ≠ 0 := by rintro e; simp [e] at h
  rw [← Nat.div_div_eq_div_mul, Nat.le_div_iff_mul_le (by positivity), ← pow_add]
  have : p + ((n / d).log2 - p) = (n / d).log2 := by omega
  rw [this]
  exact pow_log2_le hne

theorem roundUnits_le_top (p top n d : Nat) : roundUnits p top n d ≤ top := min_le_left _ _

/-- Rounding is monotone in the quotient. -/
theorem roundUnits_mono {p top n d n' d' : Nat} (hd : 0 < d) (hd' : 0 < d') (h : n * d' ≤ n' * d) :
    roundUnits p top n d ≤ roundUnits p top n' d' := by
  rw [roundUnits_eq, roundUnits_eq]
  refine min_le_min_left _ ?_
  have hw : n / d ≤ n' / d' := by
    rw [Nat.le_div_iff_mul_le hd']
    have h2 : n / d * d' * d ≤ n' * d := by
      calc n / d * d' * d = n / d * d * d' := by ring
        _ ≤ n * d' := Nat.mul_le_mul_right _ (Nat.div_mul_le_self n d)
        _ ≤ n' * d := h
    exact Nat.le_of_mul_le_mul_right h2 hd
  have hl : (n / d).log2 ≤ (n' / d').log2 := by
    rw [Nat.log2_eq_log_two, Nat.log2_eq_log_two]
    exact Nat.log_mono_right hw
  set s := (n / d).log2 - p with hs
  set s' := (n' / d').log2 - p with hs'
  have hss : s ≤ s' := by omega
  rcases Nat.lt_or_ge s s' with hlt | hge
  · have q1 : n / (d * 2 ^ s) < 2 ^ (p + 1) := quotient_lt
    have q2 : 2 ^ p ≤ n' / (d' * 2 ^ s') := le_quotient (by omega)
    have b1 := (nearestEven_bounds n (d * 2 ^ s)).2
    have b2 := (nearestEven_bounds n' (d' * 2 ^ s')).1
    have hmul : (s + 1) * 2 ^ p ≤ s' * 2 ^ p := Nat.mul_le_mul_right _ hlt
    have hp : 2 ^ (p + 1) = 2 ^ p + 2 ^ p := by rw [pow_succ]; ring
    have : (s + 1) * 2 ^ p = s * 2 ^ p + 2 ^ p := by ring
    omega
  · have he : s = s' := le_antisymm hss hge
    rw [he]
    refine Nat.add_le_add_left (nearestEven_mono (by positivity) (by positivity) ?_) _
    calc n * (d' * 2 ^ s') = n * d' * 2 ^ s' := by ring
      _ ≤ n' * d * 2 ^ s' := Nat.mul_le_mul_right _ h
      _ = n' * (d * 2 ^ s') := by ring

theorem roundUnits_congr {p top n d n' d' : Nat} (hd : 0 < d) (hd' : 0 < d') (h : n * d' = n' * d) :
    roundUnits p top n d = roundUnits p top n' d' :=
  le_antisymm (roundUnits_mono hd hd' h.le) (roundUnits_mono hd' hd h.ge)

/-- A value of the format rounds to itself. -/
theorem roundUnits_exact {m : Nat} (h : m ≤ infMag) : roundUnits 23 infMag (magUnits m) 1 = m := by
  rw [roundUnits_eq]
  have key : ((magUnits m / 1).log2 - 23) * 2 ^ 23 + nearestEven (magUnits m) (1 * 2 ^ ((magUnits m / 1).log2 - 23)) = m := by
    rw [Nat.div_one, one_mul]
    by_cases hm : m < 2 ^ 23
    · have e : magUnits m = m := if_pos hm
      rw [e]
      have hlog : m.log2 - 23 = 0 := by
        by_cases h0 : m = 0
        · subst h0; rfl
        · have := (Nat.log2_lt h0).2 (show m < 2 ^ 24 by omega); omega
      rw [hlog]; simp [nearestEven, Nat.mod_one]
    · have e : magUnits m = (m % 2 ^ 23 + 2 ^ 23) * 2 ^ (m / 2 ^ 23 - 1) := if_neg hm
      have hf : m % 2 ^ 23 < 2 ^ 23 := Nat.mod_lt _ (by norm_num)
      have he : 1 ≤ m / 2 ^ 23 := by omega
      set f := m % 2 ^ 23
      set k := m / 2 ^ 23 - 1 with hk
      have hlog : (magUnits m).log2 = 23 + k := by
        rw [e, Nat.log2_eq_iff (by positivity)]
        constructor
        · rw [pow_add]; exact Nat.mul_le_mul_right _ (by omega)
        · rw [show 23 + k + 1 = 24 + k by ring, pow_add]
          exact Nat.mul_lt_mul_of_pos_right (by omega) (by positivity)
      rw [hlog, show 23 + k - 23 = k by omega, e]
      have hn : nearestEven ((f + 2 ^ 23) * 2 ^ k) (2 ^ k) = f + 2 ^ 23 := by
        unfold nearestEven
        rw [Nat.mul_mod_left, Nat.mul_div_cancel _ (by positivity)]
        have : ¬ (2 ^ k < 2 * 0 ∨ (2 * 0 = 2 ^ k ∧ (f + 2 ^ 23) % 2 = 1)) := by
          have : 0 < 2 ^ k := by positivity
          omega
        rw [if_neg this]
      rw [hn]
      have := Nat.div_add_mod m (2 ^ 23)
      omega
  rw [key]; omega

theorem roundUnits_exact_mul {m c : Nat} (h : m ≤ infMag) (hc : 0 < c) : roundUnits 23 infMag (magUnits m * c) c = m := by
  rw [← roundUnits_exact h]
  exact roundUnits_congr hc (by norm_num) (by rw [roundUnits_exact h]; ring)

/-- A quotient no greater than a value of the format rounds no greater. -/
theorem roundUnits_le {m n d : Nat} (hd : 0 < d) (h : n ≤ magUnits m * d) (hm : m ≤ infMag) :
    roundUnits 23 infMag n d ≤ m := by
  calc roundUnits 23 infMag n d ≤ roundUnits 23 infMag (magUnits m * d) d := roundUnits_mono hd hd (Nat.mul_le_mul_right _ h)
    _ = m := roundUnits_exact_mul hm hd

/-- A quotient no less than a value of the format rounds no less. -/
theorem le_roundUnits {m n d : Nat} (hd : 0 < d) (h : magUnits m * d ≤ n) (hm : m ≤ infMag) :
    m ≤ roundUnits 23 infMag n d := by
  calc m = roundUnits 23 infMag (magUnits m * d) d := (roundUnits_exact_mul hm hd).symm
    _ ≤ roundUnits 23 infMag n d := roundUnits_mono hd hd (Nat.mul_le_mul_right _ h)

theorem roundUnits_zero {d : Nat} (hd : 0 < d) : roundUnits 23 infMag 0 d = 0 := by
  have := roundUnits_le (m := 0) (n := 0) hd (by simp) (by norm_num); omega

/-- Magnitude bits grow with the magnitude. -/
theorem magUnits_mono {m m' : Nat} (h : m ≤ m') (hm : m' ≤ infMag) : magUnits m ≤ magUnits m' := by
  by_contra hlt
  push Not at hlt
  have h1 : roundUnits 23 infMag (magUnits m') 1 ≤ roundUnits 23 infMag (magUnits m) 1 :=
    roundUnits_mono (by norm_num) (by norm_num) (by omega)
  rw [roundUnits_exact hm, roundUnits_exact (le_trans h hm)] at h1
  have : m = m' := le_antisymm h h1
  subst this; exact lt_irrefl _ hlt

theorem magUnits_le_iff {m m' : Nat} (hm : m ≤ infMag) (hm' : m' ≤ infMag) : magUnits m ≤ magUnits m' ↔ m ≤ m' := by
  refine ⟨fun h => ?_, fun h => magUnits_mono h hm'⟩
  have h1 : roundUnits 23 infMag (magUnits m) 1 ≤ roundUnits 23 infMag (magUnits m') 1 :=
    roundUnits_mono (by norm_num) (by norm_num) (by omega)
  rwa [roundUnits_exact hm, roundUnits_exact hm'] at h1

end Sys2Proof.Fp
end

