-- ==== Sys2Proof/Laws/Fp.lean ====
section
/-! SUPPORT. What the primitives of `NUM_B32` can do: sign and magnitude of each result, the order of values, and the brackets that
a rounded result keeps to. -/

namespace Sys2Proof.Fp

/-! ### Patterns -/

theorem mag_lt (a : F32) : mag a < 2 ^ 31 := Nat.mod_lt _ (by norm_num)

theorem sgn_eq (a : F32) : sgn a = decide (2 ^ 31 ≤ a.toNat) := by
  have := a.isLt
  simp only [sgn, BitVec.getLsbD, Nat.testBit_eq_decide_div_mod_eq]
  congr 1
  apply propext
  omega

theorem toNat_eq (a : F32) : a.toNat = (if sgn a then 2 ^ 31 else 0) + mag a := by
  have := a.isLt
  rw [sgn_eq, mag]
  by_cases h : 2 ^ 31 ≤ a.toNat
  · rw [if_pos (by simpa using h)]; omega
  · rw [if_neg (by simpa using h)]; omega

/-- A pattern is its sign and its magnitude bits. -/
theorem ext_sgn_mag {a b : F32} (hs : sgn a = sgn b) (hm : mag a = mag b) : a = b := by
  apply BitVec.eq_of_toNat_eq; rw [toNat_eq a, toNat_eq b, hs, hm]

theorem toNat_pack {s : Bool} {m : Nat} (h : m < 2 ^ 31) : (pack s m).toNat = (if s then 2 ^ 31 else 0) + m := by
  unfold pack; rw [BitVec.toNat_ofNat]; apply Nat.mod_eq_of_lt; split <;> omega

theorem mag_pack {s : Bool} {m : Nat} (h : m < 2 ^ 31) : mag (pack s m) = m := by
  unfold mag; rw [toNat_pack h]; split <;> omega

theorem sgn_pack {s : Bool} {m : Nat} (h : m < 2 ^ 31) : sgn (pack s m) = s := by
  rw [sgn_eq, toNat_pack h]; cases s <;> simp; omega

theorem pack_sgn_mag (a : F32) : pack (sgn a) (mag a) = a :=
  ext_sgn_mag (sgn_pack (mag_lt a)) (mag_pack (mag_lt a))

@[simp] theorem sgn_neg (a : F32) : sgn (neg a) = !sgn a := by
  simp [sgn, neg]

@[simp] theorem mag_neg (a : F32) : mag (neg a) = mag a := by
  have h : (a.toNat ^^^ 2 ^ 31) % 2 ^ 31 = a.toNat % 2 ^ 31 := by
    rw [Nat.xor_mod_two_pow]; simp
  simpa [mag, neg, BitVec.toNat_xor] using h

@[simp] theorem neg_neg (a : F32) : neg (neg a) = a := ext_sgn_mag (by simp) (by simp)

@[simp] theorem isNaN_neg (a : F32) : isNaN (neg a) = isNaN a := by simp [isNaN]
@[simp] theorem isInf_neg (a : F32) : isInf (neg a) = isInf a := by simp [isInf]
@[simp] theorem finite_neg (a : F32) : finite (neg a) = finite a := by simp [finite]
@[simp] theorem isZero_neg (a : F32) : isZero (neg a) = isZero a := by simp [isZero]
@[simp] theorem key_neg (a : F32) : key (neg a) = -key a := by cases h : sgn a <;> simp [key, h]
@[simp] theorem units_neg (a : F32) : units (neg a) = -units a := by cases h : sgn a <;> simp [units, h]

theorem finite_iff {a : F32} : finite a = true ↔ mag a < infMag := by simp [finite]

theorem not_isNaN_iff {a : F32} : isNaN a = false ↔ mag a ≤ infMag := by simp [isNaN]

theorem isZero_iff {a : F32} : isZero a = true ↔ mag a = 0 := by simp [isZero]

theorem not_isNaN_of_finite {a : F32} (h : finite a = true) : isNaN a = false :=
  not_isNaN_iff.2 (le_of_lt (finite_iff.1 h))

theorem not_isInf_of_finite {a : F32} (h : finite a = true) : isInf a = false := by
  have := finite_iff.1 h; simp [isInf]; omega

theorem finite_of_isZero {a : F32} (h : isZero a = true) : finite a = true := by
  rw [isZero_iff] at h; rw [finite_iff, h]; norm_num

/-- A zero is one of the two patterns. -/
theorem eq_of_isZero {a : F32} (h : isZero a = true) : a = plusZero ∨ a = neg plusZero := by
  rw [isZero_iff] at h
  cases hs : sgn a
  · left; exact ext_sgn_mag (by rw [hs]; decide) (by rw [h]; decide)
  · right; exact ext_sgn_mag (by rw [hs]; decide) (by rw [h]; decide)

/-- The NaN an operation delivers is one, whatever its free bits (log entry 2). -/
theorem isNaN_quietNaN (op : FloatOp) (a b : BitVec 64) : isNaN (quietNaN op a b) = true := by
  have h := Nat.mod_lt (Config.nanBits op a b).toNat (show 0 < 2 ^ 22 by norm_num)
  have e : mag (quietNaN op a b) = 0x7FC00000 + (Config.nanBits op a b).toNat % 2 ^ 22 := mag_pack (by omega)
  have l : infMag < mag (quietNaN op a b) := by rw [e]; unfold infMag; omega
  exact decide_eq_true l

/-! ### The order -/

theorem fle_iff {a b : F32} : fle a b = true ↔ isNaN a = false ∧ isNaN b = false ∧ key a ≤ key b := by
  simp [fle, and_assoc]

theorem flt_iff {a b : F32} : flt a b = true ↔ isNaN a = false ∧ isNaN b = false ∧ key a < key b := by
  simp [flt, and_assoc]

theorem feq_iff {a b : F32} : feq a b = true ↔ isNaN a = false ∧ isNaN b = false ∧ key a = key b := by
  simp [feq, and_assoc]

theorem fle_refl {a : F32} (h : isNaN a = false) : fle a a = true := fle_iff.2 ⟨h, h, le_refl _⟩

theorem feq_refl {a : F32} (h : isNaN a = false) : feq a a = true := feq_iff.2 ⟨h, h, rfl⟩

theorem fle_trans {a b c : F32} (h : fle a b = true) (h' : fle b c = true) : fle a c = true := by
  rw [fle_iff] at *; exact ⟨h.1, h'.2.1, le_trans h.2.2 h'.2.2⟩

/-- A value between two finite values is finite. -/
theorem finite_of_fle {a b x : F32} (ha : finite a = true) (hb : finite b = true) (h : fle a x = true) (h' : fle x b = true) :
    finite x = true := by
  rw [fle_iff] at *; rw [finite_iff] at *
  have h1 := h.2.2; have h2 := h'.2.2
  unfold key at h1 h2
  split at h1 <;> split at h1 <;> split at h2 <;> simp_all <;> omega

theorem mag_plusZero : mag plusZero = 0 := by decide
theorem key_plusZero : key plusZero = 0 := by decide
theorem units_plusZero : units plusZero = 0 := by decide

/-- `clamp` answers within its bounds whatever it is given (R14). -/
theorem clamp_between {x lo hi : F32} (h : fle lo hi = true) : fle lo (clamp x lo hi) = true ∧ fle (clamp x lo hi) hi = true := by
  have hlo := (fle_iff.1 h).1
  have hhi := (fle_iff.1 h).2.1
  unfold clamp
  by_cases hx : isNaN x = true
  · rw [if_pos hx]; exact ⟨fle_refl hlo, h⟩
  · rw [if_neg hx]
    have hx' : isNaN x = false := by simpa using hx
    by_cases h1 : flt x lo = true
    · rw [if_pos h1]; exact ⟨fle_refl hlo, h⟩
    · rw [if_neg h1]
      by_cases h2 : flt hi x = true
      · rw [if_pos h2]; exact ⟨h, fle_refl hhi⟩
      · rw [if_neg h2]
        rw [flt_iff] at h1 h2
        constructor <;> rw [fle_iff]
        · exact ⟨hlo, hx', by by_contra hc; exact h1 ⟨hx', hlo, by omega⟩⟩
        · exact ⟨hx', hhi, by by_contra hc; exact h2 ⟨hhi, hx', by omega⟩⟩

/-- `clamp` leaves a value inside its bounds alone (R14). -/
theorem clamp_of_between {x lo hi : F32} (h1 : fle lo x = true) (h2 : fle x hi = true) : clamp x lo hi = x := by
  rw [fle_iff] at h1 h2
  unfold clamp
  rw [if_neg (by simp [h1.2.1]), if_neg, if_neg]
  · rw [flt_iff]; intro h; omega
  · rw [flt_iff]; intro h; omega

/-- On finite values the order of patterns is the order of values. -/
theorem units_le_iff {a b : F32} (ha : finite a = true) (hb : finite b = true) : units a ≤ units b ↔ key a ≤ key b := by
  have h1 := le_of_lt (finite_iff.1 ha)
  have h2 := le_of_lt (finite_iff.1 hb)
  have hab := magUnits_le_iff h1 h2
  have hba := magUnits_le_iff h2 h1
  have z : magUnits 0 = 0 := by decide
  have ha0 := magUnits_le_iff h1 (show 0 ≤ infMag by norm_num)
  have hb0 := magUnits_le_iff h2 (show 0 ≤ infMag by norm_num)
  rw [z] at ha0 hb0
  unfold units key
  cases sgn a <;> cases sgn b <;> simp only [if_true, if_false, Bool.false_eq_true] <;> omega

/-! ### Rounded results -/

theorem roundUnits_lt (n d : Nat) : roundUnits 23 infMag n d < 2 ^ 31 :=
  lt_of_le_of_lt (roundUnits_le_top 23 infMag n d) (by norm_num)

@[simp] theorem sgn_rnd (s : Bool) (n d : Nat) : sgn (rnd s n d) = s := sgn_pack (roundUnits_lt n d)

@[simp] theorem mag_rnd (s : Bool) (n d : Nat) : mag (rnd s n d) = roundUnits 23 infMag n d := mag_pack (roundUnits_lt n d)

@[simp] theorem isNaN_rnd (s : Bool) (n d : Nat) : isNaN (rnd s n d) = false := by
  rw [not_isNaN_iff, mag_rnd]; exact roundUnits_le_top _ _ _ _

/-- The exact value that `rnd s n d` rounds, in units, as an integer numerator over `d`. -/
def signed (s : Bool) (n : Nat) : Int := if s then -(n : Int) else n

/-- A result whose exact value is at most a finite value is at most it. -/
theorem rnd_le {s : Bool} {n d : Nat} {c : F32} (hd : 0 < d) (hc : finite c = true) (h : signed s n ≤ units c * d) :
    fle (rnd s n d) c = true := by
  have hm := le_of_lt (finite_iff.1 hc)
  refine fle_iff.2 ⟨isNaN_rnd _ _ _, not_isNaN_of_finite hc, ?_⟩
  unfold key
  rw [sgn_rnd, mag_rnd]
  unfold signed units at h
  cases s <;> cases hs : sgn c <;> simp only [hs, if_true, if_false, Bool.false_eq_true] at h ⊢
  · have : n ≤ magUnits (mag c) * d := by exact_mod_cast h
    have := roundUnits_le hd this hm
    omega
  · have h0 : (0 : Int) ≤ n := by positivity
    have h1 : (magUnits (mag c) : Int) * d = 0 := by nlinarith [Int.natCast_nonneg (magUnits (mag c)), Int.natCast_nonneg d]
    have h2 : n = 0 := by have : (n : Int) ≤ 0 := by linarith
                          omega
    have h3 : magUnits (mag c) = 0 := by
      have : magUnits (mag c) * d = 0 := by exact_mod_cast h1
      rcases Nat.mul_eq_zero.1 this with h | h <;> omega
    have h4 : mag c ≤ 0 := (magUnits_le_iff hm (by norm_num)).1 (by rw [h3]; exact Nat.zero_le _)
    rw [h2, roundUnits_zero hd]; omega
  · omega
  · have : magUnits (mag c) * d ≤ n := by
      have : (magUnits (mag c) : Int) * d ≤ n := by linarith
      exact_mod_cast this
    have := le_roundUnits hd this hm
    omega

/-- A result whose exact value is at least a finite value is at least it. -/
theorem le_rnd {s : Bool} {n d : Nat} {c : F32} (hd : 0 < d) (hc : finite c = true) (h : units c * d ≤ signed s n) :
    fle c (rnd s n d) = true := by
  have e : signed (!s) n ≤ units (neg c) * d := by
    have : signed (!s) n = -signed s n := by cases s <;> simp [signed]
    rw [this, units_neg]; linarith
  have h1 := rnd_le (c := neg c) hd (by simpa using hc) e
  rw [fle_iff] at h1 ⊢
  refine ⟨not_isNaN_of_finite hc, isNaN_rnd _ _ _, ?_⟩
  have e2 : key (rnd (!s) n d) = -key (rnd s n d) := by unfold key; cases s <;> simp
  rw [e2, key_neg] at h1
  omega

/-! ### The four operations on finite values -/

theorem fadd_finite {a b : F32} (ha : finite a = true) (hb : finite b = true) :
    ∃ s : Bool, fadd a b = rnd s (units a + units b).natAbs 1 ∧ signed s (units a + units b).natAbs = units a + units b := by
  refine ⟨if units a + units b = 0 then sgn a && sgn b else decide (units a + units b < 0), ?_, ?_⟩
  · simp only [fadd, addAs, not_isNaN_of_finite ha, not_isNaN_of_finite hb, not_isInf_of_finite ha, not_isInf_of_finite hb]
    simp
  · unfold signed
    by_cases h0 : units a + units b = 0
    · rw [h0]; simp
    · rw [if_neg h0]
      by_cases h : units a + units b < 0
      · simp only [h, decide_true, if_true]; omega
      · simp only [h, decide_false, Bool.false_eq_true, if_false]; omega

theorem fsub_finite {a b : F32} (ha : finite a = true) (hb : finite b = true) :
    ∃ s : Bool, fsub a b = rnd s (units a - units b).natAbs 1 ∧ signed s (units a - units b).natAbs = units a - units b := by
  have hb' : finite (neg b) = true := by simpa using hb
  obtain ⟨s, h1, h2⟩ := fadd_finite ha hb'
  rw [units_neg, ← sub_eq_add_neg] at h1 h2
  refine ⟨s, ?_, h2⟩
  rw [← h1]
  simp [fsub, fadd, addAs, not_isNaN_of_finite ha, not_isNaN_of_finite hb, not_isInf_of_finite ha, not_isInf_of_finite hb]

theorem fmul_finite {a b : F32} (ha : finite a = true) (hb : finite b = true) :
    fmul a b = rnd (sgn a != sgn b) (magUnits (mag a) * magUnits (mag b)) one149 := by
  simp [fmul, not_isNaN_of_finite ha, not_isNaN_of_finite hb, not_isInf_of_finite ha, not_isInf_of_finite hb]

theorem signed_mul (a b : F32) : signed (sgn a != sgn b) (magUnits (mag a) * magUnits (mag b)) = units a * units b := by
  unfold signed units; cases sgn a <;> cases sgn b <;> simp

theorem fdiv_finite {a b : F32} (ha : finite a = true) (hb : finite b = true) (h0 : isZero b = false) :
    fdiv a b = rnd (sgn a != sgn b) (magUnits (mag a) * one149) (magUnits (mag b)) := by
  simp [fdiv, not_isNaN_of_finite ha, not_isNaN_of_finite hb, not_isInf_of_finite ha, not_isInf_of_finite hb, h0]

theorem magUnits_pos {m : Nat} (h : 0 < m) (hm : m ≤ infMag) : 0 < magUnits m := by
  have := magUnits_le_iff hm (show 0 ≤ infMag by norm_num)
  have z : magUnits 0 = 0 := by decide
  rw [z] at this; omega

theorem one149_pos : 0 < one149 := by unfold one149; positivity

/-- A sum between two finite values stays between them. -/
theorem fadd_between {a b lo hi : F32} (ha : finite a = true) (hb : finite b = true) (hlo : finite lo = true) (hhi : finite hi = true)
    (h1 : units lo ≤ units a + units b) (h2 : units a + units b ≤ units hi) :
    fle lo (fadd a b) = true ∧ fle (fadd a b) hi = true := by
  obtain ⟨s, e, hs⟩ := fadd_finite ha hb
  rw [e]
  exact ⟨le_rnd (by norm_num) hlo (by rw [hs]; simpa using h1), rnd_le (by norm_num) hhi (by rw [hs]; simpa using h2)⟩

/-- A difference between two finite values stays between them. -/
theorem fsub_between {a b lo hi : F32} (ha : finite a = true) (hb : finite b = true) (hlo : finite lo = true) (hhi : finite hi = true)
    (h1 : units lo ≤ units a - units b) (h2 : units a - units b ≤ units hi) :
    fle lo (fsub a b) = true ∧ fle (fsub a b) hi = true := by
  obtain ⟨s, e, hs⟩ := fsub_finite ha hb
  rw [e]
  exact ⟨le_rnd (by norm_num) hlo (by rw [hs]; simpa using h1), rnd_le (by norm_num) hhi (by rw [hs]; simpa using h2)⟩

/-- A product between two finite values stays between them. -/
theorem fmul_between {a b lo hi : F32} (ha : finite a = true) (hb : finite b = true) (hlo : finite lo = true) (hhi : finite hi = true)
    (h1 : units lo * one149 ≤ units a * units b) (h2 : units a * units b ≤ units hi * one149) :
    fle lo (fmul a b) = true ∧ fle (fmul a b) hi = true := by
  rw [fmul_finite ha hb]
  exact ⟨le_rnd one149_pos hlo (by rw [signed_mul]; exact h1), rnd_le one149_pos hhi (by rw [signed_mul]; exact h2)⟩

/-- A quotient by a positive value, between two finite values, stays between them. -/
theorem fdiv_between {a b lo hi : F32} (ha : finite a = true) (hb : finite b = true) (hpos : 0 < units b)
    (hlo : finite lo = true) (hhi : finite hi = true)
    (h1 : units lo * units b ≤ units a * one149) (h2 : units a * one149 ≤ units hi * units b) :
    fle lo (fdiv a b) = true ∧ fle (fdiv a b) hi = true := by
  have hs : sgn b = false := by
    by_contra h
    have : sgn b = true := by simpa using h
    unfold units at hpos; rw [this] at hpos; simp only [if_true] at hpos; omega
  have hu : units b = magUnits (mag b) := by simp [units, hs]
  have hp : 0 < magUnits (mag b) := by rw [hu] at hpos; exact_mod_cast hpos
  have h0 : isZero b = false := by
    by_contra h
    have : mag b = 0 := isZero_iff.1 (by simpa using h)
    rw [this] at hp; revert hp; decide
  have he : signed (sgn a != sgn b) (magUnits (mag a) * one149) = units a * one149 := by
    rw [hs]; unfold signed units; cases sgn a <;> simp
  rw [fdiv_finite ha hb h0]
  rw [hu] at h1 h2
  exact ⟨le_rnd hp hlo (by rw [he]; exact h1), rnd_le hp hhi (by rw [he]; exact h2)⟩

end Sys2Proof.Fp
end

