-- ==== Sys2Proof/Laws/Integers.lean ====
section
/-! SUPPORT. Integers and binary32 values: an integer below `2^24` converts exactly, and the floor of a value between two such
integers lies between them. -/

namespace Sys2Proof.Fp

/-- Every whole number below `2^24` is the magnitude of a pattern. -/
theorem exists_magUnits {n : Nat} (h : n < 2 ^ 24) : ∃ m, m < infMag ∧ magUnits m = n * one149 := by
  rcases Nat.eq_zero_or_pos n with rfl | hpos
  · exact ⟨0, by norm_num, by simp [magUnits]⟩
  · have hne : n ≠ 0 := by omega
    have hlo := Nat.log2_self_le hne
    have hhi := Nat.lt_log2_self (n := n)
    have he : n.log2 ≤ 23 := by
      by_contra hc
      have : 2 ^ 24 ≤ 2 ^ n.log2 := Nat.pow_le_pow_right (by norm_num) (by omega)
      omega
    generalize hl : n.log2 = e at *
    have hsplit : 2 ^ e * 2 ^ (23 - e) = 2 ^ 23 := by rw [← pow_add]; congr 1; omega
    have h1 : 2 ^ 23 ≤ n * 2 ^ (23 - e) := by rw [← hsplit]; exact Nat.mul_le_mul_right _ hlo
    have h2 : n * 2 ^ (23 - e) < 2 ^ 24 := by
      have : n * 2 ^ (23 - e) < 2 ^ (e + 1) * 2 ^ (23 - e) := Nat.mul_lt_mul_of_pos_right hhi (by positivity)
      rw [pow_succ, mul_comm (2 ^ e), mul_assoc, hsplit] at this
      omega
    refine ⟨(127 + e) * 2 ^ 23 + (n * 2 ^ (23 - e) - 2 ^ 23), by simp only [infMag]; omega, ?_⟩
    have hd : ((127 + e) * 2 ^ 23 + (n * 2 ^ (23 - e) - 2 ^ 23)) / 2 ^ 23 = 127 + e := by omega
    have hm : ((127 + e) * 2 ^ 23 + (n * 2 ^ (23 - e) - 2 ^ 23)) % 2 ^ 23 = n * 2 ^ (23 - e) - 2 ^ 23 := by omega
    have hexp : 23 - e + (127 + e - 1) = 149 := by omega
    unfold magUnits one149
    rw [if_neg (by omega), hd, hm, Nat.sub_add_cancel h1, mul_assoc, ← pow_add, hexp]

theorem mag_itof {n : Nat} (h : n < 2 ^ 24) : mag (itof n) < infMag ∧ magUnits (mag (itof n)) = n * one149 := by
  obtain ⟨m, hm, e⟩ := exists_magUnits h
  unfold itof
  rw [mag_rnd, ← e, roundUnits_exact (le_of_lt hm)]
  exact ⟨hm, rfl⟩

@[simp] theorem sgn_itof (n : Nat) : sgn (itof n) = false := sgn_rnd _ _ _

theorem finite_itof {n : Nat} (h : n < 2 ^ 24) : finite (itof n) = true := finite_iff.2 (mag_itof h).1

/-- An integer below `2^24` converts exactly. -/
theorem units_itof {n : Nat} (h : n < 2 ^ 24) : units (itof n) = n * one149 := by
  unfold units; rw [sgn_itof, (mag_itof h).2]; simp

theorem fle_itof {a b : Nat} (h : a ≤ b) (hb : b < 2 ^ 24) : fle (itof a) (itof b) = true := by
  have ha : a < 2 ^ 24 := by omega
  refine fle_iff.2 ⟨not_isNaN_of_finite (finite_itof ha), not_isNaN_of_finite (finite_itof hb), ?_⟩
  rw [← units_le_iff (finite_itof ha) (finite_itof hb), units_itof ha, units_itof hb]
  have : (a : Int) ≤ b := by exact_mod_cast h
  have := one149_pos
  nlinarith

theorem units_nonneg_of_fle {x : F32} (hx : finite x = true) (h : fle plusZero x = true) : 0 ≤ units x := by
  have h0 : finite plusZero = true := by decide
  have := (units_le_iff h0 hx).2 (fle_iff.1 h).2.2
  rwa [units_plusZero] at this

/-- The floor of a finite value that is not negative (R13). -/
theorem floorI_eq {x : F32} (hx : finite x = true) (h : 0 ≤ units x) : (floorI x : Int) = units x / one149 := by
  unfold floorI units at *
  cases hs : sgn x
  · simp [hx]
  · rw [hs] at h
    simp only [if_true] at h ⊢
    have : magUnits (mag x) = 0 := by omega
    simp [this]

/-- The floor of a value between two integers lies between them. -/
theorem floorI_between {x : F32} {a b : Nat} (hb : b < 2 ^ 24) (h1 : fle (itof a) x = true) (h2 : fle x (itof b) = true)
    (hab : a ≤ b) : a ≤ floorI x ∧ floorI x ≤ b := by
  have ha : a < 2 ^ 24 := by omega
  have hx := finite_of_fle (finite_itof ha) (finite_itof hb) h1 h2
  have u1 := (units_le_iff (finite_itof ha) hx).2 (fle_iff.1 h1).2.2
  have u2 := (units_le_iff hx (finite_itof hb)).2 (fle_iff.1 h2).2.2
  rw [units_itof ha] at u1
  rw [units_itof hb] at u2
  have hp : (0 : Int) < one149 := by exact_mod_cast one149_pos
  have h0 : 0 ≤ units x := le_trans (mul_nonneg (Int.natCast_nonneg a) (le_of_lt hp)) u1
  have e := floorI_eq hx h0
  have l1 : (a : Int) ≤ units x / one149 := (Int.le_ediv_iff_mul_le hp).2 u1
  have l2 : units x / one149 ≤ (b : Int) := Int.ediv_le_of_le_mul hp u2
  omega

/-- A larger value has no smaller floor. -/
theorem floorI_mono {x y : F32} (hx : finite x = true) (hy : finite y = true) (h0 : fle plusZero x = true) (h : fle x y = true) :
    floorI x ≤ floorI y := by
  have hp : (0 : Int) < one149 := by exact_mod_cast one149_pos
  have u0 := units_nonneg_of_fle hx h0
  have u := (units_le_iff hx hy).2 (fle_iff.1 h).2.2
  have e1 := floorI_eq hx u0
  have e2 := floorI_eq hy (le_trans u0 u)
  have := Int.ediv_le_ediv hp u
  omega

end Sys2Proof.Fp
end

