-- ==== Sys2Proof/Laws/Zeros.lean ====
section
/-! SUPPORT. Values in units of `2^-149`, zeros and units: what the operations make of a zero or of 1, and how a bracket in the
order of values becomes one in units. -/

namespace Sys2Proof.Fp

theorem natAbs_units (a : F32) : (units a).natAbs = magUnits (mag a) := by unfold units; split <;> simp

theorem finite_plusZero : finite plusZero = true := by decide
theorem finite_one : finite (lit 1 1) = true := by decide +kernel
theorem units_one : units (lit 1 1) = one149 := by decide +kernel

/-- A value between two finite values is finite, and so are its units between theirs. -/
theorem units_of_fle {x lo hi : F32} (hlo : finite lo = true) (hhi : finite hi = true) (h1 : fle lo x = true) (h2 : fle x hi = true) :
    finite x = true ∧ units lo ≤ units x ∧ units x ≤ units hi := by
  have hx := finite_of_fle hlo hhi h1 h2
  exact ⟨hx, (units_le_iff hlo hx).2 (fle_iff.1 h1).2.2, (units_le_iff hx hhi).2 (fle_iff.1 h2).2.2⟩

theorem units_pos_of_flt {x : F32} (hx : finite x = true) (h : flt plusZero x = true) : 0 < units x := by
  by_contra hc
  have h1 := (units_le_iff hx finite_plusZero).1 (by rw [units_plusZero]; omega)
  have h2 := (flt_iff.1 h).2.2
  omega

theorem sgn_of_units_pos {x : F32} (h : 0 < units x) : sgn x = false := by
  by_contra hc
  simp only [Bool.not_eq_false] at hc
  unfold units at h; rw [hc] at h; simp at h; omega

theorem magUnits_zero : magUnits 0 = 0 := by decide

theorem units_of_isZero {a : F32} (h : isZero a = true) : units a = 0 := by
  unfold units; rw [isZero_iff.1 h, magUnits_zero]; simp

/-- A product with a zero is a zero. -/
theorem isZero_fmul_left {a z : F32} (ha : finite a = true) (hz : isZero z = true) : isZero (fmul z a) = true := by
  rw [fmul_finite (finite_of_isZero hz) ha, isZero_iff, mag_rnd, isZero_iff.1 hz, magUnits_zero, Nat.zero_mul,
    roundUnits_zero one149_pos]

theorem isZero_fmul_right {a z : F32} (ha : finite a = true) (hz : isZero z = true) : isZero (fmul a z) = true := by
  rw [fmul_finite ha (finite_of_isZero hz), isZero_iff, mag_rnd, isZero_iff.1 hz, magUnits_zero, Nat.mul_zero,
    roundUnits_zero one149_pos]

/-- A sum and a difference of zeros are zeros. -/
theorem isZero_fadd {a b : F32} (ha : isZero a = true) (hb : isZero b = true) : isZero (fadd a b) = true := by
  obtain ⟨s, e, -⟩ := fadd_finite (finite_of_isZero ha) (finite_of_isZero hb)
  rw [e, units_of_isZero ha, units_of_isZero hb, isZero_iff, mag_rnd]
  exact roundUnits_zero (by norm_num)

theorem isZero_fsub {a b : F32} (ha : isZero a = true) (hb : isZero b = true) : isZero (fsub a b) = true := by
  obtain ⟨s, e, -⟩ := fsub_finite (finite_of_isZero ha) (finite_of_isZero hb)
  rw [e, units_of_isZero ha, units_of_isZero hb, isZero_iff, mag_rnd]
  exact roundUnits_zero (by norm_num)

/-- A zero over a finite value that is no zero is a zero. -/
theorem isZero_fdiv {a g : F32} (ha : isZero a = true) (hg : finite g = true) (hz : isZero g = false) : isZero (fdiv a g) = true := by
  have hp : 0 < mag g := by
    rcases Nat.eq_zero_or_pos (mag g) with h | h
    · rw [isZero_iff.2 h] at hz; cases hz
    · exact h
  rw [fdiv_finite (finite_of_isZero ha) hg hz, isZero_iff, mag_rnd, isZero_iff.1 ha, magUnits_zero, Nat.zero_mul,
    roundUnits_zero (magUnits_pos hp (le_of_lt (finite_iff.1 hg)))]

/-- A product with 1 is the other factor, bit for bit. -/
theorem fmul_one {a : F32} (ha : finite a = true) : fmul a (lit 1 1) = a := by
  have h1 : magUnits (mag (lit 1 1)) = one149 := by decide +kernel
  have h2 : sgn (lit 1 1) = false := by decide +kernel
  have e : roundUnits 23 infMag (magUnits (mag a) * one149) one149 = mag a := by
    rw [roundUnits_congr (n' := magUnits (mag a)) (d' := 1) one149_pos (by norm_num) (by ring)]
    exact roundUnits_exact (le_of_lt (finite_iff.1 ha))
  rw [fmul_finite ha finite_one, h1, h2, rnd, e]
  simp only [Bool.bne_false]
  exact pack_sgn_mag a

end Sys2Proof.Fp
end

