-- ==== Sys2Proof/Machine/Ideal.lean ====
section
/-! DEFINITION. `NUM_IDEAL` (R15): the real numbers, no rounding, the mathematical functions. Reals are no data a program computes
with, so this instance is for statements only. -/

namespace Sys2Proof

/-- What `NUM_IDEAL` converts a word to that is an infinity or a NaN, which has no exact value: a free value (log entry 27). -/
noncomputable opaque Config.idealNonFinite : BitVec 64 → ℝ

/-- What `NUM_IDEAL` makes of a division by zero, which no rule does (R16) and only an operation presented alone can: a free value
(log entry 27). -/
noncomputable opaque Config.idealByZero : ℝ → ℝ

/-- Magnitude bits of the binary32 value nearest to a real `u >= 0` counted in units of `2^-149`, ties to even (R13, R15): what
`roundUnits` does to a quotient. -/
noncomputable def Fp.roundReal (u : ℝ) : Nat :=
  let shift := ⌊u⌋₊.log2 - 23
  let q := ⌊u / 2 ^ shift⌋₊
  let r := u - q * 2 ^ shift
  let q' := if (2 : ℝ) ^ shift < 2 * r ∨ (2 * r = 2 ^ shift ∧ q % 2 = 1) then q + 1 else q
  min infMag (shift * 2 ^ 23 + q')

/-- The exact value of a finite binary32 word. -/
noncomputable def Fp.toReal (w : Word) : ℝ := Fp.units w / 2 ^ 149

/-- The exact value of a finite binary64 word. -/
noncomputable def Fp.toReal64 (w : BitVec 64) : ℝ :=
  let m := w.toNat % 2 ^ 63
  (if w.getLsbD 63 then -1 else 1) *
    ((if m < 2 ^ 52 then m else (m % 2 ^ 52 + 2 ^ 52) * 2 ^ (m / 2 ^ 52 - 1) : ℕ) / 2 ^ 1074)

/-- `NUM_IDEAL` (R15). `lpA` is the coefficient of R146. -/
noncomputable def Numerics.ideal : Numerics ℝ where
  denotes x r := x = r
  rnd s n d := (if s then -1 else 1) * (n / d)
  fadd := (· + ·)
  fsub := (· - ·)
  fmul := (· * ·)
  fdiv x y := if y = 0 then Config.idealByZero x else x / y
  floorI x := ⌊x⌋₊
  flt x y := decide (x < y)
  feq x y := decide (x = y)
  finite _ := true
  isNaN _ := false
  neg x := -x
  cvt64 w := if w.toNat % 2 ^ 63 < 0x7FF0000000000000 then Fp.toReal64 w else Config.idealNonFinite w
  cvt32 w := if Fp.finite w then Fp.toReal w else Config.idealNonFinite (w.zeroExtend 64)
  enc32 x := Fp.pack (decide (x < 0)) (Fp.roundReal (|x| * 2 ^ 149))
  tanh := Real.tanh
  sin := Real.sin
  pow10 x := 10 ^ x
  lpA fc fs := 1 - Real.exp (-(2 * Real.pi * fc / fs))
  twoPi := 2 * Real.pi

/-- `CFG_T` (section 0 of the test vectors): `NUM_IDEAL` with `lpA` a constant, short base delays, low rates. The two arguments are
what the spec leaves without a value (log entries 17 and 26). -/
noncomputable def Cfg.fixture (shortStoreRead : Nat → ℝ → ℝ) (wideCapacity : Nat → Nat) : Cfg ℝ where
  num := { Numerics.ideal with lpA := fun _ _ => 1 / 2 }
  base
    | .L, .k1 => 2 / 100
    | .L, .k2 => 3 / 100
    | .L, .k3 => 5 / 100
    | .R, .k1 => 3 / 100
    | .R, .k2 => 7 / 100
    | .R, .k3 => 10 / 100
  rate
    | .L => 25
    | .R => 50
  fsMin := { negative := false, num := 100, den := 1 }
  fsMax := { negative := false, num := 192000, den := 1 }
  monoSource := .left
  idxW := 16
  shortStoreRead := shortStoreRead
  wideCapacity := wideCapacity

end Sys2Proof
end

