-- ==== Sys2Proof/Laws/Config.lean ====
section
/-! SUPPORT. Configurations: the fixed names of the package are the model under the hardware's configuration, and the configurations
the package names meet the constraints of R8 and R17. -/

namespace Sys2Proof.Machine

open Fp

/-- `exec` is the model's meaning under the hardware's configuration. -/
theorem execOf_block (i : Instr) (s : State) : execOf Config.block i s = exec i s := by cases i <;> rfl

/-- The host's core is the model under the hardware's configuration. -/
theorem machine_block : machine Config.block = Sys2Proof.core := by
  have h : execOf Config.block = exec := funext fun i => funext fun s => execOf_block i s
  unfold machine
  rw [h, State.powerOn_block]
  rfl

/-! ### The hardware's configuration -/

/-- No base delay exceeds 0.3383125 s, the most that R8 admits at 192000 Hz. -/
theorem mag_base_le (s : Str) (k : Stage) : mag (Config.tuning.base s k) ≤ 0x3EAD374B := by
  by_contra hc
  have hf := finite_iff.1 (Config.tuning.base_pos s k).1
  have hm := magUnits_mono (show 0x3EAD374C ≤ mag (Config.tuning.base s k) by omega) (by omega)
  have hfit := Config.tuning.base_fits s k
  have hb : 64956 * one149 ≤ magUnits 0x3EAD374C * 192000 := by decide +kernel
  have : 64956 ≤ magUnits (mag (Config.tuning.base s k)) * 192000 / one149 :=
    (Nat.le_div_iff_mul_le one149_pos).2 (hb.trans (Nat.mul_le_mul_right _ hm))
  simp only [Config.idxWidth] at hfit
  omega

/-- A base delay in units of `2^-149`. -/
theorem units_base_pos (s : Str) (k : Stage) : 0 < units (Config.tuning.base s k) :=
  units_pos_of_flt (Config.tuning.base_pos s k).1 (Config.tuning.base_pos s k).2

/-- A base delay in samples at 192000 Hz, as binary32 rounds it, is below 64956: every capacity fits. -/
theorem base_samples_fit (s : Str) (k : Stage) :
    finite (fmul (Config.tuning.base s k) Config.fsMax) = true ∧ floorI (fmul (Config.tuning.base s k) Config.fsMax) ≤ 64955 := by
  have hf := (Config.tuning.base_pos s k).1
  have h0 := units_base_pos s k
  have fM : finite Config.fsMax = true := by decide +kernel
  have uM : units Config.fsMax = 192000 * (one149 : Int) := by decide +kernel
  have fc : finite 0x477DBBFF#32 = true := by decide +kernel
  have hp : (0 : Int) < one149 := by exact_mod_cast one149_pos
  have hle : units (Config.tuning.base s k) ≤ magUnits 0x3EAD374B := by
    have := magUnits_mono (mag_base_le s k) (by decide +kernel)
    have hn := natAbs_units (Config.tuning.base s k)
    omega
  have htop : (magUnits 0x3EAD374B : Int) * (192000 * one149) ≤ units 0x477DBBFF#32 * one149 := by decide +kernel
  have hb := fmul_between (lo := plusZero) (hi := 0x477DBBFF#32) hf fM finite_plusZero fc
    (by rw [units_plusZero, uM]; nlinarith)
    (by rw [uM]; exact (mul_le_mul_of_nonneg_right hle (by omega)).trans htop)
  have hfin := finite_of_fle finite_plusZero fc hb.1 hb.2
  exact ⟨hfin, (floorI_mono hfin fc hb.1 hb.2).trans (by decide +kernel)⟩

/-- The functions of the block have the named properties (R17). -/
theorem block_named : Config.block.num.Named where
  tanh_zero := Config.functions.tanh_zero
  tanh_odd := Config.functions.tanh_odd
  tanh_mono x y := by rw [block_fle, block_fle]; exact Config.functions.tanh_mono x y
  tanh_bound x := by rw [block_fle, block_fle]; exact Config.functions.tanh_bound x
  sin_bound x := by rw [block_fle, block_fle]; exact Config.functions.sin_bound x
  sin_zero := Config.functions.sin_zero
  pow10_range x := by rw [block_fle, block_fle, block_fle]; exact Config.functions.pow10_range x
  pow10_mono x y := by rw [block_fle, block_fle]; exact Config.functions.pow10_mono x y
  lpA_range fc fs := by rw [block_fle]; exact Config.functions.lpA_range fc fs
  lpA_mono fc fc' fs := by rw [block_fle, block_fle]; exact Config.functions.lpA_mono fc fc' fs

/-- The hardware's configuration meets the constraints of R8 and R252. -/
theorem block_valid : Config.block.Valid where
  fs_range := by norm_num [Config.block, Decimal.toReal]
  base_fits s k := by
    have h0 := units_base_pos s k
    have hu : units (Config.tuning.base s k) = magUnits (mag (Config.tuning.base s k)) := by
      have := natAbs_units (Config.tuning.base s k); omega
    refine ⟨_, ⟨(Config.tuning.base_pos s k).1, rfl⟩, by positivity, ?_⟩
    have hfit := Config.tuning.base_fits s k
    have e : (units (Config.tuning.base s k) : ℝ) / 2 ^ 149 * Config.block.fsMax.toReal =
        ((magUnits (mag (Config.tuning.base s k)) * 192000 : ℕ) : ℝ) / ((one149 : ℕ) : ℝ) := by
      rw [hu]; norm_num [Config.block, Decimal.toReal, one149]; ring
    have e2 : 3 * Config.block.fsMax.toReal / 1000 = ((576 : ℕ) : ℝ) := by norm_num [Config.block, Decimal.toReal]
    rw [block_base, e, e2, Nat.floor_div_eq_div, Nat.floor_natCast]
    exact hfit
  rate_range s := by
    obtain ⟨hf, h0, h1⟩ := Config.tuning.rate_range s
    have f0 : finite Config.fsMin = true := by decide +kernel
    have u0 : units Config.fsMin = 8000 * (one149 : Int) := by decide +kernel
    have hk := (flt_iff.1 h1).2.2
    have hlt : units (Config.tuning.rate s) < 8000 * (one149 : Int) := by
      rw [← u0]
      by_contra hc
      have := (units_le_iff f0 hf).1 (by omega)
      omega
    have hge := units_nonneg_of_fle hf h0
    refine ⟨_, ⟨hf, rfl⟩, by positivity, ?_⟩
    have : (units (Config.tuning.rate s) : ℝ) < 8000 * 2 ^ 149 := by
      have : ((units (Config.tuning.rate s) : ℤ) : ℝ) < ((8000 * (one149 : ℤ) : ℤ) : ℝ) := by exact_mod_cast hlt
      norm_num [one149] at this ⊢
      exact this
    rw [div_lt_iff₀ (by positivity)]
    norm_num [Config.block, Decimal.toReal] at this ⊢
    exact this
  sizes_fit := by norm_num [Config.block, Decimal.toReal, Nat.floor_lt', Nat.floor_eq_iff]
  named := block_named

/-! ### `NUM_IDEAL` -/

/-- The hyperbolic tangent does not fall. -/
theorem tanh_monotone : Monotone Real.tanh := by
  intro x y h
  rw [Real.tanh_eq_sinh_div_cosh, Real.tanh_eq_sinh_div_cosh, div_le_div_iff₀ (Real.cosh_pos x) (Real.cosh_pos y)]
  have := Real.sinh_sub x y
  have h2 : Real.sinh (x - y) ≤ 0 := by rw [← Real.sinh_zero]; exact Real.sinh_le_sinh.2 (by linarith)
  linarith

/-- What `a <= b` is under `NUM_IDEAL`. -/
theorem ideal_fle (a b : ℝ) : Numerics.ideal.fle a b = true ↔ a ≤ b := by
  simp [Numerics.fle, Numerics.ideal, le_iff_lt_or_eq]

/-- `NUM_IDEAL` with another `lpA` of the properties of R17 has the named properties. -/
theorem ideal_named (lpA : ℝ → ℝ → ℝ) (hr : ∀ fc fs, 0 < fc → 0 < fs → 0 < lpA fc fs ∧ lpA fc fs ≤ 1)
    (hm : ∀ fc fc' fs, 0 < fc → 0 < fs → fc ≤ fc' → lpA fc fs ≤ lpA fc' fs) :
    ({ Numerics.ideal with lpA := lpA } : Numerics ℝ).Named where
  tanh_zero := Real.tanh_zero
  tanh_odd x _ := Real.tanh_neg x
  tanh_mono x y h := (ideal_fle _ _).2 (tanh_monotone ((ideal_fle _ _).1 h))
  tanh_bound x _ := by
    refine ⟨(ideal_fle _ _).2 ?_, (ideal_fle _ _).2 ?_⟩
    · simpa [Numerics.ideal] using (Real.neg_one_lt_tanh x).le
    · simpa [Numerics.ideal, Numerics.lit] using (Real.tanh_lt_one x).le
  sin_bound x _ := by
    refine ⟨(ideal_fle _ _).2 ?_, (ideal_fle _ _).2 ?_⟩
    · simpa [Numerics.ideal] using Real.neg_one_le_sin x
    · simpa [Numerics.ideal, Numerics.lit] using Real.sin_le_one x
  sin_zero := Real.sin_zero
  pow10_range x _ h := by
    refine ⟨(ideal_fle _ _).2 ?_, (ideal_fle _ _).2 ?_⟩
    · exact Real.rpow_nonneg (by norm_num) x
    · simpa [Numerics.ideal, Numerics.lit] using
        Real.rpow_le_one_of_one_le_of_nonpos (by norm_num : (1 : ℝ) ≤ 10) ((ideal_fle _ _).1 h)
  pow10_mono x y _ _ h :=
    (ideal_fle _ _).2 (Real.rpow_le_rpow_of_exponent_le (by norm_num : (1 : ℝ) ≤ 10) ((ideal_fle _ _).1 h))
  lpA_range fc fs _ _ h h' := by
    have := hr fc fs (by simpa [Numerics.ideal] using h) (by simpa [Numerics.ideal] using h')
    exact ⟨by simpa [Numerics.ideal] using this.1, (ideal_fle _ _).2 (by simpa [Numerics.ideal, Numerics.lit] using this.2)⟩
  lpA_mono fc fc' fs _ _ _ h h' hle := by
    exact (ideal_fle _ _).2 (hm fc fc' fs (by simpa [Numerics.ideal] using h) (by simpa [Numerics.ideal] using h') ((ideal_fle _ _).1 hle))

/-- `NUM_IDEAL` has the named properties (R17). -/
theorem ideal_has_named : Numerics.ideal.Named := by
  refine ideal_named (fun fc fs => 1 - Real.exp (-(2 * Real.pi * fc / fs))) (fun fc fs h h' => ⟨?_, ?_⟩) (fun fc fc' fs _ h hle => ?_)
  · have : 0 < 2 * Real.pi * fc / fs := by positivity
    linarith [Real.exp_lt_one_iff.2 (show -(2 * Real.pi * fc / fs) < 0 by linarith)]
  · linarith [Real.exp_pos (-(2 * Real.pi * fc / fs))]
  · have : 2 * Real.pi * fc / fs ≤ 2 * Real.pi * fc' / fs := by gcongr
    linarith [Real.exp_le_exp.2 (show -(2 * Real.pi * fc' / fs) ≤ -(2 * Real.pi * fc / fs) by linarith)]

/-- Rounding a real that is a quotient of naturals is rounding the quotient. -/
theorem roundReal_div (n : Nat) {d : Nat} (hd : 0 < d) : roundReal ((n : ℝ) / d) = roundUnits 23 infMag n d := by
  have hr : (0 : ℝ) < d := by exact_mod_cast hd
  simp only [roundReal, roundUnits, Nat.floor_div_eq_div]
  generalize (n / d).log2 - 23 = k
  have hq : ⌊(n : ℝ) / d / 2 ^ k⌋₊ = n / (d * 2 ^ k) := by
    rw [div_div, show (d : ℝ) * 2 ^ k = ((d * 2 ^ k : ℕ) : ℝ) by push_cast; ring, Nat.floor_div_eq_div]
  have hn : (n : ℝ) / d - (n / (d * 2 ^ k) : ℕ) * 2 ^ k = (n % (d * 2 ^ k) : ℕ) / d := by
    have h : ((n / (d * 2 ^ k) : ℕ) : ℝ) * (d * 2 ^ k) + (n % (d * 2 ^ k) : ℕ) = n := by exact_mod_cast Nat.div_add_mod' n (d * 2 ^ k)
    rw [eq_div_iff hr.ne', sub_mul, div_mul_cancel₀ _ hr.ne']; linarith
  rw [hq, hn]
  have h1 : (2 : ℝ) ^ k < 2 * ((n % (d * 2 ^ k) : ℕ) / d) ↔ d * 2 ^ k < 2 * (n % (d * 2 ^ k)) := by
    rw [mul_div_assoc', lt_div_iff₀ hr, mul_comm]; exact_mod_cast Iff.rfl
  have h2 : 2 * ((n % (d * 2 ^ k) : ℕ) / (d : ℝ)) = 2 ^ k ↔ 2 * (n % (d * 2 ^ k)) = d * 2 ^ k := by
    rw [mul_div_assoc', div_eq_iff hr.ne', mul_comm ((2 : ℝ) ^ k)]; exact_mod_cast Iff.rfl
  simp only [h1, h2]

/-- `NUM_IDEAL.enc32` of a quotient is the binary32 value that `NUM_B32` rounds it to. -/
theorem ideal_enc32 (n : Nat) {d : Nat} (hd : 0 < d) : Numerics.ideal.enc32 ((n : ℝ) / d) = rnd false (n * one149) d := by
  have h0 : (0 : ℝ) ≤ (n : ℝ) / d := by positivity
  have e : |(n : ℝ) / d| * 2 ^ 149 = ((n * one149 : ℕ) : ℝ) / d := by rw [abs_of_nonneg h0, one149]; push_cast; ring
  show pack (decide ((n : ℝ) / d < 0)) (roundReal (|(n : ℝ) / d| * 2 ^ 149)) = _
  rw [e, roundReal_div _ hd, decide_eq_false (not_lt.2 h0)]
  rfl

/-- `CFG_T` meets the constraints of R8, R17 and R252 (section 0 of the test vectors). -/
theorem fixture_valid (sr : Nat → ℝ → ℝ) (wc : Nat → Nat) : (Cfg.fixture sr wc).Valid where
  fs_range := by norm_num [Cfg.fixture, Decimal.toReal]
  base_fits s k := by
    have hM : (Cfg.fixture sr wc).fsMax.toReal = 192000 := by norm_num [Cfg.fixture, Decimal.toReal]
    refine ⟨_, rfl, ?_, ?_⟩
    · cases s <;> cases k <;> norm_num [Cfg.fixture]
    · rw [hM]
      cases s <;> cases k <;> norm_num [Cfg.fixture]
  rate_range s := by
    refine ⟨_, rfl, ?_, ?_⟩ <;> cases s <;> norm_num [Cfg.fixture, Decimal.toReal]
  sizes_fit := by norm_num [Cfg.fixture, Decimal.toReal]
  named := ideal_named _ (fun _ _ _ _ => by norm_num) (fun _ _ _ _ _ _ => le_refl _)

end Sys2Proof.Machine
end

