-- ==== Sys2Proof/Laws/Memory.lean ====
section
/-! SUPPORT. Ring memories: what a read after a write finds, that every operation keeps the canonical form, and that equal contents
are equal data. -/

namespace Sys2Proof.Machine

variable {S : Type} [Zero S] [DecidableEq S]

theorem Memory.wf_cons {a : Nat} {v : S} {m : Memory S} :
    Memory.wf ((a, v) :: m) = true ↔ v ≠ 0 ∧ (∀ c ∈ m, a < c.1) ∧ Memory.wf m = true := by
  simp [Memory.wf, and_assoc]

omit [DecidableEq S] in
/-- A cell below all the listed ones reads as `+0`. -/
theorem Memory.read_of_lt {m : Memory S} {a : Nat} (h : ∀ c ∈ m, a < c.1) : Memory.read m a = 0 := by
  induction m with
  | nil => rfl
  | cons c m ih =>
    obtain ⟨b, u⟩ := c
    have hb : a < b := h (b, u) (by simp)
    simp only [Memory.read, if_neg (ne_of_lt hb)]
    exact ih fun c hc => h c (by simp [hc])

/-- A read after a write of the same cell gives the value written. -/
theorem Memory.read_write_self {m : Memory S} (h : Memory.wf m = true) (a : Nat) (v : S) :
    Memory.read (Memory.write m a v) a = v := by
  induction m with
  | nil =>
    by_cases hv : v = 0
    · simp [Memory.write, hv, Memory.read]
    · simp [Memory.write, hv, Memory.read]
  | cons c m ih =>
    obtain ⟨b, u⟩ := c
    obtain ⟨-, hlt, hm⟩ := Memory.wf_cons.1 h
    unfold Memory.write
    rcases lt_trichotomy a b with hab | hab | hab
    · rw [if_pos hab]
      by_cases hv : v = 0
      · rw [if_pos hv, hv]
        refine Memory.read_of_lt fun c hc => ?_
        rcases List.mem_cons.1 hc with rfl | hc
        · exact hab
        · exact lt_trans hab (hlt c hc)
      · rw [if_neg hv]; simp [Memory.read]
    · subst hab
      rw [if_neg (lt_irrefl _), if_pos rfl]
      by_cases hv : v = 0
      · rw [if_pos hv, hv]; exact Memory.read_of_lt hlt
      · rw [if_neg hv]; simp [Memory.read]
    · rw [if_neg (by omega), if_neg (by omega)]
      simp only [Memory.read, if_neg (show a ≠ b by omega)]
      exact ih hm

/-- A write leaves every other cell alone. -/
theorem Memory.read_write_ne (m : Memory S) {a a' : Nat} (v : S) (h : a' ≠ a) :
    Memory.read (Memory.write m a v) a' = Memory.read m a' := by
  induction m with
  | nil => by_cases hv : v = 0 <;> simp [Memory.write, hv, Memory.read, h]
  | cons c m ih =>
    obtain ⟨b, u⟩ := c
    unfold Memory.write
    split
    · split
      · rfl
      · simp [Memory.read, h]
    · split
      · rename_i hab; subst hab
        split <;> simp [Memory.read, h]
      · simp only [Memory.read, ih]

/-- What every cell reads after a write. -/
theorem Memory.read_write {m : Memory S} (h : Memory.wf m = true) (a : Nat) (v : S) (a' : Nat) :
    Memory.read (Memory.write m a v) a' = if a' = a then v else Memory.read m a' := by
  by_cases e : a' = a
  · rw [if_pos e, e]; exact Memory.read_write_self h a v
  · rw [if_neg e]; exact Memory.read_write_ne m v e

/-- A write lists no cell but the ones listed before and the one written. -/
theorem Memory.mem_write {m : Memory S} {a : Nat} {v : S} {c : Nat × S} (h : c ∈ Memory.write m a v) : c = (a, v) ∨ c ∈ m := by
  induction m with
  | nil =>
    unfold Memory.write at h
    split at h
    · simp at h
    · left; simpa using h
  | cons d m ih =>
    obtain ⟨b, u⟩ := d
    unfold Memory.write at h
    split at h
    · split at h
      · exact Or.inr h
      · rcases List.mem_cons.1 h with h | h
        · exact Or.inl h
        · exact Or.inr h
    · split at h
      · split at h
        · exact Or.inr (by simp [h])
        · rcases List.mem_cons.1 h with h | h
          · exact Or.inl h
          · exact Or.inr (by simp [h])
      · rcases List.mem_cons.1 h with h | h
        · exact Or.inr (by simp [h])
        · rcases ih h with h | h
          · exact Or.inl h
          · exact Or.inr (by simp [h])

/-- A write keeps the canonical form. -/
theorem Memory.wf_write {m : Memory S} (h : Memory.wf m = true) (a : Nat) (v : S) : Memory.wf (Memory.write m a v) = true := by
  induction m with
  | nil => by_cases hv : v = 0 <;> simp [Memory.write, Memory.wf, hv]
  | cons c m ih =>
    obtain ⟨b, u⟩ := c
    obtain ⟨hu, hlt, hm⟩ := Memory.wf_cons.1 h
    unfold Memory.write
    rcases lt_trichotomy a b with hab | hab | hab
    · rw [if_pos hab]
      by_cases hv : v = 0
      · rw [if_pos hv]; exact h
      · rw [if_neg hv]
        refine Memory.wf_cons.2 ⟨hv, fun c hc => ?_, h⟩
        rcases List.mem_cons.1 hc with rfl | hc
        · exact hab
        · exact lt_trans hab (hlt c hc)
    · subst hab
      rw [if_neg (lt_irrefl _), if_pos rfl]
      by_cases hv : v = 0
      · rw [if_pos hv]; exact hm
      · rw [if_neg hv]; exact Memory.wf_cons.2 ⟨hv, hlt, hm⟩
    · rw [if_neg (by omega), if_neg (by omega)]
      refine Memory.wf_cons.2 ⟨hu, fun c hc => ?_, ih hm⟩
      rcases Memory.mem_write hc with rfl | hc
      · exact hab
      · exact hlt c hc

/-- Two canonical memories that read alike everywhere are the same list. -/
theorem Memory.ext_read {m m' : Memory S} (h : Memory.wf m = true) (h' : Memory.wf m' = true)
    (heq : ∀ a, Memory.read m a = Memory.read m' a) : m = m' := by
  induction m generalizing m' with
  | nil =>
    cases m' with
    | nil => rfl
    | cons d m' =>
      obtain ⟨b, u⟩ := d
      obtain ⟨hu, -, -⟩ := Memory.wf_cons.1 h'
      have := heq b
      simp only [Memory.read, if_true] at this
      exact absurd this.symm hu
  | cons c m ih =>
    obtain ⟨a, v⟩ := c
    obtain ⟨hv, hlt, hm⟩ := Memory.wf_cons.1 h
    cases m' with
    | nil =>
      have := heq a
      simp only [Memory.read, if_true] at this
      exact absurd this hv
    | cons d m' =>
      obtain ⟨b, u⟩ := d
      obtain ⟨hu, hlt', hm'⟩ := Memory.wf_cons.1 h'
      have hab : a = b := by
        rcases lt_trichotomy a b with e | e | e
        · have h1 := heq a
          rw [Memory.read_of_lt (m := (b, u) :: m')] at h1
          · simp only [Memory.read, if_true] at h1; exact absurd h1 hv
          · intro c hc
            rcases List.mem_cons.1 hc with rfl | hc
            · exact e
            · exact lt_trans e (hlt' c hc)
        · exact e
        · have h1 := heq b
          rw [Memory.read_of_lt (m := (a, v) :: m)] at h1
          · simp only [Memory.read, if_true] at h1; exact absurd h1.symm hu
          · intro c hc
            rcases List.mem_cons.1 hc with rfl | hc
            · exact e
            · exact lt_trans e (hlt c hc)
      subst hab
      have hvu : v = u := by have := heq a; simpa [Memory.read] using this
      subst hvu
      congr 1
      refine ih hm hm' fun x => ?_
      by_cases hx : x = a
      · subst hx; rw [Memory.read_of_lt hlt, Memory.read_of_lt hlt']
      · have := heq x; simpa [Memory.read, hx] using this

omit [DecidableEq S] in
/-- A cell whose value every listed cell has, and `+0` has, reads as such. -/
theorem Memory.read_of_all {p : S → Prop} {m : Memory S} (h : ∀ c ∈ m, p c.2) (h0 : p 0) (a : Nat) : p (Memory.read m a) := by
  induction m with
  | nil => exact h0
  | cons c m ih =>
    obtain ⟨b, u⟩ := c
    unfold Memory.read
    split
    · exact h (b, u) (by simp)
    · exact ih fun c hc => h c (by simp [hc])

/-- The memories of `State.reset` are canonical: they list nothing. -/
theorem reset_memory_wf (id : StoreId) : Memory.wf (State.reset.store id).cells = true := by
  rcases id with c | ⟨s, k⟩
  · cases c <;> rfl
  · cases s <;> cases k <;> rfl

end Sys2Proof.Machine
end

