-- ==== Sys2Proof/Laws/Ops.lean ====
section
/-! SUPPORT. What each shared operation can do, said once: the delay stores, the snapshots of the latch, the acceptance of a command,
the datapath's turn and the step. -/

namespace Sys2Proof.Machine

open Fp

/-! ### Outcomes -/

@[simp] theorem next_inj {s t : State} :
    (Host.Outcome.next s : Host.Outcome State Fault Refusal) = .next t ↔ s = t :=
  ⟨fun h => by injection h, fun h => by rw [h]⟩

/-- An accepted command finds the block idle. -/
theorem accept_eq_next {σ t : State} {k : Host.Outcome State Fault Refusal} :
    accept σ k = .next t ↔ σ.seq.run = false ∧ k = .next t := by
  unfold accept; cases σ.seq.run <;> simp

theorem accept_idle {σ : State} (k : Host.Outcome State Fault Refusal) (h : σ.seq.run = false) : accept σ k = k := by
  unfold accept; rw [h]; rfl

theorem accept_running {σ : State} (k : Host.Outcome State Fault Refusal) (h : σ.seq.run = true) :
    accept σ k = .refused .commandWhileRunning := by unfold accept; rw [h]; rfl

/-! ### Delay stores -/

theorem storeOk_iff {st : Store} :
    storeOk st = true ↔ 3 ≤ st.cap ∧ st.wr < st.cap ∧ Memory.wf st.cells = true ∧ ∀ c ∈ st.cells, c.1 < st.cap := by
  simp [storeOk, and_assoc]

@[simp] theorem storePrep_cap (m : Nat) (h : Headroom) :
    (storePrep Config.block m h).cap = fitCapacity Config.block (m + Config.headroom h) := rfl
@[simp] theorem storePrep_wr (m : Nat) (h : Headroom) : (storePrep Config.block m h).wr = 0 := rfl
@[simp] theorem storePrep_cells (m : Nat) (h : Headroom) : (storePrep Config.block m h).cells = [] := rfl
@[simp] theorem storeReset_cap (st : Store) : (storeReset st).cap = st.cap := rfl
@[simp] theorem storeReset_wr (st : Store) : (storeReset st).wr = 0 := rfl
@[simp] theorem storeReset_cells (st : Store) : (storeReset st).cells = [] := rfl
@[simp] theorem storeWrite_cap (st : Store) (v : F32) : (storeWrite st v).cap = st.cap := rfl
@[simp] theorem storeWrite_wr (st : Store) (v : F32) : (storeWrite st v).wr = (st.wr + 1) % st.cap := rfl
@[simp] theorem storeWrite_cells (st : Store) (v : F32) : (storeWrite st v).cells = Memory.write st.cells st.wr v := rfl
@[simp] theorem Memory.read_nil (a : Nat) : Memory.read ([] : Memory) a = plusZero := rfl

theorem headroom_ge (h : Headroom) : 2 ≤ Config.headroom h := by cases h <;> decide

/-- `RB.PREP` leaves a store in order. -/
theorem storeOk_prep {m : Nat} (hm : 1 ≤ m) (h : Headroom) : storeOk (storePrep Config.block m h) = true := by
  have := fitCapacity_ge (show 3 ≤ m + Config.headroom h by have := headroom_ge h; omega)
  rw [storeOk_iff]; simp [Memory.wf]; omega

/-- `RB.RESET` keeps a store in order. -/
theorem storeOk_reset {st : Store} (h : storeOk st = true) : storeOk (storeReset st) = true := by
  rw [storeOk_iff] at *; simp [Memory.wf]; omega

/-- What `RB.WRITE` does to a store in order: it stays so, and reads as before but for the cell at the old cursor. -/
theorem storeWrite_spec {st : Store} (h : storeOk st = true) (v : F32) :
    storeOk (storeWrite st v) = true ∧
      ∀ a, Memory.read (storeWrite st v).cells a = if a = st.wr then v else Memory.read st.cells a := by
  obtain ⟨hc, hw, hwf, hin⟩ := storeOk_iff.1 h
  refine ⟨storeOk_iff.2 ⟨hc, Nat.mod_lt _ (by omega), Memory.wf_write hwf _ _, fun c hm => ?_⟩,
    fun a => Memory.read_write hwf _ _ _⟩
  rcases Memory.mem_write hm with rfl | hm
  · exact hw
  · exact hin c hm

/-- Every tap index is inside the store. -/
theorem tapIndex_lt {st : Store} (h : 0 < st.cap) (k : Int) : tapIndex st k < st.cap := by
  have h1 : (0 : Int) < st.cap := by exact_mod_cast h
  have h2 := Int.emod_lt_of_pos ((st.wr : Int) - 1 - k) h1
  have h3 := Int.emod_nonneg ((st.wr : Int) - 1 - k) (ne_of_gt h1)
  unfold tapIndex
  omega

/-- A tap index without the residue, for an age below the capacity. -/
theorem tapIndex_eq {st : Store} (hw : st.wr < st.cap) {k : Nat} (hk : k < st.cap) :
    tapIndex st k = if k < st.wr then st.wr - 1 - k else st.wr + st.cap - 1 - k := by
  unfold tapIndex
  split
  · rw [Int.emod_eq_of_lt (by omega) (by omega)]; omega
  · have : ((st.wr : Int) - 1 - k) = ((st.wr : Int) - 1 - k + st.cap) - st.cap := by ring
    rw [this, Int.sub_emod_right, Int.emod_eq_of_lt (by omega) (by omega)]; omega

theorem clampi_eq {n lo hi : Int} (h : lo ≤ hi) : clampi n lo hi = max lo (min n hi) := by
  unfold clampi; split
  · omega
  · split <;> omega

/-- `RB.RDI` is a tap at the clamped delay. -/
theorem storeReadInt_eq {st : Store} (h : 3 ≤ st.cap) (d : Int) (ord : Order) :
    storeReadInt st d ord = tap st (max 1 (min d ((st.cap : Int) - 2)) - orderShift ord) := by
  unfold storeReadInt; rw [clampi_eq (by omega)]

/-- What holds for each of the eight stores holds for all. -/
theorem forall_storeId {p : StoreId → Prop} (h1 : p (.pd .c0)) (h2 : p (.pd .c1)) (h3 : p (.ap .L .k1)) (h4 : p (.ap .L .k2))
    (h5 : p (.ap .L .k3)) (h6 : p (.ap .R .k1)) (h7 : p (.ap .R .k2)) (h8 : p (.ap .R .k3)) : ∀ id, p id := by
  rintro (c | ⟨s, k⟩)
  · cases c <;> assumption
  · cases s <;> cases k <;> assumption

/-- Putting a store in place changes that store only. -/
theorem sameButStore_setStore (σ : State) (id : StoreId) (st : Store) : sameButStore id σ (σ.setStore id st) := by
  refine ⟨?_, fun id' h => State.store_setStore_ne σ st h⟩
  revert id
  apply forall_storeId <;> simp [sameButStores, blankStores, State.setStore, Pair.set, blankString, strOf]

@[simp] theorem State.setStore_setStore (σ : State) (id : StoreId) (a b : Store) :
    (σ.setStore id a).setStore id b = σ.setStore id b := by
  revert id
  apply forall_storeId <;> simp [State.setStore, Pair.set, Stages.set, strOf]

@[simp] theorem State.setStore_store_self (σ : State) (id : StoreId) : σ.setStore id (σ.store id) = σ := by
  revert id
  apply forall_storeId <;> simp [State.setStore, State.store, Pair.set, Stages.set, strOf]

/-- All eight stores are in order exactly when each is (R29). -/
theorem storesOk_iff {σ : State} : storesOk σ = true ↔ ∀ id, storeOk (σ.store id) = true := by
  constructor
  · intro h
    simp only [storesOk, Bool.and_eq_true] at h
    obtain ⟨⟨⟨⟨⟨⟨⟨h1, h2⟩, h3⟩, h4⟩, h5⟩, h6⟩, h7⟩, h8⟩ := h
    exact forall_storeId h1 h2 h3 h4 h5 h6 h7 h8
  · intro h
    simp only [storesOk, Bool.and_eq_true]
    exact ⟨⟨⟨⟨⟨⟨⟨h (.pd .c0), h (.pd .c1)⟩, h (.ap .L .k1)⟩, h (.ap .L .k2)⟩, h (.ap .L .k3)⟩, h (.ap .R .k1)⟩, h (.ap .R .k2)⟩,
      h (.ap .R .k3)⟩

/-! ### The latch's snapshots -/

/-- A snapshot is one of the values held during the latch (R67). -/
theorem snapshot_mem (σ : State) (p : Param) : snapshot σ p ∈ heldDuringLatch σ p := by
  unfold snapshot
  have h : 0 < (heldDuringLatch σ p).length := by simp [heldDuringLatch]
  split
  · rename_i w e; rw [e]; simp
  · have hi := Nat.mod_lt (Config.latchDraw σ.draws (paramIndex p)) h
    rw [List.getD_eq_getElem?_getD, List.getElem?_eq_getElem hi, Option.getD_some]
    exact List.getElem_mem hi

/-- With nothing landing meanwhile a snapshot is the register. -/
theorem snapshot_of_nil {σ : State} (h : σ.racing = []) (p : Param) : snapshot σ p = σ.host.param p := by
  have := snapshot_mem σ p
  simpa [heldDuringLatch, h] using this

/-! ### Steps -/

/-- Everything the datapath's turn can do. -/
theorem datapathTurn_cases (σ : State) :
    (σ.seq.run = false ∧ datapathTurn Config.block σ = σ) ∨
    (σ.seq.run = true ∧ σ.seq.frames = 0#16 ∧ datapathTurn Config.block σ = { σ with seq := { σ.seq with run := false } }) ∨
    (σ.seq.run = true ∧ σ.seq.frames ≠ 0#16 ∧ σ.inQ = [] ∧ datapathTurn Config.block σ = σ) ∨
    (σ.seq.run = true ∧ σ.seq.frames ≠ 0#16 ∧ ∃ f rest, σ.inQ = f :: rest ∧
      datapathTurn Config.block σ = countFrame (if σ.seq.bypass then bypassFrame σ else frameOp Config.block σ)) := by
  unfold datapathTurn
  cases hr : σ.seq.run
  · simp
  · by_cases hf : σ.seq.frames = 0#16
    · simp [hf]
    · cases hq : σ.inQ with
      | nil => simp [hf]
      | cons f rest => simp [hf]

/-- With an empty agenda the datapath has its turn. -/
theorem step_idle {s : State} (h : s.agenda = []) : step s = .next (datapathTurn Config.block s) := by
  unfold step stepOf; rw [h]

/-- Else the next event happens. -/
theorem step_event {s : State} {e : Event} {rest : List Event} (h : s.agenda = e :: rest) :
    step s = runEvent e { s with agenda := rest } := by
  unfold step stepOf; rw [h]; rfl

@[simp] theorem runEvent_supply (f : Frame) (s : State) : runEvent (.supply f) s = .next { s with inQ := s.inQ ++ [f] } := rfl
@[simp] theorem runEvent_duringLatch (p : Param) (w : Word) (s : State) :
    runEvent (.duringLatch p w) s = .next { s with racing := s.racing ++ [(p, w)] } := rfl
@[simp] theorem runEvent_turn (s : State) : runEvent .turn s = .next (datapathTurn Config.block s) := rfl
@[simp] theorem runEvent_read (o n : Nat) (s : State) : runEvent (.read o n) s = hostRead o n s := rfl
@[simp] theorem runEvent_write (o n : Nat) (w : Word) (s : State) : runEvent (.write o n w) s = hostWrite (runCommand exec) o n w s := rfl

/-- A word written to `CMD` is executed. -/
theorem runEvent_command (w : Word) (s : State) : runEvent (.write 0x00 4 w) s = exec (decodeCommand w) s := rfl

/-- A datapath record that decodes is executed. -/
theorem runEvent_datapath {ws : List Word} {i : Instr} (h : decode .uop ws = .ok i) (s : State) :
    runEvent (.datapath ws) s = exec i s := by simp only [runEvent, runEventOf, runRecord, h]

/-- A run whose first step answers a next state goes on from there. -/
theorem run_next {k : Nat} {s t : State} (h : step s = .next t) :
    Host.Core.run Sys2Proof.core (k + 1) s = Host.Core.run Sys2Proof.core k t := by
  have general : ∀ (M : Host.Core) (a b : M.State), M.step a = .next b → M.run (k + 1) a = M.run k b := by
    intro M a b hab; simp only [Host.Core.run, hab]
  exact general Sys2Proof.core s t h

/-- Everything an event that answers a next state can have done. -/
theorem runEvent_cases {e : Event} {s t : State} (h : runEvent e s = .next t) :
    (∃ w, t = { s with readLog := s.readLog ++ [w] }) ∨
    (∃ hr : HostRegs, t = { s with host := hr }) ∨
    (∃ f, t = { s with inQ := s.inQ ++ [f] }) ∨
    (∃ p w, t = { s with racing := s.racing ++ [(p, w)] }) ∨
    t = datapathTurn Config.block s ∨
    (∃ w, exec (decodeCommand w) s = .next t) ∨
    (∃ ws i, e = .datapath ws ∧ decode .uop ws = .ok i ∧ exec i s = .next t) := by
  cases e with
  | read o n =>
    simp only [runEvent, runEventOf, hostRead] at h
    split at h
    · exact .inl ⟨_, (next_inj.1 h).symm⟩
    · cases h
  | write o n w =>
    simp only [runEvent, runEventOf, hostWrite] at h
    split at h
    · exact .inr (.inr (.inr (.inr (.inr (.inl ⟨w, h⟩)))))
    · rename_i r _ _
      refine .inr (.inl ?_)
      rw [next_inj] at h
      rw [← h]
      cases r <;> exact ⟨_, rfl⟩
    · cases h
  | supply f => exact .inr (.inr (.inl ⟨f, (next_inj.1 h).symm⟩))
  | duringLatch p w => exact .inr (.inr (.inr (.inl ⟨p, w, (next_inj.1 h).symm⟩)))
  | turn => exact .inr (.inr (.inr (.inr (.inl (next_inj.1 h).symm))))
  | datapath ws =>
    simp only [runEvent, runEventOf, runRecord] at h
    split at h
    · rename_i i hd
      exact .inr (.inr (.inr (.inr (.inr (.inr ⟨ws, i, rfl, hd, h⟩)))))
    · cases h

end Sys2Proof.Machine
end

