-- ==== Sys2Proof/Laws/Renderer.lean ====
section
/-! SUPPORT. The composed operations in closed form: one sample of a string as a function of that string's own state, a frame, the
latch, `PREPARE` and `RESET`, each as one update of the machine. -/

namespace Sys2Proof.Machine

open Fp

/-! ### One sample of a string -/

/-- What an allpass stage makes of its store, and what it returns, when the delayed value is `vd`. -/
def stageStep (st : Store) (x g vd : F32) : Store × F32 :=
  (storeWrite st (allpassState Config.block x g vd), allpassOut Config.block x g vd)

/-- What one sample of the string `s` makes of its pre-delay store and its state, and its wet value: nothing else of the machine is
read but the constants and coefficients (R69, R150). -/
def laneStep (s : Str) (xin gain : F32) (κ : Coefficients) (c : Constants) (pd : Store) (x : StringState) :
    Store × StringState × F32 :=
  let pd' := storeWrite pd xin
  let u := fadd (drvShape Config.block (storeReadInt pd' κ.pdN .post) gain) x.fb
  let s1 := stageStep x.ap.k1 u κ.apCoeff (storeReadInt x.ap.k1 (c.n.get s).k1 .pre)
  let s2 := stageStep x.ap.k2 s1.2 κ.apCoeff (storeReadInt x.ap.k2 (c.n.get s).k2 .pre)
  let d3 := fadd (itof (c.n.get s).k3) (fmul κ.wobDepth (Config.functions.sin (fmul Config.twoPi x.ph)))
  let s3 := stageStep x.ap.k3 s2.2 κ.apCoeff (storeReadFrac Config.block x.ap.k3 d3 .pre)
  let z := fadd x.lpz (fmul κ.lpA (fsub s3.2 x.lpz))
  (pd',
    { fb := fmul (κ.fbGain.get s) z, ph := nextPhase Config.block x.ph (c.inc.get s), lpz := z,
      ap := { k1 := s1.1, k2 := s2.1, k3 := s3.1 } },
    s3.2)

/-- `STR.STEP` is the step of its lane. -/
theorem strStep_lane (s : Str) (xin gain : F32) (σ : State) :
    strStep Config.block s xin gain σ =
      ({ σ with
          pd := σ.pd.set s (laneStep s xin gain σ.coeffs σ.consts (σ.pd.get s) (σ.str.get s)).1
          str := σ.str.set s (laneStep s xin gain σ.coeffs σ.consts (σ.pd.get s) (σ.str.get s)).2.1 },
        (laneStep s xin gain σ.coeffs σ.consts (σ.pd.get s) (σ.str.get s)).2.2) := by
  cases s <;>
    simp [strStep, laneStep, stageStep, pdWrite, pdRead, apProc, apProcm, lpProc, fbUpd, lfoAdv, lfoMod, lpOut, fbSum, State.store,
      chanOf, strOf, Pair.set, Stages.set, State.setStore, State.setPh, State.setFb, State.setLpz]

/-! ### A frame -/

/-- A frame on a supplied input, as one update (R210). -/
theorem frameOp_eq {σ : State} {f : Frame} {rest : List Frame} (h : σ.inQ = f :: rest) :
    frameOp Config.block σ =
      (let gain := drvGain Config.block (advanced Config.block σ.smDrive).cur
       let m := (advanced Config.block σ.smMix).cur
       let l := laneStep .L (inSan Config.block f.l) gain σ.coeffs σ.consts σ.pd.l σ.str.l
       let xr := rightInput Config.block σ.seq.stereo (inSan Config.block f.l) (inSan Config.block f.r)
       let r := laneStep .R xr gain σ.coeffs σ.consts σ.pd.r σ.str.r
       { σ with
        inQ := rest
        smMix := advanced Config.block σ.smMix
        smDrive := advanced Config.block σ.smDrive
        pd := { l := l.1, r := r.1 }
        str := { l := l.2.1, r := r.2.1 }
        outQ := σ.outQ ++ [{ l := mixBlend Config.block (inSan Config.block f.l) l.2.2 m
                             r := if σ.seq.stereo then mixBlend Config.block (inSan Config.block f.r) r.2.2 m else plusZero }] }) := by
  simp [frameOp, frameSignal, h, strStep_lane, smNext, State.setSmoother, State.smoother, Pair.set]

/-- Without input a frame waits. -/
theorem frameOp_nil {σ : State} (h : σ.inQ = []) : frameOp Config.block σ = σ := by
  unfold frameOp; rw [h]

/-- The datapath does not see the agenda. -/
theorem datapathTurn_agenda (σ : State) (rest : List Event) :
    datapathTurn Config.block { σ with agenda := rest } = { datapathTurn Config.block σ with agenda := rest } := by
  obtain ⟨hr, e⟩ | ⟨hr, hf, e⟩ | ⟨hr, hf, hq, e⟩ | ⟨hr, hf, f, fs, hq, e⟩ := datapathTurn_cases σ
  · rw [e]; simp [datapathTurn, hr]
  · rw [e]; simp [datapathTurn, hr, hf]
  · rw [e]; simp [datapathTurn, hr, hf, hq]
  · rw [e]
    cases hb : σ.seq.bypass
    · simp [datapathTurn, hr, hf, hq, hb, countFrame, frameOp_eq hq, frameOp_eq (σ := { σ with inQ := f :: fs, agenda := rest }) rfl]
    · simp [datapathTurn, hr, hf, hq, hb, bypassFrame, countFrame]

/-! ### The latch, `PREPARE` and `RESET` -/

/-- The latch as one update (R205). -/
theorem latch_eq (σ : State) :
    latch Config.block σ =
      { landRacing σ with
        coeffs :=
          { apCoeff := apCoeffOf Config.block (clampParam Config.block .tension (snapshot σ .tension))
            lpCut := lpCutOf Config.block (clampParam Config.block .damping (snapshot σ .damping))
            lpA := Config.functions.lpA (lpCutOf Config.block (clampParam Config.block .damping (snapshot σ .damping))) σ.consts.fs
            fbGain :=
              { l := fbGainOf Config.block .L (clampParam Config.block .decay (snapshot σ .decay))
                r := fbGainOf Config.block .R (clampParam Config.block .decay (snapshot σ .decay)) }
            wobDepth := fmul (clampParam Config.block .wobble (snapshot σ .wobble)) σ.consts.wMax
            pdN := pdNOf Config.block (clampParam Config.block .predelay (snapshot σ .predelay)) σ.consts.fs σ.consts.pdMax }
        smMix := retargeted Config.block σ.consts.nr (clampParam Config.block .mix (snapshot σ .mix)) σ.smMix
        smDrive := retargeted Config.block σ.consts.nr (clampParam Config.block .drive (snapshot σ .drive)) σ.smDrive } := by
  simp [latch, mapAp, mapLp, mapFb, mapWob, mapPd, smSet, State.setSmoother, State.smoother, Pair.set]

/-- Seeding both smoothers, as one update (R66, R191). -/
theorem reseed_eq (σ : State) :
    reseed Config.block σ =
      { σ with
        smMix := seeded (clampParam Config.block .mix σ.host.pMix)
        smDrive := seeded (clampParam Config.block .drive σ.host.pDrive) } := rfl

/-- `PREPARE` as one update (R202). -/
theorem prepareAll_eq (σ : State) :
    prepareAll Config.block σ =
      (let c := constantsFor Config.block (sampleRate Config.block σ.host)
       { σ with
        consts := c
        pd := { l := storePrep Config.block c.pdMax .int, r := storePrep Config.block c.pdMax .int }
        str := { l := preparedString Config.block c.wMax c.n.l, r := preparedString Config.block c.wMax c.n.r }
        smMix := seeded (clampParam Config.block .mix σ.host.pMix)
        smDrive := seeded (clampParam Config.block .drive σ.host.pDrive)
        prep := true }) := rfl

/-- `RESET` after a `PREPARE`, as one update (R203). -/
theorem resetAll_eq {σ : State} (h : σ.prep = true) :
    resetAll Config.block σ =
      { σ with
        pd := { l := storeReset σ.pd.l, r := storeReset σ.pd.r }
        str := { l := clearedString σ.str.l, r := clearedString σ.str.r }
        smMix := seeded (clampParam Config.block .mix σ.host.pMix)
        smDrive := seeded (clampParam Config.block .drive σ.host.pDrive) } := by
  unfold resetAll; rw [if_pos h]; rfl

/-! ### Blocks -/

/-- The start of a block, as one update of the latched machine (R204). -/
theorem startBlock_eq (stereo : Bool) (n : BitVec 16) (σ : State) :
    startBlock Config.block stereo n σ =
      { (if σ.prep then latch Config.block σ else σ) with
        seq := { run := n != 0#16, frames := n, stereo := stereo, bypass := !σ.prep } } := by
  unfold startBlock; cases h : σ.prep
  · simp [h]
  · simp [h, latch_eq, landRacing, snapshot, heldDuringLatch]

end Sys2Proof.Machine
end

