-- ==== Sys2Proof/Laws/Exec.lean ====
section
/-! SUPPORT. The meaning of each instruction as an equation, to rewrite with instead of unfolding `exec`. -/

namespace Sys2Proof.Machine

theorem exec_nop (s : State) : exec .nop s = accept s (.next s) := rfl
theorem exec_prepare (s : State) : exec .prepare s = accept s (.next (prepareAll Config.block s)) := rfl
theorem exec_reset (s : State) : exec .reset s = accept s (.next (resetAll Config.block s)) := rfl
theorem exec_process (stereo : Bool) (nframes : BitVec 16) (s : State) :
    exec (.process stereo nframes) s = accept s (.next (startBlock Config.block stereo nframes s)) := rfl
theorem exec_rbPrep (st : StoreId) (maxDelay : Nat) (headroom : Headroom) (s : State) :
    exec (.rbPrep st maxDelay headroom) s = .next (s.setStore st (storePrep Config.block maxDelay headroom)) := rfl
theorem exec_rbReset (st : StoreId) (s : State) : exec (.rbReset st) s = .next (s.setStore st (storeReset (s.store st))) := rfl
theorem exec_rbWrite (st : StoreId) (v : F32) (s : State) :
    exec (.rbWrite st v) s = .next (s.setStore st (storeWrite (s.store st) v)) := rfl
theorem exec_rbRdi (st : StoreId) (d : Int) (ord : Order) (s : State) :
    exec (.rbRdi st d ord) s = .next (s.withResult [storeReadInt (s.store st) d ord]) := rfl
theorem exec_rbRdf (st : StoreId) (d : F32) (ord : Order) (s : State) :
    exec (.rbRdf st d ord) s = .next (s.withResult [storeReadFrac Config.block (s.store st) d ord]) := rfl
theorem exec_apProc (t : Str) (k : Stage) (x : F32) (n : Int) (g : F32) (s : State) :
    exec (.apProc t k x n g) s =
      .next ((apProc Config.block t k x n g s).1.withResult [(apProc Config.block t k x n g s).2]) := rfl
theorem exec_apProcm (t : Str) (k : Stage) (x : F32) (d : F32) (g : F32) (s : State) :
    exec (.apProcm t k x d g) s =
      .next ((apProcm Config.block t k x d g s).1.withResult [(apProcm Config.block t k x d g s).2]) := rfl
theorem exec_pdWrite (c : Chan) (x : F32) (s : State) :
    exec (.pdWrite c x) s = .next (s.setStore (.pd c) (storeWrite (s.store (.pd c)) x)) := rfl
theorem exec_pdRead (c : Chan) (n : Int) (s : State) :
    exec (.pdRead c n) s = .next (s.withResult [storeReadInt (s.store (.pd c)) n .post]) := rfl
theorem exec_lfoMod (t : Str) (s : State) : exec (.lfoMod t) s = .next (s.withResult [lfoMod Config.block t s]) := rfl
theorem exec_lfoAdv (t : Str) (s : State) :
    exec (.lfoAdv t) s = .next (s.setPh t (nextPhase Config.block (s.str.get t).ph (s.consts.inc.get t))) := rfl
theorem exec_lpProc (t : Str) (x : F32) (s : State) :
    exec (.lpProc t x) s = .next ((s.setLpz t (lpOut Config.block t x s)).withResult [lpOut Config.block t x s]) := rfl
theorem exec_fbSum (t : Str) (xs : F32) (s : State) :
    exec (.fbSum t xs) s = .next (s.withResult [Fp.fadd xs (s.str.get t).fb]) := rfl
theorem exec_fbUpd (t : Str) (z : F32) (s : State) :
    exec (.fbUpd t z) s = .next (s.setFb t (Fp.fmul (s.coeffs.fbGain.get t) z)) := rfl
theorem exec_strStep (t : Str) (xin : F32) (gain : F32) (s : State) :
    exec (.strStep t xin gain) s =
      .next ((strStep Config.block t xin gain s).1.withResult [(strStep Config.block t xin gain s).2]) := rfl
theorem exec_drvGain (d : F32) (s : State) : exec (.drvGain d) s = .next (s.withResult [drvGain Config.block d]) := rfl
theorem exec_drvShape (x : F32) (gain : F32) (s : State) :
    exec (.drvShape x gain) s = .next (s.withResult [drvShape Config.block x gain]) := rfl
theorem exec_mapClamp (w1 : Word) (w2 : Word) (w3 : Word) (w4 : Word) (w5 : Word) (w6 : Word) (w7 : Word) (s : State) :
    exec (.mapClamp w1 w2 w3 w4 w5 w6 w7) s = .next (s.withResult (mapClamp Config.block w1 w2 w3 w4 w5 w6 w7)) := rfl
theorem exec_mapAp (tenC : F32) (s : State) : exec (.mapAp tenC) s = .next (mapAp Config.block tenC s) := rfl
theorem exec_mapFb (t : Str) (decC : F32) (s : State) : exec (.mapFb t decC) s = .next (mapFb Config.block t decC s) := rfl
theorem exec_mapLp (dmpC : F32) (s : State) : exec (.mapLp dmpC) s = .next (mapLp Config.block dmpC s) := rfl
theorem exec_mapWob (wobC : F32) (s : State) : exec (.mapWob wobC) s = .next (mapWob Config.block wobC s) := rfl
theorem exec_mapPd (pdC : F32) (s : State) : exec (.mapPd pdC) s = .next (mapPd Config.block pdC s) := rfl
theorem exec_smSeed (p : SmootherId) (v : F32) (s : State) : exec (.smSeed p v) s = .next (s.setSmoother p (seeded v)) := rfl
theorem exec_smSet (p : SmootherId) (v : F32) (s : State) :
    exec (.smSet p v) s = .next (s.setSmoother p (retargeted Config.block s.consts.nr v (s.smoother p))) := rfl
theorem exec_smNext (p : SmootherId) (s : State) :
    exec (.smNext p) s =
      .next ((s.setSmoother p (advanced Config.block (s.smoother p))).withResult [(advanced Config.block (s.smoother p)).cur]) := rfl
theorem exec_blkLatch (s : State) : exec .blkLatch s = .next (latch Config.block s) := rfl
theorem exec_inSan (w : Word) (s : State) : exec (.inSan w) s = .next (s.withResult [inSan Config.block w]) := rfl
theorem exec_mixBlend (dry : F32) (wet : F32) (m : F32) (s : State) :
    exec (.mixBlend dry wet m) s = .next (s.withResult [mixBlend Config.block dry wet m]) := rfl
theorem exec_frame (s : State) : exec .frame s = .next (frameOp Config.block s) := rfl

end Sys2Proof.Machine
end

