-- ==== Sys2Proof/Laws/PerInstr.lean ====
section
/-! SUPPORT. Statements made of every instruction, one lemma for each constructor of `Instr`. The family `TableMatch`: the first word of
the encoding has the fixed bits of the instruction's row of `spec/opcode_table.json`. -/

namespace Sys2Proof.Laws

/-- Mask and match of the instruction's row of `spec/opcode_table.json` (R83, R85). -/
def TableMatch.row : Instr → Word × Word
  | .nop => (0xF0000000#32, 0x00000000#32)
  | .prepare => (0xF0000000#32, 0x10000000#32)
  | .reset => (0xF0000000#32, 0x20000000#32)
  | .process _ _ => (0xF0000000#32, 0x30000000#32)
  | .rbPrep _ _ _ => (0x000000FF#32, 0x00000001#32)
  | .rbReset _ => (0x000000FF#32, 0x00000002#32)
  | .rbWrite _ _ => (0x000000FF#32, 0x00000003#32)
  | .rbRdi _ _ _ => (0x000000FF#32, 0x00000004#32)
  | .rbRdf _ _ _ => (0x000000FF#32, 0x00000005#32)
  | .apProc _ _ _ _ _ => (0x000000FF#32, 0x00000010#32)
  | .apProcm _ _ _ _ _ => (0x000000FF#32, 0x00000011#32)
  | .pdWrite _ _ => (0x000000FF#32, 0x00000018#32)
  | .pdRead _ _ => (0x000000FF#32, 0x00000019#32)
  | .lfoMod _ => (0x000000FF#32, 0x00000020#32)
  | .lfoAdv _ => (0x000000FF#32, 0x00000021#32)
  | .lpProc _ _ => (0x000000FF#32, 0x00000028#32)
  | .fbSum _ _ => (0x000000FF#32, 0x00000030#32)
  | .fbUpd _ _ => (0x000000FF#32, 0x00000031#32)
  | .strStep _ _ _ => (0x000000FF#32, 0x00000038#32)
  | .drvGain _ => (0x000000FF#32, 0x00000040#32)
  | .drvShape _ _ => (0x000000FF#32, 0x00000041#32)
  | .mapClamp _ _ _ _ _ _ _ => (0x000000FF#32, 0x00000050#32)
  | .mapAp _ => (0x000000FF#32, 0x00000051#32)
  | .mapFb _ _ => (0x000000FF#32, 0x00000052#32)
  | .mapLp _ => (0x000000FF#32, 0x00000053#32)
  | .mapWob _ => (0x000000FF#32, 0x00000054#32)
  | .mapPd _ => (0x000000FF#32, 0x00000055#32)
  | .smSeed _ _ => (0x000000FF#32, 0x00000060#32)
  | .smSet _ _ => (0x000000FF#32, 0x00000061#32)
  | .smNext _ => (0x000000FF#32, 0x00000062#32)
  | .blkLatch => (0x000000FF#32, 0x00000070#32)
  | .inSan _ => (0x000000FF#32, 0x00000071#32)
  | .mixBlend _ _ _ => (0x000000FF#32, 0x00000072#32)
  | .frame => (0x000000FF#32, 0x00000073#32)

/-- The first word of the encoding matches the row. -/
def TableMatch.Statement (i : Instr) : Prop :=
  ∃ w ws, encode i = w :: ws ∧ w &&& (TableMatch.row i).1 = (TableMatch.row i).2

/-- Selector bits lie above the label. -/
theorem label_bits (a b : Word) (h : b &&& 0x000000FF#32 = 0#32) : (a ||| b) &&& 0x000000FF#32 = a &&& 0x000000FF#32 := by
  rw [BitVec.and_comm, BitVec.and_or_distrib_left, BitVec.and_comm _ b, h, BitVec.or_zero, BitVec.and_comm]

@[simp] theorem strBit_label (s : Str) : strBit s &&& 0x000000FF#32 = 0#32 := by cases s <;> rfl
@[simp] theorem chanBit_label (c : Chan) : chanBit c &&& 0x000000FF#32 = 0#32 := by cases c <;> rfl
@[simp] theorem stageBits_label (k : Stage) : stageBits k &&& 0x000000FF#32 = 0#32 := by cases k <;> rfl
@[simp] theorem storeBits_label (st : StoreId) : storeBits st &&& 0x000000FF#32 = 0#32 := by
  rcases st with c | ⟨s, k⟩
  · cases c <;> rfl
  · cases s <;> cases k <;> rfl
@[simp] theorem orderBit_label (o : Order) : orderBit o &&& 0x000000FF#32 = 0#32 := by cases o <;> rfl
@[simp] theorem smootherBit_label (p : SmootherId) : smootherBit p &&& 0x000000FF#32 = 0#32 := by cases p <;> rfl
@[simp] theorem headroomBit_label (h : Headroom) : headroomBit h &&& 0x000000FF#32 = 0#32 := by cases h <;> rfl

theorem TableMatch.process (stereo : Bool) (n : BitVec 16) : TableMatch.Statement (.process stereo n) := by
  refine ⟨_, _, rfl, ?_⟩
  apply BitVec.eq_of_getLsbD_eq
  intro i hi
  have e : ∀ b : Bool, (0x3#4 ++ 0x0#11 ++ BitVec.ofBool b ++ n : BitVec 32) = (if b then 0x3001#16 else 0x3000#16) ++ n := by
    intro b; cases b <;> rfl
  rw [e]
  simp only [TableMatch.row, BitVec.getLsbD_and, BitVec.getLsbD_append]
  cases stereo <;> interval_cases i <;> simp

theorem TableMatch.nop : TableMatch.Statement .nop := ⟨_, _, rfl, by simp [TableMatch.row]⟩
theorem TableMatch.prepare : TableMatch.Statement .prepare := ⟨_, _, rfl, by simp [TableMatch.row]⟩
theorem TableMatch.reset : TableMatch.Statement .reset := ⟨_, _, rfl, by simp [TableMatch.row]⟩
theorem TableMatch.rbPrep (st : StoreId) (m : Nat) (h : Headroom) : TableMatch.Statement (.rbPrep st m h) := by
  refine ⟨_, _, rfl, ?_⟩
  simp [TableMatch.row, label_bits]
theorem TableMatch.rbReset (st : StoreId) : TableMatch.Statement (.rbReset st) := by
  refine ⟨_, _, rfl, ?_⟩
  simp [TableMatch.row, label_bits]
theorem TableMatch.rbWrite (st : StoreId) (v : F32) : TableMatch.Statement (.rbWrite st v) := by
  refine ⟨_, _, rfl, ?_⟩
  simp [TableMatch.row, label_bits]
theorem TableMatch.rbRdi (st : StoreId) (d : Int) (o : Order) : TableMatch.Statement (.rbRdi st d o) := by
  refine ⟨_, _, rfl, ?_⟩
  simp [TableMatch.row, label_bits]
theorem TableMatch.rbRdf (st : StoreId) (d : F32) (o : Order) : TableMatch.Statement (.rbRdf st d o) := by
  refine ⟨_, _, rfl, ?_⟩
  simp [TableMatch.row, label_bits]
theorem TableMatch.apProc (s : Str) (k : Stage) (x : F32) (n : Int) (g : F32) : TableMatch.Statement (.apProc s k x n g) := by
  refine ⟨_, _, rfl, ?_⟩
  simp [TableMatch.row, label_bits]
theorem TableMatch.apProcm (s : Str) (k : Stage) (x d g : F32) : TableMatch.Statement (.apProcm s k x d g) := by
  refine ⟨_, _, rfl, ?_⟩
  simp [TableMatch.row, label_bits]
theorem TableMatch.pdWrite (c : Chan) (x : F32) : TableMatch.Statement (.pdWrite c x) := by
  refine ⟨_, _, rfl, ?_⟩
  simp [TableMatch.row, label_bits]
theorem TableMatch.pdRead (c : Chan) (n : Int) : TableMatch.Statement (.pdRead c n) := by
  refine ⟨_, _, rfl, ?_⟩
  simp [TableMatch.row, label_bits]
theorem TableMatch.lfoMod (s : Str) : TableMatch.Statement (.lfoMod s) := by
  refine ⟨_, _, rfl, ?_⟩
  simp [TableMatch.row, label_bits]
theorem TableMatch.lfoAdv (s : Str) : TableMatch.Statement (.lfoAdv s) := by
  refine ⟨_, _, rfl, ?_⟩
  simp [TableMatch.row, label_bits]
theorem TableMatch.lpProc (s : Str) (x : F32) : TableMatch.Statement (.lpProc s x) := by
  refine ⟨_, _, rfl, ?_⟩
  simp [TableMatch.row, label_bits]
theorem TableMatch.fbSum (s : Str) (x : F32) : TableMatch.Statement (.fbSum s x) := by
  refine ⟨_, _, rfl, ?_⟩
  simp [TableMatch.row, label_bits]
theorem TableMatch.fbUpd (s : Str) (z : F32) : TableMatch.Statement (.fbUpd s z) := by
  refine ⟨_, _, rfl, ?_⟩
  simp [TableMatch.row, label_bits]
theorem TableMatch.strStep (s : Str) (x gain : F32) : TableMatch.Statement (.strStep s x gain) := by
  refine ⟨_, _, rfl, ?_⟩
  simp [TableMatch.row, label_bits]
theorem TableMatch.drvGain (d : F32) : TableMatch.Statement (.drvGain d) := ⟨_, _, rfl, by simp [TableMatch.row]⟩
theorem TableMatch.drvShape (x gain : F32) : TableMatch.Statement (.drvShape x gain) := ⟨_, _, rfl, by simp [TableMatch.row]⟩
theorem TableMatch.mapClamp (a b c d e f g : Word) : TableMatch.Statement (.mapClamp a b c d e f g) := ⟨_, _, rfl, by simp [TableMatch.row]⟩
theorem TableMatch.mapAp (t : F32) : TableMatch.Statement (.mapAp t) := ⟨_, _, rfl, by simp [TableMatch.row]⟩
theorem TableMatch.mapFb (s : Str) (d : F32) : TableMatch.Statement (.mapFb s d) := by
  refine ⟨_, _, rfl, ?_⟩
  simp [TableMatch.row, label_bits]
theorem TableMatch.mapLp (d : F32) : TableMatch.Statement (.mapLp d) := ⟨_, _, rfl, by simp [TableMatch.row]⟩
theorem TableMatch.mapWob (w : F32) : TableMatch.Statement (.mapWob w) := ⟨_, _, rfl, by simp [TableMatch.row]⟩
theorem TableMatch.mapPd (p : F32) : TableMatch.Statement (.mapPd p) := ⟨_, _, rfl, by simp [TableMatch.row]⟩
theorem TableMatch.smSeed (p : SmootherId) (v : F32) : TableMatch.Statement (.smSeed p v) := by
  refine ⟨_, _, rfl, ?_⟩
  simp [TableMatch.row, label_bits]
theorem TableMatch.smSet (p : SmootherId) (v : F32) : TableMatch.Statement (.smSet p v) := by
  refine ⟨_, _, rfl, ?_⟩
  simp [TableMatch.row, label_bits]
theorem TableMatch.smNext (p : SmootherId) : TableMatch.Statement (.smNext p) := by
  refine ⟨_, _, rfl, ?_⟩
  simp [TableMatch.row, label_bits]
theorem TableMatch.blkLatch : TableMatch.Statement .blkLatch := ⟨_, _, rfl, by simp [TableMatch.row]⟩
theorem TableMatch.inSan (w : Word) : TableMatch.Statement (.inSan w) := ⟨_, _, rfl, by simp [TableMatch.row]⟩
theorem TableMatch.mixBlend (a b m : F32) : TableMatch.Statement (.mixBlend a b m) := ⟨_, _, rfl, by simp [TableMatch.row]⟩
theorem TableMatch.frame : TableMatch.Statement .frame := ⟨_, _, rfl, by simp [TableMatch.row]⟩

end Sys2Proof.Laws
end

