-- ==== Sys2Proof/Laws/Script.lean ====
section
/-! SUPPORT. The script language (R89, R90; log entry 21): commands are writes of their words, after each statement the datapath has
done all that its input allows, and a word that names a value converts to it. -/

namespace Sys2Proof.Machine

open Fp

/-! ### Commands are writes of their words (R89) -/

/-- The word of a `PROCESS` statement. -/
def processWord (stereo : Bool) (n : BitVec 16) : Word := (if stereo then 0x30010000#32 else 0x30000000#32) + n.zeroExtend 32

theorem stmtEvents_nop : stmtEvents .nop = stmtEvents (.wr .cmd 0x00000000#32) := rfl
theorem stmtEvents_prepare : stmtEvents .prepare = stmtEvents (.wr .cmd 0x10000000#32) := rfl
theorem stmtEvents_reset : stmtEvents .reset = stmtEvents (.wr .cmd 0x20000000#32) := rfl
theorem stmtEvents_process (stereo : Bool) (n : BitVec 16) :
    stmtEvents (.process stereo n) = stmtEvents (.wr .cmd (processWord stereo n)) := rfl

/-- The word of a `PROCESS` statement is that command (R82). -/
theorem decode_processWord (stereo : Bool) (n : BitVec 16) : decodeCommand (processWord stereo n) = .process stereo n := by
  have hn := n.isLt
  have hw : (processWord stereo n).toNat = (if stereo then 0x30010000 else 0x30000000) + n.toNat := by
    cases stereo <;> simp [processWord, BitVec.toNat_add] <;> omega
  have h1 : ((processWord stereo n).extractLsb' 28 4).toNat = 3 := by
    rw [BitVec.extractLsb'_toNat, hw, Nat.shiftRight_eq_div_pow]; cases stereo <;> simp <;> omega
  have h2 : (processWord stereo n).getLsbD 16 = stereo := by
    rw [BitVec.getLsbD, hw, Nat.testBit, Nat.shiftRight_eq_div_pow]
    cases stereo
    · have : (0x30000000 + n.toNat) / 2 ^ 16 = 0x3000 := by omega
      simp only [this, Bool.false_eq_true, if_false]; rfl
    · have : (0x30010000 + n.toNat) / 2 ^ 16 = 0x3001 := by omega
      simp only [this, if_true]; rfl
  have h3 : (processWord stereo n).extractLsb' 0 16 = n := by
    apply BitVec.eq_of_toNat_eq
    rw [BitVec.extractLsb'_toNat, hw]; cases stereo <;> simp <;> omega
  unfold decodeCommand
  simp only [h1, h2, h3]

/-- A `PROCESS` statement: its word at `CMD`, then a turn for each frame. -/
theorem processEvents_eq (stereo : Bool) (n : BitVec 16) :
    processEvents stereo n = .write 0x00 4 (processWord stereo n) :: List.replicate n.toNat .turn := by
  show wrEvent .cmd (processWord stereo n) :: List.replicate (framesStarted .cmd (processWord stereo n)) .turn = _
  rw [framesStarted, decode_processWord, framesOf]; rfl

/-! ### After each statement the datapath has done all it can -/

/-- The datapath can make no frame: no block runs, or its input is used up. -/
def Settled (s : State) : Prop := s.seq.run = true → s.inQ = []

/-- `k` turns are enough for the frames the datapath can make. -/
def TurnsSuffice (k : Nat) (s : State) : Prop :=
  s.seq.run = true → s.inQ.length ≤ k ∨ (s.seq.frames ≠ 0#16 ∧ s.seq.frames.toNat ≤ k)

/-- Enough turns leave the datapath settled. -/
theorem turns_settle (k : Nat) (s : State) (rest : List Event) (hk : TurnsSuffice k s) :
    ∃ t, Host.Core.run Sys2Proof.core k { s with agenda := List.replicate k .turn ++ rest } = .next t ∧ t.agenda = rest ∧
      Settled t := by
  induction k generalizing s with
  | zero =>
    refine ⟨{ s with agenda := rest }, rfl, rfl, fun hr => ?_⟩
    rcases hk hr with h | ⟨h, h'⟩
    · exact List.eq_nil_of_length_eq_zero (Nat.le_zero.1 h)
    · exact absurd (BitVec.eq_of_toNat_eq (Nat.le_zero.1 h')) h
  | succ k ih =>
    have hstep : step { s with agenda := List.replicate (k + 1) .turn ++ rest } =
        .next { datapathTurn Config.block s with agenda := List.replicate k .turn ++ rest } := by
      rw [step_event (e := .turn) (rest := List.replicate k .turn ++ rest) rfl, runEvent_turn]
      exact congrArg _ (datapathTurn_agenda s _)
    rw [run_next hstep]
    apply ih
    intro hrun
    obtain ⟨hr, e⟩ | ⟨hr, hf, e⟩ | ⟨hr, hf, hq, e⟩ | ⟨hr, hf, f, fs, hq, e⟩ := datapathTurn_cases s
    · rw [e, hr] at hrun; cases hrun
    · rw [e] at hrun; cases hrun
    · rw [e, hq]; exact .inl (Nat.zero_le k)
    · have hseq : (datapathTurn Config.block s).seq =
          { s.seq with frames := s.seq.frames - 1#16, run := s.seq.frames - 1#16 != 0#16 } ∧
          (datapathTurn Config.block s).inQ = fs := by
        rw [e]; cases hb : s.seq.bypass
        · simp [countFrame, frameOp_eq hq, hb]
        · simp [countFrame, bypassFrame, hq, hb]
      rw [hseq.1] at hrun ⊢
      rw [hseq.2]
      have hne : s.seq.frames - 1#16 ≠ 0#16 := by simpa using hrun
      rcases hk hr with h | ⟨_, h⟩
      · rw [hq, List.length_cons] at h; exact .inl (by omega)
      · have h0 : s.seq.frames.toNat ≠ 0 := fun h0 => hf (BitVec.eq_of_toNat_eq h0)
        have hsub : (s.seq.frames - 1#16).toNat = s.seq.frames.toNat - 1 := by
          have := s.seq.frames.isLt
          rw [BitVec.toNat_sub]; simp; omega
        exact .inr ⟨hne, by simp only; omega⟩

/-- Events that leave a settled datapath settled, whatever comes after them. -/
def KeepsSettled (es : List Event) : Prop :=
  ∀ (s t : State) (rest : List Event), Settled s →
    Host.Core.run Sys2Proof.core es.length { s with agenda := es ++ rest } = .next t → Settled t ∧ t.agenda = rest

/-- A run in two parts. -/
theorem run_add (M : Host.Core) (m n : Nat) (s t : M.State) :
    M.run (m + n) s = .next t ↔ ∃ u, M.run m s = .next u ∧ M.run n u = .next t := by
  induction m generalizing s with
  | zero => simp [Host.Core.run]
  | succ m ih =>
    rw [Nat.succ_add]
    simp only [Host.Core.run]
    cases h : M.step s with
    | next u => simpa using ih u
    | fault r => simp
    | refused r => simp

/-- A run of one step. -/
theorem run_one (M : Host.Core) (s t : M.State) (h : M.run 1 s = .next t) : M.step s = .next t := by
  simp only [Host.Core.run] at h
  cases hs : M.step s <;> rw [hs] at h
  · exact h
  · cases h
  · cases h

theorem KeepsSettled.append {es es' : List Event} (h : KeepsSettled es) (h' : KeepsSettled es') : KeepsSettled (es ++ es') := by
  intro s t rest hs hrun
  rw [List.length_append, List.append_assoc] at hrun
  obtain ⟨u, hu, ht⟩ := (run_add Sys2Proof.core _ _ _ _).1 hrun
  obtain ⟨su, au⟩ := h s u (es' ++ rest) hs hu
  exact h' u t rest su (by rw [← au]; exact ht)

/-- The events of a `KeepsSettled` may be none. -/
theorem KeepsSettled.nil : KeepsSettled [] := by
  intro s t rest hs hrun
  rw [← next_inj.1 (show Host.Outcome.next { s with agenda := rest } = .next t from hrun)]
  exact ⟨hs, rfl⟩

/-- A first event after which as many turns follow as the datapath can use. -/
theorem KeepsSettled.ofEvent {e : Event} {k : Nat}
    (h : ∀ s u, Settled s → runEvent e s = .next u → u.agenda = s.agenda ∧ TurnsSuffice k u) :
    KeepsSettled (e :: List.replicate k .turn) := by
  intro s t rest hs hrun
  rw [List.length_cons, List.length_replicate, Nat.add_comm] at hrun
  obtain ⟨u, hu, ht⟩ := (run_add Sys2Proof.core 1 k _ _).1 hrun
  have hu : runEvent e { s with agenda := List.replicate k .turn ++ rest } = .next u :=
    (step_event (s := { s with agenda := e :: List.replicate k .turn ++ rest }) rfl).symm.trans (run_one Sys2Proof.core _ _ hu)
  obtain ⟨ha, hk⟩ := h { s with agenda := List.replicate k .turn ++ rest } u hs hu
  obtain ⟨v, hv, av, sv⟩ := turns_settle k u rest hk
  have same {u : State} {l : List Event} (h : u.agenda = l) : { u with agenda := l } = u := by subst h; rfl
  rw [same ha] at hv
  rw [← next_inj.1 (hv.symm.trans ht)]
  exact ⟨sv, av⟩

/-- The operations a command word can be (R83, R84). -/
theorem decodeCommand_cases (w : Word) :
    decodeCommand w = .nop ∨ decodeCommand w = .prepare ∨ decodeCommand w = .reset ∨ ∃ st n, decodeCommand w = .process st n := by
  unfold decodeCommand
  split <;> simp

/-- A command keeps the input and the agenda, and leaves a block running only if it is a `PROCESS` with frames. -/
theorem command_seq {w : Word} {s t : State} (h : exec (decodeCommand w) s = .next t) :
    t.inQ = s.inQ ∧ t.agenda = s.agenda ∧
      (t.seq.run = true → t.seq.frames ≠ 0#16 ∧ t.seq.frames.toNat = framesOf (decodeCommand w)) := by
  have idle {k : State} {n : Nat} (h : accept s (.next k) = .next t)
      (hk : k.inQ = s.inQ ∧ k.agenda = s.agenda ∧ k.seq.run = s.seq.run) :
      t.inQ = s.inQ ∧ t.agenda = s.agenda ∧ (t.seq.run = true → t.seq.frames ≠ 0#16 ∧ t.seq.frames.toNat = n) := by
    obtain ⟨hr, e⟩ := accept_eq_next.1 h
    rw [← next_inj.1 e]
    exact ⟨hk.1, hk.2.1, fun ht => by rw [hk.2.2, hr] at ht; cases ht⟩
  obtain e | e | e | ⟨st, n, e⟩ := decodeCommand_cases w <;> rw [e] at h ⊢
  · exact idle (by rwa [exec_nop] at h) ⟨rfl, rfl, rfl⟩
  · exact idle (by rwa [exec_prepare] at h) (by rw [prepareAll_eq]; exact ⟨rfl, rfl, rfl⟩)
  · refine idle (by rwa [exec_reset] at h) ?_
    cases hp : s.prep
    · simp [resetAll, hp]
    · rw [resetAll_eq hp]; exact ⟨rfl, rfl, rfl⟩
  · rw [exec_process] at h
    rw [← next_inj.1 (accept_eq_next.1 h).2, startBlock_eq]
    refine ⟨?_, ?_, fun hr => ⟨by simpa using hr, rfl⟩⟩ <;> cases s.prep <;> simp [latch_eq, landRacing]

/-- A write of a register by its name. -/
theorem runEvent_wrEvent (r : HostReg) (w : Word) (s : State) :
    runEvent (wrEvent r w) s = if r = .cmd then exec (decodeCommand w) s else .next (writeReg s r w) := by
  rcases r with _ | _ | _ | _ | _ | _ | p <;> first | rfl | (cases p <;> rfl)

/-- A register write keeps the sequencer, the input and the agenda. -/
theorem writeReg_keeps (s : State) (r : HostReg) (w : Word) :
    (writeReg s r w).seq = s.seq ∧ (writeReg s r w).inQ = s.inQ ∧ (writeReg s r w).agenda = s.agenda := by
  cases r <;> exact ⟨rfl, rfl, rfl⟩

theorem writeEvents_settle (r : HostReg) (w : Word) : KeepsSettled (writeEvents r w) := by
  refine KeepsSettled.ofEvent fun s u hs h => ?_
  rw [runEvent_wrEvent] at h
  split at h
  · rename_i hr
    obtain ⟨_, ha, hk⟩ := command_seq h
    subst hr
    exact ⟨ha, fun hrun => .inr ⟨(hk hrun).1, (hk hrun).2.le⟩⟩
  · obtain ⟨h1, h2, h3⟩ := writeReg_keeps s r w
    rw [← next_inj.1 h]
    refine ⟨h3, fun hrun => .inl ?_⟩
    rw [h2, hs (by rwa [h1] at hrun)]
    exact Nat.zero_le _

theorem read_settle (r : HostReg) : KeepsSettled [.read (offsetOf r) 4] := by
  refine KeepsSettled.ofEvent (k := 0) fun s u hs h => ?_
  have hu : u = { s with readLog := s.readLog ++ [readReg s r] } := by
    rcases r with _ | _ | _ | _ | _ | _ | p <;> first | exact (next_inj.1 h).symm | (cases p <;> exact (next_inj.1 h).symm)
  rw [hu]
  exact ⟨rfl, fun hrun => .inl (by rw [show s.inQ = [] from hs hrun]; exact Nat.zero_le _)⟩

/-- Frames that reach `IN` wait in order behind those already there (R263). -/
theorem run_supply (fs : List Frame) (s : State) (rest : List Event) :
    Host.Core.run Sys2Proof.core fs.length { s with agenda := fs.map .supply ++ rest } =
      .next { s with inQ := s.inQ ++ fs, agenda := rest } := by
  induction fs generalizing s with
  | nil => rw [List.append_nil]; rfl
  | cons f fs ih =>
    have hstep : step { s with agenda := (f :: fs).map .supply ++ rest } =
        .next { s with inQ := s.inQ ++ [f], agenda := fs.map .supply ++ rest } := by
      rw [step_event (e := .supply f) (rest := fs.map .supply ++ rest) rfl, runEvent_supply]
    rw [List.length_cons, run_next hstep]
    have := ih { s with inQ := s.inQ ++ [f] }
    rw [List.append_assoc] at this
    exact this

theorem inputEvents_settle (fs : List Frame) : KeepsSettled (inputEvents fs) := by
  intro s t rest hs hrun
  rw [inputEvents, List.length_append, List.length_map, List.length_replicate, List.append_assoc] at hrun
  obtain ⟨u, hu, ht⟩ := (run_add Sys2Proof.core _ _ _ _).1 hrun
  rw [run_supply] at hu
  obtain ⟨v, hv, av, sv⟩ := turns_settle fs.length { s with inQ := s.inQ ++ fs } rest
    fun hr => .inl (by rw [show s.inQ = [] from hs hr]; exact Nat.le_refl _)
  rw [← next_inj.1 hu] at ht
  rw [← next_inj.1 (hv.symm.trans ht)]
  exact ⟨sv, av⟩

theorem blockEvents_settle (stereo : Bool) (fs : List Frame) : KeepsSettled (blockEvents stereo fs) :=
  (inputEvents_settle _).append (writeEvents_settle _ _)

theorem rateEvents_settle (w : BitVec 64) : KeepsSettled (rateEvents w) := (writeEvents_settle _ _).append (writeEvents_settle _ _)

/-- After a statement the datapath has done all that its input allows: a block is over, or it waits for input that has not come. -/
theorem stmtEvents_settle (st : Stmt) : KeepsSettled (stmtEvents st) := by
  cases st with
  | wr r w => exact writeEvents_settle r w
  | rd r => exact read_settle r
  | nop => exact writeEvents_settle _ _
  | prepare => exact writeEvents_settle _ _
  | reset => exact writeEvents_settle _ _
  | process stereo n => exact writeEvents_settle _ _
  | input fs => exact inputEvents_settle _
  | expect fs => exact KeepsSettled.nil
  | setp p v => exact writeEvents_settle _ _
  | setfs v => exact rateEvents_settle _
  | prep v m => exact ((rateEvents_settle _).append (writeEvents_settle _ _)).append (writeEvents_settle _ _)
  | block stereo fs => exact blockEvents_settle _ _

theorem scriptEvents_settle (ss : List Stmt) : KeepsSettled (scriptEvents ss) := by
  induction ss with
  | nil => exact KeepsSettled.nil
  | cons st ss ih => exact (stmtEvents_settle st).append ih

/-! ### Exact values -/

section
variable {S : Type} [DecidableEq S]

/-- The word of a value converts to it. -/
theorem Names.word_cvt32 (ν : Names S) (v : S) : (ν.word v).2.num.cvt32 (ν.word v).1 = v := by
  unfold Names.word
  split
  · assumption
  · simp [Numerics.withWord]

/-- The word of a sample rate converts to it. -/
theorem Names.rate_cvt64 (ν : Names S) (v : Decimal) : (ν.rate v).2.num.cvt64 (ν.rate v).1 = ν.num.litOf v := by
  unfold Names.rate
  dsimp only
  split
  · assumption
  · simp [Numerics.withRate]

/-- Naming a value changes what no other word converts to. -/
theorem Names.word_keeps (ν : Names S) (v : S) {w : Word} (h : w ≠ exactWord ν.used) :
    (ν.word v).2.num.cvt32 w = ν.num.cvt32 w := by
  unfold Names.word
  split
  · rfl
  · simp [Numerics.withWord, h]

/-- A value that a word holds needs no name. -/
theorem Names.word_own (ν : Names S) {v : S} (h : ν.num.cvt32 (ν.num.enc32 v) = v) : ν.word v = (ν.num.enc32 v, ν) := if_pos h

end

/-! ### What `EXPECT` compares -/

/-- The words a turn puts to `OUT` are those of its values (R63). -/
theorem datapathTurn_outQ (σ : State) :
    (datapathTurn Config.block σ).outQ = σ.outQ ++ (turnValues Config.block σ).map wordFrame := by
  obtain ⟨hr, e⟩ | ⟨hr, hf, e⟩ | ⟨hr, hf, hq, e⟩ | ⟨hr, hf, f, fs, hq, e⟩ := datapathTurn_cases σ <;> rw [e]
  · simp [turnValues, hr]
  · simp [turnValues, hf]
  · simp [turnValues, hr, hf, hq]
  · cases hb : σ.seq.bypass
    · simp [turnValues, hr, hf, hq, hb, countFrame, frameOp, frameSignal, strStep_lane, smNext, State.setSmoother, State.smoother, wordFrame]
    · simp [turnValues, hr, hf, hq, hb, countFrame, bypassFrame, wordFrame]

end Sys2Proof.Machine
end

