-- ==== Sys2Proof/Tests/Slice0.lean ====
section
/-! SUPPORT. Small tests. Expected values are the vectors of `spec/95_test_vectors.md` (the V-, P4 names) or are read off the encoding
tables of `spec/30_encoding.md`; the witnesses show that the hypotheses of the statements of
`Sys2Proof/Certificates/Slice0/Obligations.lean` are met. -/

open Sys2Proof Sys2Proof.Machine Sys2Proof.Fp

namespace Sys2Proof.Tests

-- One theorem at a time: each test waits for the kernel, and a hundred waiting threads exceed the memory limit of a check.
set_option Elab.async false

/-! ### Well-formedness: each check accepts a boundary value and refuses an ill-formed term -/

theorem test_wf_prep_no_delay : wellFormed (.rbPrep (.pd .c0) 0 .int) = false ∧ wellFormed (.rbPrep (.pd .c0) 1 .int) = true := by
  decide
theorem test_wf_prep_longest :
    wellFormed (.rbPrep (.pd .c0) (2 ^ 32 + 1) .int) = false ∧ wellFormed (.rbPrep (.pd .c0) (2 ^ 32) .int) = true := by decide
theorem test_wf_rdi_delay :
    wellFormed (.rbRdi (.pd .c0) (2 ^ 31) .pre) = false ∧ wellFormed (.rbRdi (.pd .c0) (-(2 ^ 31) - 1) .pre) = false ∧
      wellFormed (.rbRdi (.pd .c0) (-(2 ^ 31)) .pre) = true := by decide
theorem test_wf_ap_delay :
    wellFormed (.apProc .L .k1 0#32 (2 ^ 31) 0#32) = false ∧ wellFormed (.apProc .L .k1 0#32 (2 ^ 31 - 1) 0#32) = true := by decide
theorem test_wf_pd_delay : wellFormed (.pdRead .c1 (2 ^ 31)) = false ∧ wellFormed (.pdRead .c1 (2 ^ 31 - 1)) = true := by decide

/-! ### Command words (V-ENC1 to V-ENC8) -/

theorem test_dec_nop : decodeTableWord 32 0x00000000 = some .nop := by decide
theorem test_dec_prepare : decodeTableWord 32 0x10000000 = some .prepare ∧ decodeTableWord 32 0x1ABCDEF0 = some .prepare := by decide
theorem test_dec_reset : decodeTableWord 32 0x20000000 = some .reset := by decide
theorem test_dec_process :
    decodeTableWord 32 0x30010200 = some (.process true 512#16) ∧ decodeTableWord 32 0x3000FFFF = some (.process false 65535#16) ∧
      decodeTableWord 32 0x3FFE0003 = some (.process false 3#16) := by decide
theorem test_dec_reserved :
    [0x40000000, 0x70010010, 0xF0000000, 0xFFFFFFFF].map (decodeTableWord 32) = [some .nop, some .nop, some .nop, some .nop] := by
  decide

/-! ### Datapath labels (R85), with the selectors and operand words of log entry 11 -/

/-- A record whose operand words after the given ones are zero. -/
def rec (h : Word) (ops : List Word) : Option Instr :=
  (decode .uop ((h :: ops) ++ List.replicate (7 - ops.length) 0#32)).toOption

theorem test_dec_rbPrep :
    rec 0x00004C01#32 [0x0000FFFB#32] = some (.rbPrep (.ap .L .k3) 65532 .frac) ∧ rec 0x00004C01#32 [0xFFFFFFFF#32] = some (.rbPrep (.ap .L .k3) (2 ^ 32) .frac) ∧
      rec 0x00000101#32 [0#32] = some (.rbPrep (.pd .c1) 1 .int) := by decide
theorem test_dec_rbReset : rec 0x00000B02#32 [] = some (.rbReset (.ap .R .k2)) ∧ rec 0x00000202#32 [] = none := by decide
theorem test_dec_rbWrite : rec 0x00000803#32 [0x3F800000#32] = some (.rbWrite (.ap .L .k1) 0x3F800000#32) := by decide
theorem test_dec_rbRdi : rec 0x00001104#32 [0xFFFFFFF9#32] = some (.rbRdi (.pd .c1) (-7) .post) := by decide
theorem test_dec_rbRdf : rec 0x00000D05#32 [0x40980000#32] = some (.rbRdf (.ap .R .k3) 0x40980000#32 .pre) := by decide
theorem test_dec_apProc :
    rec 0x00000310#32 [0x3F800000#32, 0x00000032#32, 0x3F000000#32] = some (.apProc .R .k2 0x3F800000#32 50 0x3F000000#32) ∧
      rec 0x00000610#32 [] = none := by decide
theorem test_dec_apProcm :
    rec 0x00000411#32 [0x3F800000#32, 0x40980000#32, 0x3F000000#32] =
      some (.apProcm .L .k3 0x3F800000#32 0x40980000#32 0x3F000000#32) := by decide
theorem test_dec_pdWrite : rec 0x00000118#32 [0x3F800000#32] = some (.pdWrite .c1 0x3F800000#32) := by decide
theorem test_dec_pdRead : rec 0x00000019#32 [0x000001B9#32] = some (.pdRead .c0 441) := by decide
theorem test_dec_lfoMod : rec 0x00000120#32 [] = some (.lfoMod .R) := by decide
theorem test_dec_lfoAdv : rec 0x00000021#32 [] = some (.lfoAdv .L) := by decide
theorem test_dec_lpProc : rec 0x00000128#32 [0x3E000000#32] = some (.lpProc .R 0x3E000000#32) := by decide
theorem test_dec_fbSum : rec 0x00000030#32 [0x3E000000#32] = some (.fbSum .L 0x3E000000#32) := by decide
theorem test_dec_fbUpd : rec 0x00000131#32 [0x3E000000#32] = some (.fbUpd .R 0x3E000000#32) := by decide
theorem test_dec_strStep : rec 0x00000138#32 [1#32, 2#32] = some (.strStep .R 1#32 2#32) := by decide
theorem test_dec_drvGain : rec 0x00000040#32 [0x3E4CCCCD#32] = some (.drvGain 0x3E4CCCCD#32) ∧ rec 0x00000140#32 [] = none := by decide
theorem test_dec_drvShape : rec 0x00000041#32 [1#32, 2#32] = some (.drvShape 1#32 2#32) := by decide
theorem test_dec_mapClamp :
    rec 0x00000050#32 [1#32, 2#32, 3#32, 4#32, 5#32, 6#32, 7#32] = some (.mapClamp 1#32 2#32 3#32 4#32 5#32 6#32 7#32) := by decide
theorem test_dec_mapAp : rec 0x00000051#32 [1#32] = some (.mapAp 1#32) ∧ rec 0x00000051#32 [1#32, 1#32] = none := by decide
theorem test_dec_mapFb : rec 0x00000152#32 [1#32] = some (.mapFb .R 1#32) := by decide
theorem test_dec_mapLp : rec 0x00000053#32 [1#32] = some (.mapLp 1#32) := by decide
theorem test_dec_mapWob : rec 0x00000054#32 [1#32] = some (.mapWob 1#32) := by decide
theorem test_dec_mapPd : rec 0x00000055#32 [1#32] = some (.mapPd 1#32) := by decide
theorem test_dec_smSeed : rec 0x00002060#32 [1#32] = some (.smSeed .drive 1#32) := by decide
theorem test_dec_smSet : rec 0x00000061#32 [1#32] = some (.smSet .mix 1#32) := by decide
theorem test_dec_smNext : rec 0x00002062#32 [] = some (.smNext .drive) := by decide
theorem test_dec_blkLatch : rec 0x00000070#32 [] = some .blkLatch := by decide
theorem test_dec_inSan : rec 0x00000071#32 [0x7FC00000#32] = some (.inSan 0x7FC00000#32) := by decide
theorem test_dec_mixBlend : rec 0x00000072#32 [1#32, 2#32, 3#32] = some (.mixBlend 1#32 2#32 3#32) := by decide
theorem test_dec_frame : rec 0x00000073#32 [] = some .frame ∧ decodeTableWord 8 0x73 = some .frame := by decide
theorem test_dec_unknown : rec 0x00000006#32 [] = none ∧ rec 0x00000000#32 [] = none ∧ decodeTableWord 16 0x73 = none := by decide

/-! ### Small states -/

/-- The next state, if there is one. -/
def after (o : Host.Outcome State Fault Refusal) : Option State :=
  match o with
  | .next t => some t
  | _ => none

/-- What a datapath operation returned. -/
def returned (i : Instr) (s : State) : List F32 := ((after (exec i s)).map State.result).getD []

/-- A store from its capacity, cursor and cells. -/
def storeWith (cap wr : Nat) (vs : List F32) : Store :=
  { cap := cap, wr := wr, cells := vs.zipIdx.foldl (fun m e => Memory.write m e.2 e.1) [] }

/-- The machine after power-on but for one store. -/
def withStore (id : StoreId) (st : Store) : State := State.reset.setStore id st

/-- The store a machine has after an operation. -/
def storeAfter (i : Instr) (s : State) (id : StoreId) : Option Store := (after (exec i s)).map (State.store · id)

/-- A machine with the constants of `PREPARE` at 44100 Hz and short base delays, its stores as after power-on. -/
def ready : State :=
  { State.reset with
    prep := true
    consts :=
      { fs := 0x472C4400#32, nr := 441, pdMax := 4410, wMax := 0x43044CCD#32,
        n := { l := { k1 := 1, k2 := 1, k3 := 5 }, r := { k1 := 1, k2 := 1, k3 := 1 } },
        inc := { l := 0x3E800000#32, r := plusZero } } }

/-- `CMD`, and a block that runs. -/
def running (n : BitVec 16) (bypass : Bool) (inQ : List Frame) : State :=
  { ready with seq := { run := true, frames := n, stereo := true, bypass := bypass }, inQ := inQ }

def p : F32 := 0x3F800000#32
def q : F32 := 0x40000000#32
def r : F32 := 0x40400000#32
def u : F32 := 0x40800000#32
def w : F32 := 0x40A00000#32

/-! ### Delay stores (V-RB1 to V-RB13) -/

theorem test_rb1_prep : storeAfter (.rbPrep (.ap .L .k3) 5 .frac) State.reset (.ap .L .k3) = some (storeWith 8 0 []) := by decide +kernel
theorem test_rb2_smallest : storeAfter (.rbPrep (.pd .c1) 1 .int) ready (.pd .c1) = some (storeWith 3 0 []) := by decide +kernel
theorem test_rb3_write_wraps :
    storeAfter (.rbWrite (.pd .c0) w) (withStore (.pd .c0) (storeWith 4 3 [p, q, r, u])) (.pd .c0) = some (storeWith 4 0 [p, q, r, w]) := by
  decide +kernel
theorem test_rb3_write_zero :
    storeAfter (.rbWrite (.ap .R .k1) plusZero) (withStore (.ap .R .k1) (storeWith 4 1 [p, q, r, u])) (.ap .R .k1) =
      some (storeWith 4 2 [p, plusZero, r, u]) := by decide +kernel
theorem test_rb4_reset :
    storeAfter (.rbReset (.pd .c0)) (withStore (.pd .c0) (storeWith 4 3 [p, q, r, u])) (.pd .c0) = some (storeWith 4 0 []) := by
  decide +kernel
theorem test_rb5_taps : [0, 1, 2, 3, 4].map (tap (storeWith 5 2 [p, q, r, u, w])) = [q, p, w, u, r] := by decide +kernel

/-- The store of V-RB5, on the machine. -/
def five : State := withStore (.ap .R .k2) (storeWith 5 2 [p, q, r, u, w])

theorem test_rb6_rb7_rdi :
    returned (.rbRdi (.ap .R .k2) 1 .post) five = [p] ∧ returned (.rbRdi (.ap .R .k2) 1 .pre) five = [q] ∧
      returned (.rbRdi (.ap .R .k2) 0 .post) five = [p] ∧ returned (.rbRdi (.ap .R .k2) (-7) .pre) five = [q] := by decide +kernel
theorem test_rb8_rdi_upper :
    returned (.rbRdi (.ap .R .k2) 9 .post) five = [u] ∧ returned (.rbRdi (.ap .R .k2) 9 .pre) five = [w] := by decide +kernel

/-- The store of V-RB10 to V-RB13: `TAP(0)` = 2, `TAP(1)` = 6, `TAP(3)` = 8, `TAP(4)` = 4. -/
def eight : State :=
  withStore (.ap .L .k3) (storeWith 8 5 [0x40800000#32, 0x41000000#32, plusZero, 0x40C00000#32, 0x40000000#32])

theorem test_rb10_rdf : returned (.rbRdf (.ap .L .k3) 0x40980000#32 .pre) eight = [0x40A00000#32] := by decide +kernel
theorem test_rb12_rb13_rdf_clamps :
    returned (.rbRdf (.ap .L .k3) 0x3E800000#32 .pre) eight = [0x40000000#32] ∧
      returned (.rbRdf (.ap .L .k3) 0x7FC00000#32 .pre) eight = [0x40000000#32] ∧
      returned (.rbRdf (.ap .L .k3) 0x42C80000#32 .pre) eight = [0x40800000#32] := by decide +kernel

/-! ### Allpass and pre-delay (V-AP4, V-AP6, V-PD1, V-PD2) -/

theorem test_ap6_proc :
    returned (.apProc .L .k1 plusZero 1 0x3F000000#32) (withStore (.ap .L .k1) (storeWith 3 1 [0x3F800000#32])) = [0x3F400000#32] ∧
      storeAfter (.apProc .L .k1 plusZero 1 0x3F000000#32) (withStore (.ap .L .k1) (storeWith 3 1 [0x3F800000#32])) (.ap .L .k1) =
        some (storeWith 3 2 [0x3F800000#32, 0xBF000000#32]) := by decide +kernel
theorem test_ap4_procm :
    returned (.apProcm .L .k3 0x3F800000#32 0x40980000#32 0x3F000000#32) eight = [0x40880000#32] ∧
      (storeAfter (.apProcm .L .k3 0x3F800000#32 0x40980000#32 0x3F000000#32) eight (.ap .L .k3)).map
        (fun st => (st.wr, Memory.read st.cells 5)) = some (6, 0xBFC00000#32) := by decide +kernel
theorem test_pd1_write : storeAfter (.pdWrite .c0 0x3F800000#32) State.reset (.pd .c0) = some (storeWith 3 1 [0x3F800000#32]) := by
  decide +kernel
theorem test_pd2_read :
    returned (.pdRead .c1 2) (withStore (.pd .c1) (storeWith 4 3 [0x3F800000#32])) = [0x3F800000#32] ∧
      returned (.pdRead .c1 0) (withStore (.pd .c1) (storeWith 4 2 [0x3F800000#32, q])) = [0x3F800000#32] := by decide +kernel

/-! ### LFO, damping filter, feedback, string (V-LFO1, V-LFO5, V-LP1, V-FB1, V-FB2, V-STR1) -/

theorem test_lfo5_mod : returned (.lfoMod .L) { ready with coeffs := { ready.coeffs with wobDepth := 0x3E800000#32 } } = [0x40A00000#32] := by
  have h : fmul Config.twoPi plusZero = plusZero := by decide +kernel
  have e : fadd (itof 5) (fmul 0x3E800000#32 plusZero) = 0x40A00000#32 := by decide +kernel
  show [fadd (itof 5) (fmul 0x3E800000#32 (Config.functions.sin (fmul Config.twoPi plusZero)))] = _
  rw [h, Config.functions.sin_zero, e]
theorem test_lfo1_adv :
    [0x00000000#32, 0x3E800000#32, 0x3F000000#32, 0x3F400000#32].map (fun ph => nextPhase Config.block ph 0x3E800000#32) =
      [0x3E800000#32, 0x3F000000#32, 0x3F400000#32, 0x00000000#32] ∧
      (after (exec (.lfoAdv .L) ready)).map (fun t => (t.str.l.ph, t.str.r.ph)) = some (0x3E800000#32, plusZero) := by decide +kernel

/-- A machine with `lpA` = 1/2, `fb[R]` = 1/4, `fbGain[R]` = 1/2. -/
def looped : State :=
  { ready with
    coeffs := { ready.coeffs with lpA := 0x3F000000#32, fbGain := { l := plusZero, r := 0x3F000000#32 } }
    str := { ready.str with r := { ready.str.r with fb := 0x3E800000#32 } } }

theorem test_lp1 :
    (after (exec (.lpProc .R 0x3E000000#32) looped)).map (fun t => (t.result, t.str.r.lpz, t.str.l.lpz)) =
      some ([0x3D800000#32], 0x3D800000#32, plusZero) := by decide +kernel
theorem test_fb1_sum : returned (.fbSum .R 0x3F000000#32) looped = [0x3F400000#32] := by decide +kernel
theorem test_fb2_upd :
    (after (exec (.fbUpd .R 0x3D800000#32) looped)).map (fun t => (t.str.r.fb, t.str.l.fb)) = some (0x3D000000#32, plusZero) := by
  decide +kernel
theorem test_str_step_writes_predelay :
    (after (exec (.strStep .R 0x3F800000#32 0x3F800000#32) ready)).map (fun t => (t.pd.r, t.pd.l.wr, t.str.r.ap.k1.wr, t.str.r.ph)) =
      some (storeWith 3 1 [0x3F800000#32], 0, 1, plusZero) := by decide +kernel

/-! ### Drive stage (V-DRV1 to V-DRV3) -/

theorem test_drv_gain :
    returned (.drvGain plusZero) ready = [0x3F800000#32] ∧ returned (.drvGain 0x3F800000#32) ready = [0x40800000#32] ∧
      returned (.drvGain 0x3E4CCCCD#32) ready = [0x3FCCCCCD#32] := by decide +kernel
theorem test_drv3_shape : returned (.drvShape plusZero 0x3FCCCCCD#32) ready = [plusZero] := by
  have h : fmul plusZero 0x3FCCCCCD#32 = plusZero := by decide +kernel
  have e : fdiv plusZero 0x3FCCCCCD#32 = plusZero := by decide +kernel
  show [fdiv (Config.functions.tanh (fmul plusZero 0x3FCCCCCD#32)) 0x3FCCCCCD#32] = _
  rw [h, Config.functions.tanh_zero, e]

/-! ### Mapper (V-MAP1, V-MAP2, V-MAP5 to V-MAP8) -/

theorem test_map1_clamp :
    returned (.mapClamp 0x3F000000#32 0x40000000#32 0x3F000000#32 0x41200000#32 0x3ECCCCCD#32 0x3E99999A#32 0x3E4CCCCD#32) ready =
      [0x3F000000#32, 0x40000000#32, 0x3F000000#32, 0x41200000#32, 0x3ECCCCCD#32, 0x3E99999A#32, 0x3E4CCCCD#32] := by decide +kernel
theorem test_map2_clamp :
    returned (.mapClamp 0x7FC00000#32 0x00000000#32 0xBF800000#32 0x43480000#32 0x00000000#32 0x7F800000#32 0xFF800000#32) ready =
      [plusZero, 0x3DCCCCCD#32, plusZero, 0x42C80000#32, plusZero, 0x3F800000#32, plusZero] := by decide +kernel
theorem test_map6_ap :
    (after (exec (.mapAp 0x3F000000#32) ready)).map (·.coeffs.apCoeff) = some 0x3F066666#32 ∧
      (after (exec (.mapAp 0x3F800000#32) ready)).map (·.coeffs.apCoeff) = some 0x3F400000#32 := by decide +kernel
theorem test_map_fb_other_string :
    (after (exec (.mapFb .L 0x40000000#32) looped)).map (·.coeffs.fbGain.r) = some 0x3F000000#32 := by decide +kernel
theorem test_map5_lp :
    (after (exec (.mapLp 0x3ECCCCCD#32) ready)).map (·.coeffs.lpCut) = some 0x46228000#32 ∧
      (after (exec (.mapLp 0x3F800000#32) ready)).map (·.coeffs.lpCut) = some 0x44FA0000#32 := by decide +kernel
theorem test_map8_wob :
    (after (exec (.mapWob 0x3E99999A#32) ready)).map (·.coeffs.wobDepth) = some 0x421EC290#32 ∧
      (after (exec (.mapWob plusZero) ready)).map (·.coeffs.wobDepth) = some plusZero := by decide +kernel
theorem test_map7_pd :
    [0x41200000#32, 0x3C23D70A#32, 0x42C80000#32, plusZero].map (fun d => (after (exec (.mapPd d) ready)).map (·.coeffs.pdN)) =
      [some 441, some 0, some 4410, some 0] := by decide +kernel

/-! ### Smoothers (V-SM1, V-SM2, V-SM8 to V-SM10) -/

/-- A machine whose mix smoother has settled at 0.5. -/
def half : State := { ready with smMix := { cur := 0x3F000000#32, tgt := 0x3F000000#32, step := plusZero, cnt := 0 } }

theorem test_sm1_seed : (after (exec (.smSeed .mix 0x3F000000#32) ready)).map (·.smMix) = some half.smMix := by decide +kernel
theorem test_sm2_set_equal : (after (exec (.smSet .mix 0x3F000000#32) half)).map (·.smMix) = some half.smMix := by decide +kernel
theorem test_sm9_set :
    (after (exec (.smSet .mix plusZero) half)).map (·.smMix) =
      some { cur := 0x3F000000#32, tgt := plusZero, step := 0xBA949B93#32, cnt := 441 } := by decide +kernel
theorem test_sm9_next :
    (after (exec (.smNext .mix) { half with smMix := { half.smMix with tgt := plusZero, step := 0xBA949B93#32, cnt := 441 } })).map
      (fun t => (t.result, t.smMix.cur, t.smMix.cnt)) = some ([0x3EFF6B64#32], 0x3EFF6B64#32, 440) := by decide +kernel
theorem test_sm9_last :
    (after (exec (.smNext .mix) { half with smMix := { cur := 0x3A9448B9#32, tgt := plusZero, step := 0xBA949B93#32, cnt := 1 } })).map
      (fun t => (t.result, t.smMix.cur, t.smMix.cnt)) = some ([plusZero], plusZero, 0) := by decide +kernel

/-! ### Renderer leaves (V-IN1, V-IN2, V-MIX2, V-MIX4, V-MIX5) -/

theorem test_in1_finite :
    [0x3F800000#32, 0xBF000000#32, 0x00000000#32, 0x80000000#32, 0x00000001#32, 0x7F7FFFFF#32].map (fun x => returned (.inSan x) ready) =
      [[0x3F800000#32], [0xBF000000#32], [0x00000000#32], [0x80000000#32], [0x00000001#32], [0x7F7FFFFF#32]] := by decide +kernel
theorem test_in2_not_finite :
    [0x7FC00000#32, 0x7F800001#32, 0x7F800000#32, 0xFF800000#32].map (fun x => returned (.inSan x) ready) =
      [[plusZero], [plusZero], [plusZero], [plusZero]] := by decide +kernel
theorem test_mix4 : returned (.mixBlend 0x3F800000#32 0x3E800000#32 0x3F000000#32) ready = [0x3F200000#32] := by decide +kernel
theorem test_mix5 : returned (.mixBlend 0x80000000#32 plusZero plusZero) ready = [plusZero] := by decide +kernel

/-! ### Commands and frames (V-CMD1, V-CMD3, V-CMD4, V-CMD7, V-BYP1, V-BYP2, P4) -/

theorem test_nop : exec .nop ready = .next ready := rfl
theorem test_cmd1_prepare :
    (after (exec .prepare State.reset)).map (fun t => (t.consts.nr, t.consts.pdMax, t.consts.wMax, t.pd.r.cap, t.prep)) =
      some (441, 4410, 0x43044CCD#32, 4412, true) := by decide +kernel
theorem test_cmd3_rates :
    [0x00000000#32, 0xC0E58880#32, 0x7FF00000#32, 0x4197D784#32].map (fun hi => sampleRate Config.block { State.reset.host with fsHi := hi }) =
      [0x45FA0000#32, 0x45FA0000#32, 0x483B8000#32, 0x483B8000#32] := by decide +kernel
theorem test_cmd3_nan : sampleRate Config.block { State.reset.host with fsHi := 0x7FF80000#32 } = 0x45FA0000#32 := by
  have h : cvt64 (0x7FF80000#32 ++ 0x00000000#32) = quietNaN .cvt64 (0x7FF80000#32 ++ 0x00000000#32) 0#64 := by rfl
  have e : Config.fsMin = 0x45FA0000#32 := by decide +kernel
  show clamp (cvt64 (0x7FF80000#32 ++ 0x00000000#32)) Config.fsMin Config.fsMax = _
  rw [h, clamp, if_pos (isNaN_quietNaN _ _ _), e]
theorem test_cmd4_reset : after (exec .reset State.reset) = some State.reset := by decide +kernel
theorem test_cmd5_reset :
    (after (exec .reset { half with pd := { half.pd with l := storeWith 3 2 [p, q] } })).map (fun t => (t.pd.l, t.smMix.cur, t.prep)) =
      some (storeWith 3 0 [], 0x3F000000#32, true) := by decide +kernel
theorem test_cmd7_process :
    (after (exec (.process true 0#16) { half with host := { half.host with pMix := plusZero } })).map
      (fun t => (t.smMix.tgt, t.smMix.cnt, t.seq, t.outQ)) =
      some (plusZero, 441, { run := false, frames := 0#16, stereo := true, bypass := false }, []) := by decide +kernel
theorem test_p4_latch :
    (after (exec .blkLatch ready)).map (fun t => (t.coeffs.apCoeff, t.coeffs.lpCut, t.coeffs.wobDepth, t.coeffs.pdN)) =
      some (0x3F066666#32, 0x46228000#32, 0x421EC290#32, 441) := by decide +kernel
theorem test_byp1 :
    after (step (running 2#16 true [{ l := 0x7FC00000#32, r := 0x12345678#32 }])) =
      some { running 1#16 true [] with outQ := [{ l := 0x7FC00000#32, r := 0x12345678#32 }] } := by decide +kernel
theorem test_p4_frame :
    (after (exec .frame (running 3#16 false [{ l := 0x7FC00000#32, r := 0x3E800000#32 }]))).map
      (fun t => (t.pd.l, t.pd.r, t.inQ, t.outQ.length)) = some (storeWith 3 1 [], storeWith 3 1 [0x3E800000#32], [], 1) := by
  decide +kernel

/-! ### The host port and scripts (V-HOST1, V-HOST3, V-HOST4, V-ENC9, V-ENC10) -/

theorem test_host1_reads :
    [0x04, 0x0C, 0x08, 0x20, 0x24, 0x28, 0x2C, 0x30, 0x34, 0x38, 0x10, 0x00, 0x1C].map
      (fun o => (after (step { State.reset with agenda := [.read o 4] })).map State.readLog) =
      [0x00000000#32, 0x40E58880#32, 0x00000000#32, 0x3F000000#32, 0x40000000#32, 0x3F000000#32, 0x41200000#32, 0x3ECCCCCD#32,
        0x3E99999A#32, 0x3E4CCCCD#32, 0x00000000#32, 0x00000000#32, 0x00000000#32].map (fun x => some [x]) := by decide +kernel
theorem test_host3_status : statusWord (running 2#16 false []) = 0x00000003#32 := by decide +kernel
theorem test_host4_write :
    (after (step { State.reset with agenda := [.write 0x20 4 0x12345678#32] })).map (·.host.pMix) = some 0x12345678#32 := by decide +kernel
theorem test_enc9_setfs :
    stmtEvents (.setfs { negative := false, num := 48000, den := 1 }) = [.write 0x08 4 0x00000000#32, .write 0x0C 4 0x40E77000#32] := by
  decide +kernel
theorem test_enc10_setp :
    stmtEvents (.setp .drive { negative := false, num := 2, den := 10 }) = [.write 0x38 4 0x3E4CCCCD#32] := by decide +kernel
theorem test_script_events :
    scriptEvents [.process false 2#16, .rd .status, .input [{ l := p, r := q }]] =
      [.write 0x00 4 0x30000002#32, .turn, .turn, .read 0x04 4, .supply { l := p, r := q }, .turn] := by decide +kernel

/-- Program P3's first block, its words those of `NUM_B32`, with `PROCESS` given as a statement and as a word, before and after `IN`,
and a command after it. -/
def bypassScripts : List (List Stmt) :=
  let fs : List (Pair F32) := [{ l := 0x3E800000#32, r := 0x3F400000#32 }, { l := 0xBF000000#32, r := 0x3E000000#32 }]
  let out : List (Pair F32) := [{ l := 0x3E800000#32, r := 0x00000000#32 }, { l := 0xBF000000#32, r := 0x00000000#32 }]
  [[.input fs, .process false 2#16, .expect out, .nop], [.process false 2#16, .input fs, .nop, .expect out],
    [.wr .cmd 0x30000002#32, .input fs, .expect out, .nop], [.input fs, .wr .cmd 0x3FFE0002#32, .nop, .expect out],
    [.block false fs, .expect out, .nop]]

theorem test_p3_bypass_block :
    bypassScripts.all fun ss =>
      (after (Host.Core.run Sys2Proof.core (scriptEvents ss).length { State.reset with agenda := scriptEvents ss })).map State.outQ ==
        some ((scriptExpects ss).map wordFrame) := by decide +kernel
theorem test_host3_short_block :
    (after (Host.Core.run Sys2Proof.core 14 { State.reset with
      agenda := scriptEvents [.input [{ l := p, r := q }, { l := q, r := p }], .process true 4#16, .rd .status, .input [{ l := p, r := p }]] })).map
        (fun s => (s.readLog, s.outQ.length, s.seq.run)) = some ([0x00000002#32], 3, true) := by decide +kernel
theorem test_latch_race :
    heldDuringLatch { ready with racing := [(.mix, p), (.drive, q), (.mix, r)] } .mix = [0x3F000000#32, p, r] ∧
      (landRacing { ready with racing := [(.mix, p), (.drive, q), (.mix, r)] }).host.pMix = r := by decide +kernel

/-! ### `NUM_IDEAL` and `CFG_T` (program P1: the latch and the sizes at 100 Hz; V-AP4's delay as a word) -/

section
variable (sr : Nat → ℝ → ℝ) (wc : Nat → Nat)

theorem test_p1_apCoeff : apCoeffOf (Cfg.fixture sr wc) (4 / 9) = 1 / 2 := by
  norm_num [apCoeffOf, Cfg.fixture, Numerics.ideal, Numerics.lit, Numerics.clamp]
theorem test_p1_fbGain :
    fbGainOf (Cfg.fixture sr wc) .L (3 / 10) = 1 / 10 ∧ fbGainOf (Cfg.fixture sr wc) .R (3 / 10) = 1 / 100 := by
  have h1 : (10 : ℝ) ^ (-1 : ℝ) = 1 / 10 := by rw [Real.rpow_neg_one]; norm_num
  have h2 : (10 : ℝ) ^ (-2 : ℝ) = 1 / 100 := by rw [Real.rpow_neg (by norm_num), Real.rpow_two]; norm_num
  constructor
  · norm_num [fbGainOf, Cfg.loopTime, Cfg.fixture, Numerics.ideal, Numerics.lit, Numerics.clamp, h1]
  · norm_num [fbGainOf, Cfg.loopTime, Cfg.fixture, Numerics.ideal, Numerics.lit, Numerics.clamp, h2]
theorem test_p1_sizes :
    pdNOf (Cfg.fixture sr wc) 20 100 10 = 2 ∧ baseDelay (Cfg.fixture sr wc) 100 .L .k3 = 5 ∧ baseDelay (Cfg.fixture sr wc) 100 .R .k2 = 7 := by
  refine ⟨?_, ?_, ?_⟩ <;> norm_num [pdNOf, baseDelay, Cfg.fixture, Numerics.ideal, Numerics.lit, Numerics.itof, Numerics.clamp]
end

/-- P1's `SETP tension, 4/9` and its third `EXPECT` frame, with `t = tanh 1`: no word holds either value. -/
theorem test_p1_exact_values :
    let r := exactEvents { num := Numerics.ideal, used := 0 } (.setp .tension { num := 4, den := 9 })
    r.1.length = 1 ∧ (∀ w, r.1 = [.write 0x28 4 w] → r.2.num.cvt32 w = 4 / 9) ∧
      scriptExpects [.expect [{ l := Real.tanh 1 / 8, r := 0 }]] = [({ l := Real.tanh 1 / 8, r := 0 } : Pair ℝ)] := by
  refine ⟨rfl, fun w h => ?_, rfl⟩
  have hw : ((Names.word { num := Numerics.ideal, used := 0 } (Numerics.ideal.litOf { num := 4, den := 9 })).1) = w := by
    have := List.head_eq_of_cons_eq h
    injection this
  rw [← hw]
  refine (Names.word_cvt32 _ _).trans ?_
  norm_num [Numerics.litOf, Numerics.ideal]

theorem test_ideal_convert : Numerics.ideal.cvt32 0x40980000#32 = 19 / 4 ∧ Numerics.ideal.enc32 (19 / 4) = 0x40980000#32 := by
  constructor
  · have h : units 0x40980000#32 = 19 * 2 ^ 147 := by decide +kernel
    have hf : finite 0x40980000#32 = true := by decide +kernel
    show (if finite 0x40980000#32 = true then toReal 0x40980000#32 else Config.idealNonFinite ((0x40980000#32 : Word).zeroExtend 64)) = _
    rw [if_pos hf, toReal, h]; norm_num
  · have := ideal_enc32 19 (d := 4) (by norm_num)
    push_cast at this
    rw [this]; decide +kernel

/-! ### Witnesses: the hypotheses of each statement are met -/

theorem test_witness_CommandWordSelectsItsRow :
    (0x0FFFFFFF#32 &&& 0xF0000000#32 = 0x00000000#32) ∧ (0x10000000#32 &&& 0xF0000000#32 = 0x10000000#32) ∧
      (0x2FFFFFFF#32 &&& 0xF0000000#32 = 0x20000000#32) ∧ (0x3FFFFFFF#32 &&& 0xF0000000#32 = 0x30000000#32) := by decide
theorem test_witness_NopAndReservedChangeNothing :
    ready.seq.run = false ∧ 3 < (0x40000000#32 >>> 28).toNat ∧ 3 < (0xFFFFFFFF#32 >>> 28).toNat ∧ (0x0FFFFFFF#32 >>> 28).toNat = 0 := by
  decide
theorem test_witness_DecodeInvertsEncode :
    wellFormed (.rbPrep (.ap .R .k3) 65532 .frac) = true ∧ wellFormed (.rbRdi (.pd .c0) (-(2 ^ 31)) .post) = true ∧
      wellFormed .frame = true := by decide
theorem test_witness_EncodeInvertsDecodeOfRecords :
    decode .uop [0x00004C01#32, 0x0000FFFB#32, 0#32, 0#32, 0#32, 0#32, 0#32, 0#32] = .ok (.rbPrep (.ap .L .k3) 65532 .frac) := by rfl

/-- Any machine with one event to come. -/
def facing (s : State) (e : Event) : State := { s with agenda := [e] }

theorem test_witness_StepRunsTheCommandWord : (facing ready (.write 0x00 4 0x10000000#32)).agenda = [.write 0x00 4 0x10000000#32] := rfl
theorem test_witness_StepRunsTheDecodedInstruction :
    (facing ready (.datapath (encode .frame))).agenda = [.datapath (encode .frame)] ∧ decode .uop (encode .frame) = .ok .frame ∧
      decodeTableWord 8 0x73 = some .frame ∧ decodeTableWord 32 0x30010200 = some (.process true 512#16) := ⟨rfl, rfl, by decide, by decide⟩
theorem test_witness_RunningBlockRunsFrame :
    let s := running 1#16 false [{ l := p, r := q }]
    s.seq.run = true ∧ s.seq.bypass = false ∧ s.seq.frames ≠ 0#16 ∧ s.inQ = { l := p, r := q } :: [] ∧ s.agenda = [] := by decide
theorem test_witness_BypassFrameCopiesInput :
    let s := running 1#16 true [{ l := p, r := q }]
    s.seq.run = true ∧ s.seq.bypass = true ∧ s.seq.frames ≠ 0#16 ∧ s.inQ = { l := p, r := q } :: [] ∧ s.agenda = [] := by decide
theorem test_witness_BlockRunsToCompletion :
    let s := { ready with inQ := [{ l := p, r := q }] }
    s.seq.run = false ∧ s.agenda = [] ∧ s.inQ = [{ l := p, r := q }] ++ [] ∧ [({ l := p, r := q } : Frame)].length = (1#16).toNat ∧
      s.inQ = [] ++ s.inQ ∧ ([] : List Frame).length = (0#16).toNat := by decide
theorem test_witness_BlockSplittingIsInaudible :
    let s := { ready with inQ := [{ l := p, r := q }, { l := q, r := p }] }
    s.seq.run = false ∧ (s.prep = true → s.racing = []) ∧ (1#16).toNat + (1#16).toNat < 2 ^ 16 ∧
      (1#16).toNat + (1#16).toNat ≤ s.inQ.length := by decide
theorem test_witness_BlockSplittingIsInaudible_bypass :
    let s := { State.reset with inQ := [{ l := p, r := q }, { l := q, r := p }], racing := [(.mix, p)] }
    (s.prep = true → s.racing = []) ∧
      after (Host.Core.run Sys2Proof.core 3 { s with agenda := processEvents true 2#16 }) =
        after (Host.Core.run Sys2Proof.core 4 { s with agenda := processEvents true 1#16 ++ processEvents true 1#16 }) := by
  decide +kernel
theorem test_witness_HostReadsFollowTheMap :
    ∀ k < 16, (facing ready (.read (4 * k) 4)).agenda = [.read (4 * k) 4] ∧ 4 * k < 0x40 ∧ 4 * k % 4 = 0 := by decide
theorem test_witness_HostWritesFollowTheMap :
    ∀ k < 16, k ≠ 0 → (facing ready (.write (4 * k) 4 p)).agenda = [.write (4 * k) 4 p] ∧ 4 * k < 0x40 ∧ 4 * k % 4 = 0 ∧ 4 * k ≠ 0x00 := by
  decide
theorem test_witness_AccessOutsideTheMapRefused :
    (2 ≠ 4 ∨ 0x20 % 4 ≠ 0 ∨ 0x40 ≤ 0x20) ∧ (4 ≠ 4 ∨ 0x21 % 4 ≠ 0 ∨ 0x40 ≤ 0x21) ∧ (4 ≠ 4 ∨ 0x40 % 4 ≠ 0 ∨ 0x40 ≤ 0x40) ∧
      (facing ready (.read 0x40 4)).agenda = [.read 0x40 4] ∧ (facing ready (.write 0x21 4 p)).agenda = [.write 0x21 4 p] := by decide
theorem test_witness_CommandWhileRunningRefused :
    let s := facing (running 1#16 false []) (.write 0x00 4 0#32)
    s.agenda = [.write 0x00 4 0#32] ∧ s.seq.run = true := by decide
theorem test_witness_PrepareSizesAndClears : State.reset.seq.run = false := rfl
/-- An idle machine runs PREPARE, and RESET. -/
theorem prepare_runs {s : State} (h : s.seq.run = false) : exec .prepare s = .next (prepareAll Config.block s) := by
  rw [exec_prepare, accept_idle _ h]
theorem reset_runs {s : State} (h : s.seq.run = false) : exec .reset s = .next (resetAll Config.block s) := by
  rw [exec_reset, accept_idle _ h]
theorem test_witness_PrepareForgetsThePast :
    ready.host = half.host ∧ exec .prepare ready = .next (prepareAll Config.block ready) ∧ exec .prepare half = .next (prepareAll Config.block half) :=
  ⟨rfl, prepare_runs rfl, prepare_runs rfl⟩
theorem test_witness_PrepareAcceptsEveryRate : exec .prepare State.reset = .next (prepareAll Config.block State.reset) := prepare_runs rfl
theorem test_witness_ResetClearsSignalState :
    State.reset.seq.run = false ∧ State.reset.prep = false ∧ half.seq.run = false ∧ half.prep = true := by decide
theorem test_witness_PrepareAndResetRunTheirSchedule :
    exec .prepare half = .next (prepareAll Config.block half) ∧ exec .reset half = .next (resetAll Config.block half) ∧ half.prep = true :=
  ⟨prepare_runs rfl, reset_runs rfl, rfl⟩
theorem test_witness_ProcessAcceptsABlock :
    State.reset.seq.run = false ∧ State.reset.prep = false ∧ ready.seq.run = false ∧ ready.prep = true := by decide
theorem test_witness_LatchDerivesCoefficients : ready.racing = [] := rfl
theorem test_witness_LatchRunsItsSchedule : half.racing = [] := rfl
theorem test_witness_LatchKeepsCoefficientRanges :
    exec .prepare State.reset = .next (prepareAll Config.block State.reset) ∧
      ({ half with consts := (prepareAll Config.block State.reset).consts } : State).consts =
        (prepareAll Config.block State.reset).consts := ⟨prepare_runs rfl, rfl⟩
theorem test_witness_FrameRunsItsSchedule : (running 1#16 false [{ l := p, r := q }]).inQ = { l := p, r := q } :: [] := rfl
theorem test_witness_FrameWaitsForInput :
    let s := running 1#16 false []
    s.inQ = [] ∧ s.agenda = [] ∧ s.seq.run = true ∧ s.seq.frames ≠ 0#16 ∧
      (facing s (.supply { l := p, r := q })).agenda = [.supply { l := p, r := q }] ∧ (facing s .turn).agenda = [.turn] ∧
      (facing s (.duringLatch .mix p)).agenda = [.duringLatch .mix p] ∧ ready.agenda = [] ∧ ready.seq.run = false := by decide

/-- A mono block. -/
def mono : State := { ready with seq := { run := true, frames := 1#16, stereo := false, bypass := false }, inQ := [{ l := p, r := q }] }

theorem test_witness_MonoBlockIgnoresRightInput :
    mono.seq.stereo = false ∧ mono.inQ = { l := p, r := q } :: [] ∧ exec .frame mono = .next (frameOp Config.block mono) := ⟨rfl, rfl, exec_frame _⟩
theorem test_witness_FrameIgnoresHostRegisters : exec .frame mono = .next (frameOp Config.block mono) := exec_frame _

/-- A machine at rest, all its stores long enough. -/
def quiet : State := { ready with inQ := [{ l := plusZero, r := 0x80000000#32 }] }

theorem test_witness_SilenceStaysSilent :
    silent quiet = true ∧ quiet.inQ = { l := plusZero, r := 0x80000000#32 } :: [] ∧ isZero plusZero = true ∧
      isZero 0x80000000#32 = true := by decide +kernel
theorem test_witness_RbPrepSizesAndClears :
    65533 + 2 < 2 ^ 16 ∧ (storePrep Config.block 65533 .int).cap = 65535 ∧ ¬ 65534 + 2 < 2 ^ 16 ∧
      3 ≤ (storePrep Config.block 65534 .int).cap ∧ (storePrep Config.block 65534 .int).cap < 2 ^ 16 :=
  ⟨by decide, by decide, by decide, fitCapacity_ge (n := 65534 + 2) (by decide), fitCapacity_lt (65534 + 2)⟩
theorem test_witness_RbWriteFillsCursorCell :
    storeOk (five.store (.ap .R .k2)) = true ∧ (five.store (.ap .R .k2)).wr + 1 ≠ (five.store (.ap .R .k2)).cap ∧
      storeOk (storeWith 4 3 [p, q, r, u]) = true ∧ (storeWith 4 3 [p, q, r, u]).wr + 1 = (storeWith 4 3 [p, q, r, u]).cap := by
  decide +kernel
theorem test_witness_RbRdiReadsClampedLag : 3 ≤ (State.reset.store (.pd .c0)).cap := by decide +kernel
theorem test_witness_RbRdfInterpolates :
    4 ≤ (State.reset.store (.ap .L .k3)).cap ∧ (State.reset.store (.ap .L .k3)).cap < 2 ^ 16 := by decide +kernel
theorem test_witness_RingIndicesStayInBounds :
    storeOk (storeWith 3 2 [p, q, r]) = true ∧ storeOk (storeWith 4 3 [p]) = true ∧ 4 ≤ (storeWith 4 3 [p]).cap ∧
      (storeWith 4 3 [p]).cap < 2 ^ 16 := by decide +kernel
theorem test_witness_TapFindsWriteByAge :
    let st := (([p, q, r, u, w]).foldl storeWrite (storePrep Config.block 2 .int))
    1 ≤ 2 ∧ st.cap = 4 ∧ 3 < st.cap ∧ [0, 1, 2, 3].map (fun k : Nat => tap st k) = [w, u, r, q] := by decide +kernel
theorem test_witness_PreDelayReturnsLaggedSample :
    1 ≤ 2 ∧ 2 + 2 < 2 ^ 16 ∧ (storePrep Config.block 2 .int).cap = 4 ∧
      returned (.pdRead .c0 9) (withStore (.pd .c0) (([p, q, r]).foldl storeWrite (storePrep Config.block 2 .int))) = [p] ∧
      returned (.pdRead .c0 0) (withStore (.pd .c0) (([p, q, r]).foldl storeWrite (storePrep Config.block 2 .int))) = [q] := by
  decide +kernel
theorem test_witness_AllpassRecurrence : storeOk (five.store (.ap .R .k2)) = true := by decide +kernel
theorem test_witness_ModulatedAllpassRecurrence : storeOk (eight.store (.ap .L .k3)) = true := by decide +kernel
theorem test_witness_LfoModulatesAndWraps :
    phaseOk (ready.str.get .L).ph = true ∧ phaseOk (ready.consts.inc.get .L) = true ∧ phaseOk 0x3F7FFFFF#32 = true := by decide +kernel
theorem test_witness_FeedbackSumAndUpdate :
    between plusZero (looped.coeffs.fbGain.get .R) (lit 95 100) = true ∧ finite 0x7F7FFFFF#32 = true := by decide +kernel
theorem test_witness_StringsAreIndependent :
    exec (.strStep .L p p) ready = .next ((strStep Config.block .L p p ready).1.withResult [(strStep Config.block .L p p ready).2]) ∧
      ∃ t, exec (.strStep .R q p) ((strStep Config.block .L p p ready).1.withResult [(strStep Config.block .L p p ready).2]) = .next t :=
  ⟨exec_strStep _ _ _ _, _, exec_strStep _ _ _ _⟩
theorem test_witness_DriveGain :
    between plusZero plusZero (lit 1 1) = true ∧ between plusZero (lit 1 1) (lit 1 1) = true := by decide +kernel
theorem test_witness_DriveShapeIsBounded :
    isNaN 0x7F800000#32 = false ∧ isNaN plusZero = false ∧ between (lit 1 1) (lit 1 1) (lit 4 1) = true ∧
      between (lit 1 1) (lit 4 1) (lit 4 1) = true ∧
      exec (.drvShape plusZero (lit 4 1)) ready = .next (ready.withResult [drvShape Config.block plusZero (lit 4 1)]) ∧
      (ready.withResult [drvShape Config.block plusZero (lit 4 1)]).result = [drvShape Config.block plusZero (lit 4 1)] :=
  ⟨by decide +kernel, by decide +kernel, by decide +kernel, by decide +kernel, exec_drvShape _ _ _, rfl⟩
theorem test_witness_MapClampKeepsDomains :
    isNaN 0x7FC00000#32 = true ∧ flt 0xBF800000#32 (lit 0 1) = true ∧ flt (lit 1 1) 0x3F800001#32 = true ∧
      between (lit 0 1) (lit 0 1) (lit 1 1) = true ∧ between (lit 0 1) (lit 1 1) (lit 1 1) = true := by decide +kernel
theorem test_witness_LongerDecayNeverLowersFeedback :
    between (lit 1 10) (lit 1 10) (lit 8 1) = true ∧ between (lit 1 10) (lit 8 1) (lit 8 1) = true ∧ fle (lit 1 10) (lit 8 1) = true ∧
      exec (.mapFb .L (lit 1 10)) ready = .next (mapFb Config.block .L (lit 1 10) ready) ∧
      exec (.mapFb .L (lit 8 1)) ready = .next (mapFb Config.block .L (lit 8 1) ready) :=
  ⟨by decide +kernel, by decide +kernel, by decide +kernel, exec_mapFb _ _ _, exec_mapFb _ _ _⟩
theorem test_witness_MapLpWobPdWriteTheirRegisters : ready.consts.pdMax < 2 ^ 16 := by decide
theorem test_witness_SmootherSeedAndSet :
    feq 0x3F000000#32 (half.smoother .mix).tgt = true ∧ feq plusZero (half.smoother .mix).tgt = false := by decide +kernel
theorem test_witness_SmootherNext :
    (half.smoother .mix).cnt = 0 ∧
      (State.smoother { half with smMix := { half.smMix with cnt := 1 } } .mix).cnt = 1 ∧
      (State.smoother { half with smMix := { half.smMix with cnt := 2 } } .mix).cnt = 0 + 2 := by decide +kernel
theorem test_witness_RampArrivesExactly : 1 ≤ half.consts.nr ∧ feq plusZero (half.smoother .mix).tgt = false := by decide +kernel
theorem test_witness_InputIsSanitised :
    finite 0x7F7FFFFF#32 = true ∧ finite 0x80000000#32 = true ∧ finite 0x7F800000#32 = false ∧ finite 0x7F800001#32 = false := by
  decide +kernel
theorem test_witness_MixBlendEndPoints :
    finite p = true ∧ finite q = true ∧ exec (.mixBlend p q plusZero) ready = .next (ready.withResult [mixBlend Config.block p q plusZero]) ∧
      exec (.mixBlend p q (lit 1 1)) ready = .next (ready.withResult [mixBlend Config.block p q (lit 1 1)]) :=
  ⟨by decide +kernel, by decide +kernel, exec_mixBlend _ _ _ _, exec_mixBlend _ _ _ _⟩
theorem test_witness_StepKeepsWellFormedState :
    wellFormedState half = true ∧ step half = .next half := ⟨by decide +kernel, step_idle rfl⟩
theorem test_witness_StepKeepsRanges :
    rangesOk half = true ∧ step half = .next half ∧ noRecords State.reset = true ∧ blockRangesOk State.reset = true ∧
      step State.reset = .next State.reset := ⟨by decide +kernel, step_idle rfl, by decide, by decide +kernel, step_idle rfl⟩

end Sys2Proof.Tests
end

