-- ==== Sys2Proof/Proofs/Brackets.lean ====
section
/-! Brackets of binary32 results that the ranges of R25, R26 and R171 rest on: the clamp, quotients and products with whole numbers,
LFO phases. -/

namespace Sys2Proof.Machine

open Fp

theorem between_iff {lo x hi : F32} : between lo x hi = true ↔ fle lo x = true ∧ fle x hi = true := by
  simp [between]

/-! ### The clamp (R14) -/

theorem between_clamp {lo hi : F32} (x : F32) (h : fle lo hi = true) : between lo (clamp x lo hi) hi = true :=
  between_iff.2 (clamp_between h)

theorem clamp_of_isNaN {x : F32} (lo hi : F32) (h : isNaN x = true) : clamp x lo hi = lo := by
  unfold clamp; rw [if_pos h]

theorem clamp_of_flt_low {x lo : F32} (hi : F32) (h : flt x lo = true) : clamp x lo hi = lo := by
  have hx := (flt_iff.1 h).1
  unfold clamp; rw [if_neg (by simp [hx]), if_pos h]

theorem clamp_of_high_flt {x lo hi : F32} (hle : fle lo hi = true) (h : flt hi x = true) : clamp x lo hi = hi := by
  obtain ⟨-, hx, hlt⟩ := flt_iff.1 h
  have hkey := (fle_iff.1 hle).2.2
  have hlow : ¬ flt x lo = true := fun hc => by have := (flt_iff.1 hc).2.2; omega
  unfold clamp; rw [if_neg (by simp [hx]), if_neg hlow, if_pos h]

/-! ### Strict and weak order -/

/-- Below `c` is at most the pattern before `c`. -/
theorem fle_of_flt {x c d : F32} (h : flt x c = true) (hd : isNaN d = false) (hk : key c ≤ key d + 1) : fle x d = true := by
  obtain ⟨hx, -, hlt⟩ := flt_iff.1 h
  exact fle_iff.2 ⟨hx, hd, by omega⟩

theorem fle_of_not_flt {x c : F32} (hx : isNaN x = false) (hc : isNaN c = false) (h : ¬ flt x c = true) : fle c x = true := by
  refine fle_iff.2 ⟨hc, hx, ?_⟩
  by_contra hlt
  exact h (flt_iff.2 ⟨hx, hc, by omega⟩)

theorem flt_of_flt_of_fle {a b c : F32} (h : flt a b = true) (h' : fle b c = true) : flt a c = true := by
  obtain ⟨ha, -, hab⟩ := flt_iff.1 h
  obtain ⟨-, hc, hbc⟩ := fle_iff.1 h'
  exact flt_iff.2 ⟨ha, hc, by omega⟩

/-! ### Products and quotients -/

/-- A whole-number literal is the conversion of that number. -/
theorem lit_one (n : Nat) : lit n 1 = itof n := rfl

/-- A quotient by a whole number between two whole numbers. -/
theorem fdiv_itof_between {x : F32} {a b c : Nat} (hx : finite x = true) (hc : 0 < c) (hc' : c < 2 ^ 24) (ha : a < 2 ^ 24)
    (hb : b < 2 ^ 24) (h1 : (a * c : Int) * one149 ≤ units x) (h2 : units x ≤ (b * c : Int) * one149) :
    fle (itof a) (fdiv x (itof c)) = true ∧ fle (fdiv x (itof c)) (itof b) = true := by
  have hp : (0 : Int) < one149 := by exact_mod_cast one149_pos
  have hcp : (0 : Int) < c := by exact_mod_cast hc
  refine fdiv_between hx (finite_itof hc') (by rw [units_itof hc']; positivity) (finite_itof ha) (finite_itof hb) ?_ ?_
  · rw [units_itof ha, units_itof hc']
    calc (a * one149 * (c * one149) : Int) = a * c * one149 * one149 := by ring
      _ ≤ units x * one149 := mul_le_mul_of_nonneg_right h1 hp.le
  · rw [units_itof hb, units_itof hc']
    calc units x * one149 ≤ b * c * one149 * one149 := mul_le_mul_of_nonneg_right h2 hp.le
      _ = (b * one149 * (c * one149) : Int) := by ring

/-- A product with a whole number between two values. -/
theorem fmul_itof_between {x lo hi : F32} {c : Nat} (hx : finite x = true) (hc : c < 2 ^ 24) (hlo : finite lo = true)
    (hhi : finite hi = true) (h1 : units lo ≤ c * units x) (h2 : c * units x ≤ units hi) :
    fle lo (fmul (itof c) x) = true ∧ fle (fmul (itof c) x) hi = true := by
  have hp : (0 : Int) < one149 := by exact_mod_cast one149_pos
  have e : units (itof c) * units x = c * units x * one149 := by rw [units_itof hc]; ring
  refine fmul_between (finite_itof hc) hx hlo hhi ?_ ?_ <;> rw [e]
  · exact mul_le_mul_of_nonneg_right h1 hp.le
  · exact mul_le_mul_of_nonneg_right h2 hp.le

/-- The product of a value in [0, 1] with one that is not negative lies between zero and the latter. -/
theorem fmul_unit_between {a b : F32} (ha : between plusZero a (lit 1 1) = true) (hb : finite b = true) (h0 : fle plusZero b = true) :
    fle plusZero (fmul a b) = true ∧ fle (fmul a b) b = true := by
  obtain ⟨h1, h2⟩ := between_iff.1 ha
  obtain ⟨hf, hlo, hhi⟩ := units_of_fle finite_plusZero finite_one h1 h2
  have hub := units_nonneg_of_fle hb h0
  rw [units_plusZero] at hlo
  rw [units_one] at hhi
  refine fmul_between hf hb finite_plusZero hb ?_ ?_
  · rw [units_plusZero, zero_mul]; positivity
  · rw [mul_comm (units b)]; exact mul_le_mul_of_nonneg_right hhi hub

/-- A product of positive values does not fall when one factor grows. -/
theorem fmul_mono_right {a b b' : F32} (ha : finite a = true) (hb : finite b = true) (hb' : finite b' = true)
    (ha0 : 0 < units a) (hb0 : 0 < units b) (h : units b ≤ units b') :
    fle plusZero (fmul a b) = true ∧ fle (fmul a b) (fmul a b') = true := by
  have hs := sgn_of_units_pos ha0
  have hsb := sgn_of_units_pos hb0
  have hsb' := sgn_of_units_pos (hb0.trans_le h)
  have hmag : magUnits (mag b) ≤ magUnits (mag b') := by
    have := natAbs_units b; have := natAbs_units b'; omega
  rw [fmul_finite ha hb, fmul_finite ha hb', hs, hsb, hsb', fle_iff, fle_iff]
  have hr := roundUnits_mono (p := 23) (top := infMag) one149_pos one149_pos
    (Nat.mul_le_mul_right one149 (Nat.mul_le_mul_left (magUnits (mag a)) hmag))
  refine ⟨⟨by decide, isNaN_rnd _ _ _, ?_⟩, isNaN_rnd _ _ _, isNaN_rnd _ _ _, ?_⟩
  · rw [key_plusZero]; simp [key]
  · simpa [key] using hr

/-! ### LFO phases (R25, R27, R142) -/

/-- The greatest value below 1. -/
def belowOne : F32 := 0x3F7FFFFF#32

theorem finite_belowOne : finite belowOne = true := by decide

/-- A phase lies between zero and the greatest value below 1. -/
theorem phaseOk_iff {x : F32} : phaseOk x = true ↔ fle plusZero x = true ∧ fle x belowOne = true := by
  have k1 : key (lit 1 1) = key belowOne + 1 := by decide +kernel
  have hn := not_isNaN_of_finite finite_belowOne
  simp only [phaseOk, Bool.and_eq_true]
  refine and_congr_right fun _ => ⟨fun h => fle_of_flt h hn k1.le, fun h => ?_⟩
  obtain ⟨hx, -, hk⟩ := fle_iff.1 h
  exact flt_iff.2 ⟨hx, not_isNaN_of_finite finite_one, by omega⟩

theorem phaseOk_plusZero : phaseOk plusZero = true := by decide +kernel

/-- A phase in units of `2^-149`. -/
theorem units_of_phaseOk {x : F32} (h : phaseOk x = true) : finite x = true ∧ 0 ≤ units x ∧ units x ≤ units belowOne := by
  obtain ⟨h0, h1⟩ := phaseOk_iff.1 h
  obtain ⟨hf, hlo, hhi⟩ := units_of_fle finite_plusZero finite_belowOne h0 h1
  exact ⟨hf, by rwa [units_plusZero] at hlo, hhi⟩

/-- The advanced phase is a phase: below 2 two phases add up to at most `2 - 2^-23`, which is a value of the format, so rounding
cannot lift the sum to 2 (R142). -/
theorem phaseOk_nextPhase {ph inc : F32} (hp : phaseOk ph = true) (hi : phaseOk inc = true) :
    phaseOk (nextPhase Config.block ph inc) = true := by
  obtain ⟨fp, p0, p1⟩ := units_of_phaseOk hp
  obtain ⟨fi, i0, i1⟩ := units_of_phaseOk hi
  have hbelowTwo : units 0x3FFFFFFF#32 = 2 * units belowOne := by decide +kernel
  have hwrap : 2 * units belowOne - one149 ≤ units belowOne := by decide +kernel
  have fTwo : finite 0x3FFFFFFF#32 = true := by decide
  obtain ⟨s0, s1⟩ := fadd_between fp fi finite_plusZero fTwo (by rw [units_plusZero]; omega) (by omega)
  obtain ⟨fs, -, hs⟩ := units_of_fle finite_plusZero fTwo s0 s1
  rw [nextPhase_block]
  split
  · next hlt => exact Bool.and_eq_true_iff.2 ⟨s0, hlt⟩
  · next hge =>
    have h1 := fle_of_not_flt (not_isNaN_of_finite fs) (not_isNaN_of_finite finite_one) hge
    have u1 := (units_le_iff finite_one fs).2 (fle_iff.1 h1).2.2
    rw [units_one] at u1
    exact phaseOk_iff.2 (fsub_between fs finite_one finite_plusZero finite_belowOne
      (by rw [units_plusZero, units_one]; omega) (by rw [units_one]; omega))

end Sys2Proof.Machine
end

