-- ==== Sys2Proof/Proofs/Constants.lean ====
section
/-! What `PREPARE` computes from a sample rate in [`FS_MIN`, `FS_MAX`], and the capacities it sizes (R202, R252). -/

namespace Sys2Proof.Machine

open Fp

/-! ### Parameters (R171) -/

theorem paramLow_le_paramHigh (p : Param) : fle (paramLow Config.block p) (paramHigh Config.block p) = true := by
  cases p <;> decide +kernel

/-- A clamped parameter lies in its domain, a NaN and a word below give the lower end, a word above the upper, and a word inside
stays. -/
theorem clampParam_spec (p : Param) (w : Word) :
    between (paramLow Config.block p) (clampParam Config.block p w) (paramHigh Config.block p) = true ∧
      (isNaN w = true → clampParam Config.block p w = paramLow Config.block p) ∧
      (flt w (paramLow Config.block p) = true → clampParam Config.block p w = paramLow Config.block p) ∧
      (flt (paramHigh Config.block p) w = true → clampParam Config.block p w = paramHigh Config.block p) ∧
      (between (paramLow Config.block p) w (paramHigh Config.block p) = true → clampParam Config.block p w = w) := by
  have hle := paramLow_le_paramHigh p
  rw [clampParam_block]
  exact ⟨between_clamp w hle, clamp_of_isNaN _ _, clamp_of_flt_low _, clamp_of_high_flt hle,
    fun h => clamp_of_between (between_iff.1 h).1 (between_iff.1 h).2⟩

/-- Settles O48: each of the seven values is its parameter's clamp. -/
theorem mapClampKeepsDomains : Obligations.MapClampKeepsDomains := by
  unfold Obligations.MapClampKeepsDomains
  intro s w1 w2 w3 w4 w5 w6 w7
  refine ⟨_, _, _, _, _, _, _, exec_mapClamp w1 w2 w3 w4 w5 w6 w7 s, ?_⟩
  simp only [List.forall_mem_cons]
  exact ⟨clampParam_spec .mix w1, clampParam_spec .decay w2, clampParam_spec .tension w3, clampParam_spec .predelay w4,
    clampParam_spec .damping w5, clampParam_spec .wobble w6, clampParam_spec .drive w7, List.forall_mem_nil _⟩

/-! ### The sample rate -/

theorem between_sampleRate (h : HostRegs) : between Config.fsMin (sampleRate Config.block h) Config.fsMax = true := by
  rw [sampleRate_block]; exact between_clamp _ (by decide +kernel)

section
variable {fs : F32} (hfs : between Config.fsMin fs Config.fsMax = true)
include hfs

/-- A sample rate in units of `2^-149`. -/
theorem units_of_sampleRate : finite fs = true ∧ (8000 : Int) * one149 ≤ units fs ∧ units fs ≤ 192000 * one149 := by
  have uMin : units Config.fsMin = 8000 * one149 := by decide +kernel
  have uMax : units Config.fsMax = 192000 * one149 := by decide +kernel
  obtain ⟨h1, h2⟩ := between_iff.1 hfs
  obtain ⟨hf, hlo, hhi⟩ := units_of_fle (by decide +kernel) (by decide +kernel) h1 h2
  exact ⟨hf, uMin ▸ hlo, uMax ▸ hhi⟩

theorem units_sampleRate_pos : 0 < units fs := by
  have hp : (0 : Int) < one149 := by exact_mod_cast one149_pos
  obtain ⟨-, hlo, -⟩ := units_of_sampleRate hfs
  omega

/-! ### The constants (R25, R202) -/

/-- `NR` is at least 80 and at most 1920. -/
theorem nr_range : 80 ≤ (constantsFor Config.block fs).nr ∧ (constantsFor Config.block fs).nr ≤ 1920 := by
  obtain ⟨hf, hlo, hhi⟩ := units_of_sampleRate hfs
  obtain ⟨h1, h2⟩ := fdiv_itof_between (a := 80) (b := 1920) (c := 100) hf (by norm_num) (by norm_num) (by norm_num) (by norm_num)
    (by push_cast; linarith) (by push_cast; linarith)
  obtain ⟨l, u⟩ := floorI_between (by norm_num) h1 h2 (by norm_num)
  rw [constantsFor_block, lit_one]
  constructor <;> dsimp only <;> omega

/-- `c` milliseconds in samples lie between those at 8000 Hz and those at 192000 Hz, where binary32 holds both rates times `c`. -/
theorem milliseconds_between {c : Nat} (hc : 192 * c < 2 ^ 24)
    (hlow : finite (lit (8000 * c) 1) = true ∧ units (lit (8000 * c) 1) = (8000 * c : Int) * one149)
    (hhigh : finite (lit (192000 * c) 1) = true ∧ units (lit (192000 * c) 1) = (192000 * c : Int) * one149) :
    fle (itof (8 * c)) (fdiv (fmul (lit c 1) fs) (lit 1000 1)) = true ∧
      fle (fdiv (fmul (lit c 1) fs) (lit 1000 1)) (itof (192 * c)) = true := by
  obtain ⟨fLow, uLow⟩ := hlow
  obtain ⟨fHigh, uHigh⟩ := hhigh
  obtain ⟨hf, hlo, hhi⟩ := units_of_sampleRate hfs
  have hp : (0 : Int) ≤ c := Int.natCast_nonneg c
  obtain ⟨m1, m2⟩ := fmul_itof_between (c := c) hf (by omega) fLow fHigh
    (by rw [uLow]; linarith [mul_le_mul_of_nonneg_left hlo hp]) (by rw [uHigh]; linarith [mul_le_mul_of_nonneg_left hhi hp])
  obtain ⟨mf, ml, mh⟩ := units_of_fle fLow fHigh m1 m2
  rw [uLow] at ml
  rw [uHigh] at mh
  exact fdiv_itof_between (x := fmul (itof c) fs) mf (by norm_num) (by norm_num) (by omega) hc
    (by push_cast; linarith) (by push_cast; linarith)

/-- `PD_MAX` is at least 800 and at most 19200. -/
theorem pdMax_range : 800 ≤ (constantsFor Config.block fs).pdMax ∧ (constantsFor Config.block fs).pdMax ≤ 19200 := by
  obtain ⟨h1, h2⟩ := milliseconds_between hfs (c := 100) (by norm_num) (by decide +kernel) (by decide +kernel)
  obtain ⟨l, u⟩ := floorI_between (by norm_num) h1 h2 (by norm_num)
  rw [constantsFor_block]
  constructor <;> dsimp only <;> omega

/-- `W_MAX` lies in [24, 576]. -/
theorem wMax_between :
    fle (itof 24) (constantsFor Config.block fs).wMax = true ∧ fle (constantsFor Config.block fs).wMax (itof 576) = true := by
  rw [constantsFor_block]
  exact milliseconds_between hfs (c := 3) (by norm_num) (by decide +kernel) (by decide +kernel)

theorem floorI_wMax_le : floorI (constantsFor Config.block fs).wMax ≤ 576 := by
  obtain ⟨h1, h2⟩ := wMax_between hfs
  exact (floorI_between (by norm_num) h1 h2 (by norm_num)).2

/-- A base delay is at least 1 and at most what it is at 192000 Hz. -/
theorem baseDelay_range (x : Str) (k : Stage) :
    1 ≤ (((constantsFor Config.block fs).n.get x).get k) ∧ (((constantsFor Config.block fs).n.get x).get k) ≤ 64955 := by
  have e : ((constantsFor Config.block fs).n.get x).get k = max 1 (floorI (fmul (Config.tuning.base x k) fs)) := by
    rw [← baseDelays_get]; cases x <;> rfl
  have fMax : finite Config.fsMax = true := by decide +kernel
  have uMax : units Config.fsMax = 192000 * one149 := by decide +kernel
  obtain ⟨hf, -, hhi⟩ := units_of_sampleRate hfs
  obtain ⟨mf, mle⟩ := base_samples_fit x k
  obtain ⟨h0, h1⟩ := fmul_mono_right (Config.tuning.base_pos x k).1 hf fMax (units_base_pos x k) (units_sampleRate_pos hfs)
    (uMax ▸ hhi)
  have hle := floorI_mono (finite_of_fle finite_plusZero mf h0 h1) mf h0 h1
  omega

/-- An LFO increment is at most `pred(8000) / 8000`, which is below `1 - 2^-24`. -/
theorem phaseOk_inc (x : Str) : phaseOk ((constantsFor Config.block fs).inc.get x) = true := by
  have e : (constantsFor Config.block fs).inc.get x = fdiv (Config.tuning.rate x) fs := by cases x <;> rfl
  obtain ⟨fr, r0, r1⟩ := Config.tuning.rate_range x
  obtain ⟨hf, hlo, -⟩ := units_of_sampleRate hfs
  have fPred : finite 0x45F9FFFF#32 = true := by decide
  have hPred : fle (Config.tuning.rate x) 0x45F9FFFF#32 = true := fle_of_flt r1 (by decide) (by decide +kernel)
  obtain ⟨-, u0, u1⟩ := units_of_fle finite_plusZero fPred r0 hPred
  have htop : units 0x45F9FFFF#32 * one149 ≤ units belowOne * (8000 * one149) := by decide +kernel
  have hp : (0 : Int) ≤ one149 := Int.natCast_nonneg _
  have hb : 0 ≤ units belowOne := by decide +kernel
  rw [units_plusZero] at u0
  rw [e, phaseOk_iff]
  refine fdiv_between fr hf (units_sampleRate_pos hfs) finite_plusZero finite_belowOne ?_ ?_
  · rw [units_plusZero, zero_mul]; exact mul_nonneg u0 hp
  · calc units (Config.tuning.rate x) * one149 ≤ units 0x45F9FFFF#32 * one149 := mul_le_mul_of_nonneg_right u1 hp
      _ ≤ units belowOne * (8000 * one149) := htop
      _ ≤ units belowOne * units fs := mul_le_mul_of_nonneg_left hlo hb

end

/-! ### The capacities (R202, R252) -/

/-- The capacity to which `PREPARE` sizes each store. -/
def preparedCap (c : Constants) : StoreId → Nat
  | .pd _ => c.pdMax + 2
  | .ap x .k1 => (c.n.get x).k1 + 2
  | .ap x .k2 => (c.n.get x).k2 + 2
  | .ap x .k3 => (c.n.get x).k3 + floorI c.wMax + 4

/-- Every capacity is one R29 admits. -/
theorem preparedCap_range {fs : F32} (hfs : between Config.fsMin fs Config.fsMax = true) (id : StoreId) :
    3 ≤ preparedCap (constantsFor Config.block fs) id ∧ preparedCap (constantsFor Config.block fs) id < 2 ^ 16 := by
  have hpd := pdMax_range hfs
  have hw := floorI_wMax_le hfs
  have hn := baseDelay_range hfs
  rcases id with c | ⟨x, k⟩
  · simp only [preparedCap]; omega
  · cases k
    case k1 => have := hn x .k1; simp only [preparedCap, Stages.get_k1] at *; omega
    case k2 => have := hn x .k2; simp only [preparedCap, Stages.get_k2] at *; omega
    case k3 => have := hn x .k3; simp only [preparedCap, Stages.get_k3] at *; omega

/-- `PREPARE` asks `RB.PREP` for those capacities. -/
theorem prepareAll_cap_eq_fit (σ : State) (id : StoreId) :
    ((prepareAll Config.block σ).store id).cap = fitCapacity Config.block (preparedCap (prepareAll Config.block σ).consts id) := by
  rw [prepareAll_eq]
  generalize constantsFor Config.block (sampleRate Config.block σ.host) = c
  revert id
  exact forall_storeId rfl rfl rfl rfl rfl rfl rfl rfl

theorem prepareAll_consts (σ : State) :
    (prepareAll Config.block σ).consts = constantsFor Config.block (sampleRate Config.block σ.host) := rfl

/-- They fit, so `PREPARE` leaves them. -/
theorem prepareAll_cap (σ : State) (id : StoreId) :
    ((prepareAll Config.block σ).store id).cap = preparedCap (prepareAll Config.block σ).consts id := by
  rw [prepareAll_cap_eq_fit, prepareAll_consts]
  exact fitCapacity_of_lt (preparedCap_range (between_sampleRate σ.host) id).2

/-- Settles O18: the sample rate is clamped into its range, and what `PREPARE` computes from a rate in range is in range. -/
theorem prepareAcceptsEveryRate : Obligations.PrepareAcceptsEveryRate := by
  unfold Obligations.PrepareAcceptsEveryRate
  intro s t h
  rw [exec_prepare] at h
  obtain ⟨-, ht⟩ := accept_eq_next.1 h
  have hfs := between_sampleRate s.host
  obtain ⟨hnr, hnr'⟩ := nr_range hfs
  obtain ⟨hpd, hpd'⟩ := pdMax_range hfs
  rw [← next_inj.1 ht, prepareAll_consts]
  refine ⟨hfs, hnr, hnr', hpd, hpd', phaseOk_inc hfs, fun id => ?_⟩
  rw [prepareAll_cap, prepareAll_consts]
  exact preparedCap_range hfs id

end Sys2Proof.Machine
end

