-- ==== Sys2Proof/Proofs/Ranges.lean ====
section
/-! Every step keeps the numeric ranges of R25 to R27 and R29: what a latch leaves in the coefficient registers, which operations keep
the machine's setup, and the two invariants taken apart into what each of them says of constants, coefficients, phases and
capacities. -/

namespace Sys2Proof.Machine

open Fp

theorem forall_str {p : Str → Prop} : (∀ x, p x) ↔ p .L ∧ p .R :=
  ⟨fun h => ⟨h .L, h .R⟩, fun h x => by cases x; exacts [h.1, h.2]⟩

theorem forall_stage {p : Stage → Prop} : (∀ k, p k) ↔ p .k1 ∧ p .k2 ∧ p .k3 :=
  ⟨fun h => ⟨h .k1, h .k2, h .k3⟩, fun h k => by cases k; exacts [h.1, h.2.1, h.2.2]⟩

/-! ### The coefficients (R26, R172 to R176) -/

/-- The allpass coefficient, the feedback gains and the pre-delay register are in range. -/
structure CoeffsInRange (κ : Coefficients) : Prop where
  apCoeff : between (lit 2 10) κ.apCoeff (lit 8 10) = true
  fbGain : ∀ x, between (lit 0 1) (κ.fbGain.get x) (lit 95 100) = true
  pdN : κ.pdN < 2 ^ 16

/-- The damping cutoff and coefficient are in range. -/
structure DampingInRange (κ : Coefficients) : Prop where
  lpCut : between (lit 2000 1) κ.lpCut (lit 16000 1) = true
  lpA_pos : flt plusZero κ.lpA = true
  lpA_le_one : fle κ.lpA (lit 1 1) = true

/-- The wobble depth and the pre-delay are at most the constants' maxima. -/
structure DelaysInRange (c : Constants) (κ : Coefficients) : Prop where
  wobDepth : between plusZero κ.wobDepth c.wMax = true
  pdN : κ.pdN ≤ c.pdMax

theorem between_apCoeffOf (v : F32) : between (lit 2 10) (apCoeffOf Config.block v) (lit 8 10) = true := by
  rw [apCoeffOf_block]; exact between_clamp _ (by decide +kernel)

theorem between_fbGainOf (x : Str) (v : F32) : between (lit 0 1) (fbGainOf Config.block x v) (lit 95 100) = true := by
  rw [fbGainOf_block]; exact between_clamp _ (by decide +kernel)

/-- The pre-delay is at most `PD_MAX`, whatever the operand. -/
theorem pdNOf_le (v fs : F32) {m : Nat} (hm : m < 2 ^ 16) : pdNOf Config.block v fs m ≤ m := by
  rw [pdNOf_block, lit_one 0]
  obtain ⟨h1, h2⟩ := clamp_between (x := fdiv (fmul v fs) (lit 1000 1)) (fle_itof (Nat.zero_le m) (by omega))
  exact (floorI_between (by omega) h1 h2 (Nat.zero_le m)).2

/-- The damping cutoff for a damping in [0, 1] (R174). -/
theorem between_lpCutOf {v : F32} (hv : between plusZero v (lit 1 1) = true) :
    between (lit 2000 1) (lpCutOf Config.block v) (lit 16000 1) = true := by
  have f14 : finite (lit 14000 1) = true := by decide +kernel
  have f16 : finite (lit 16000 1) = true := by decide +kernel
  have h14 : fle plusZero (lit 14000 1) = true := by decide +kernel
  have u : units (lit 2000 1) = units (lit 16000 1) - units (lit 14000 1) := by decide +kernel
  obtain ⟨p0, p1⟩ := fmul_unit_between hv f14 h14
  obtain ⟨fp, l, h⟩ := units_of_fle finite_plusZero f14 p0 p1
  rw [units_plusZero] at l
  rw [lpCutOf_block, between_iff]
  exact fsub_between f16 fp (by decide +kernel) f16 (by omega) (by omega)

/-- The damping registers `MAP.LP` leaves for a damping in [0, 1] and a sample rate in range (R146, R174). -/
theorem lpA_range {fc fs : F32} (hfc : between (lit 2000 1) fc (lit 16000 1) = true)
    (hfs : between Config.fsMin fs Config.fsMax = true) :
    flt plusZero (Config.functions.lpA fc fs) = true ∧ fle (Config.functions.lpA fc fs) (lit 1 1) = true := by
  have pos {lo x hi : F32} (hlo : flt plusZero lo = true) (hf : finite lo = true) (hf' : finite hi = true)
      (h : between lo x hi = true) : finite x = true ∧ flt plusZero x = true := by
    obtain ⟨h1, h2⟩ := between_iff.1 h
    exact ⟨finite_of_fle hf hf' h1 h2, flt_of_flt_of_fle hlo h1⟩
  obtain ⟨f1, p1⟩ := pos (by decide +kernel) (by decide +kernel) (by decide +kernel) hfc
  obtain ⟨f2, p2⟩ := pos (by decide +kernel) (by decide +kernel) (by decide +kernel) hfs
  exact Config.functions.lpA_range fc fs f1 f2 p1 p2

/-! ### What the latch leaves (R205) -/

@[simp] theorem latch_consts (σ : State) : (latch Config.block σ).consts = σ.consts := by rw [latch_eq]; rfl
@[simp] theorem latch_prep (σ : State) : (latch Config.block σ).prep = σ.prep := by rw [latch_eq]; rfl
@[simp] theorem latch_str (σ : State) : (latch Config.block σ).str = σ.str := by rw [latch_eq]; rfl
@[simp] theorem latch_store (σ : State) (id : StoreId) : (latch Config.block σ).store id = σ.store id := by
  rw [latch_eq]; cases id <;> rfl

theorem latch_coeffsInRange {σ : State} (h : σ.consts.pdMax < 2 ^ 16) : CoeffsInRange (latch Config.block σ).coeffs := by
  rw [latch_eq]
  exact ⟨between_apCoeffOf _, forall_str.2 ⟨between_fbGainOf _ _, between_fbGainOf _ _⟩, (pdNOf_le _ _ h).trans_lt h⟩

theorem latch_dampingInRange {σ : State} (h : between Config.fsMin σ.consts.fs Config.fsMax = true) :
    DampingInRange (latch Config.block σ).coeffs := by
  have hcut := between_lpCutOf (clampParam_spec .damping (snapshot σ .damping)).1
  obtain ⟨h1, h2⟩ := lpA_range hcut h
  rw [latch_eq]
  exact ⟨hcut, h1, h2⟩

theorem latch_delaysInRange {σ : State} (h : between Config.fsMin σ.consts.fs Config.fsMax = true)
    (hc : σ.consts = constantsFor Config.block σ.consts.fs) : DelaysInRange σ.consts (latch Config.block σ).coeffs := by
  have hw := wMax_between h
  have hpd := pdMax_range h
  rw [← hc] at hw hpd
  have hfin := finite_of_fle (finite_itof (by norm_num)) (finite_itof (by norm_num)) hw.1 hw.2
  rw [latch_eq]
  exact ⟨between_iff.2 (fmul_unit_between (clampParam_spec .wobble (snapshot σ .wobble)).1 hfin
    (fle_trans (by decide +kernel) hw.1)), pdNOf_le _ _ (by omega)⟩

/-! ### Operations that keep the setup

Constants, coefficients, `PREP` and capacities change in `PREPARE`, in the latch and where a datapath operation that writes one of
them is presented alone; everything else keeps them. -/

/-- What a machine was set up with is what the other was, and it runs only if the other ran, a block of the same kind. -/
structure KeepsSetup (s t : State) : Prop where
  consts : t.consts = s.consts
  coeffs : t.coeffs = s.coeffs
  prep : t.prep = s.prep
  cap : ∀ id, (t.store id).cap = (s.store id).cap
  run : t.seq.run = true → s.seq.run = true
  bypass : t.seq.bypass = s.seq.bypass

theorem KeepsSetup.refl (s : State) : KeepsSetup s s := ⟨rfl, rfl, rfl, fun _ => rfl, id, rfl⟩

theorem keepsSetup_agenda (s : State) (es : List Event) : KeepsSetup s { s with agenda := es } :=
  ⟨rfl, rfl, rfl, fun _ => rfl, id, rfl⟩

theorem keepsSetup_strStep (x : Str) (xin gain : F32) (s : State) : KeepsSetup s (strStep Config.block x xin gain s).1 := by
  rw [strStep_lane]
  refine ⟨rfl, rfl, rfl, ?_, id, rfl⟩
  cases x <;> exact forall_storeId rfl rfl rfl rfl rfl rfl rfl rfl

theorem strStep_ph (x y : Str) (xin gain : F32) (s : State) :
    ((strStep Config.block x xin gain s).1.str.get y).ph =
      if y = x then nextPhase Config.block (s.str.get y).ph (s.consts.inc.get y) else (s.str.get y).ph := by
  rw [strStep_lane]
  cases x <;> cases y <;> rfl

theorem keepsSetup_frameOp (s : State) : KeepsSetup s (frameOp Config.block s) := by
  cases hq : s.inQ with
  | nil => rw [frameOp_nil hq]; exact .refl s
  | cons f rest =>
    rw [frameOp_eq hq]
    exact ⟨rfl, rfl, rfl, forall_storeId rfl rfl rfl rfl rfl rfl rfl rfl, id, rfl⟩

/-- A frame advances both phases or, without input, neither. -/
theorem frameOp_ph (s : State) (x : Str) :
    ((frameOp Config.block s).str.get x).ph = (s.str.get x).ph ∨
      ((frameOp Config.block s).str.get x).ph = nextPhase Config.block (s.str.get x).ph (s.consts.inc.get x) := by
  cases hq : s.inQ with
  | nil => rw [frameOp_nil hq]; exact .inl rfl
  | cons f rest => rw [frameOp_eq hq]; right; cases x <;> rfl

theorem keepsSetup_bypassFrame (s : State) : KeepsSetup s (bypassFrame s) := by
  cases hq : s.inQ <;> simp only [bypassFrame, hq] <;> exact ⟨rfl, rfl, rfl, fun _ => rfl, id, rfl⟩

theorem bypassFrame_str (s : State) : (bypassFrame s).str = s.str := by
  cases hq : s.inQ <;> simp only [bypassFrame, hq]

theorem KeepsSetup.countFrame {s t : State} (h : KeepsSetup s t) (hrun : s.seq.run = true) : KeepsSetup s (countFrame t) :=
  ⟨h.consts, h.coeffs, h.prep, h.cap, fun _ => hrun, h.bypass⟩

theorem keepsSetup_datapathTurn (s : State) : KeepsSetup s (datapathTurn Config.block s) := by
  obtain ⟨-, e⟩ | ⟨-, -, e⟩ | ⟨-, -, -, e⟩ | ⟨hr, -, _, _, -, e⟩ := datapathTurn_cases s <;> rw [e]
  · exact .refl s
  · exact ⟨rfl, rfl, rfl, fun _ => rfl, nofun, rfl⟩
  · exact .refl s
  · refine KeepsSetup.countFrame ?_ hr
    split
    · exact keepsSetup_bypassFrame s
    · exact keepsSetup_frameOp s

theorem agenda_datapathTurn (s : State) : (datapathTurn Config.block s).agenda = s.agenda := by
  have h := congrArg State.agenda (datapathTurn_agenda s s.agenda)
  exact h

/-- A turn of the datapath advances each phase or leaves it. -/
theorem datapathTurn_ph (s : State) (x : Str) :
    ((datapathTurn Config.block s).str.get x).ph = (s.str.get x).ph ∨
      ((datapathTurn Config.block s).str.get x).ph = nextPhase Config.block (s.str.get x).ph (s.consts.inc.get x) := by
  obtain ⟨-, e⟩ | ⟨-, -, e⟩ | ⟨-, -, -, e⟩ | ⟨-, -, _, _, -, e⟩ := datapathTurn_cases s <;> rw [e]
  · exact .inl rfl
  · exact .inl rfl
  · exact .inl rfl
  · simp only [countFrame]
    split
    · rw [bypassFrame_str]; exact .inl rfl
    · exact frameOp_ph s x

theorem keepsSetup_resetAll (s : State) : KeepsSetup s (resetAll Config.block s) := by
  cases hp : s.prep
  · simp only [resetAll, hp]; exact .refl s
  · rw [resetAll_eq hp]
    exact ⟨rfl, rfl, rfl, forall_storeId rfl rfl rfl rfl rfl rfl rfl rfl, id, rfl⟩

/-- `RESET` zeroes the phases or does nothing. -/
theorem resetAll_ph (s : State) (x : Str) :
    ((resetAll Config.block s).str.get x).ph = (s.str.get x).ph ∨ ((resetAll Config.block s).str.get x).ph = plusZero := by
  cases hp : s.prep
  · simp only [resetAll, hp]; exact .inl rfl
  · rw [resetAll_eq hp]; right; cases x <;> rfl

/-- An event is a turn of the datapath, a command, a datapath record, or bookkeeping of the host's side, which keeps the setup and
the strings. -/
theorem runEvent_kinds {e : Event} {s t : State} (ht : runEvent e s = .next t) :
    (KeepsSetup s t ∧ t.str = s.str ∧ t.agenda = s.agenda) ∨ t = datapathTurn Config.block s ∨
      (∃ w, exec (decodeCommand w) s = .next t) ∨ ∃ ws i, e = .datapath ws ∧ exec i s = .next t := by
  obtain ⟨_, rfl⟩ | ⟨_, rfl⟩ | ⟨_, rfl⟩ | ⟨_, _, rfl⟩ | rfl | hx | ⟨ws, i, hd, -, hx⟩ := runEvent_cases ht
  · exact .inl ⟨⟨rfl, rfl, rfl, fun _ => rfl, id, rfl⟩, rfl, rfl⟩
  · exact .inl ⟨⟨rfl, rfl, rfl, fun _ => rfl, id, rfl⟩, rfl, rfl⟩
  · exact .inl ⟨⟨rfl, rfl, rfl, fun _ => rfl, id, rfl⟩, rfl, rfl⟩
  · exact .inl ⟨⟨rfl, rfl, rfl, fun _ => rfl, id, rfl⟩, rfl, rfl⟩
  · exact .inr (.inl rfl)
  · exact .inr (.inr (.inl hx))
  · exact .inr (.inr (.inr ⟨ws, i, hd, hx⟩))

/-! ### The numeric invariant -/

/-- The sample rate, the LFO increments and the integer constants are in range. -/
structure ConstsInRange (c : Constants) : Prop where
  fs : between Config.fsMin c.fs Config.fsMax = true
  inc : ∀ x, phaseOk (c.inc.get x) = true
  nr : c.nr < 2 ^ 16
  pdMax : c.pdMax < 2 ^ 16
  n : ∀ x k, (c.n.get x).get k < 2 ^ 16

/-- `rangesOk` by parts. -/
structure InRange (s : State) : Prop where
  consts : ConstsInRange s.consts
  coeffs : CoeffsInRange s.coeffs
  ph : ∀ x, phaseOk (s.str.get x).ph = true
  cap : ∀ id, (s.store id).cap < 2 ^ 16

theorem widthsOk_iff {s : State} :
    widthsOk s = true ↔ (∀ id, (s.store id).cap < 2 ^ 16) ∧ s.consts.nr < 2 ^ 16 ∧ s.consts.pdMax < 2 ^ 16 ∧
      (∀ x k, (s.consts.n.get x).get k < 2 ^ 16) ∧ s.coeffs.pdN < 2 ^ 16 := by
  simp only [widthsOk, List.all_cons, List.all_nil, Bool.and_eq_true, decide_eq_true_eq, forall_str, forall_stage]
  constructor
  · rintro ⟨a1, a2, a3, a4, a5, a6, a7, a8, hnr, hpd, n1, n2, n3, n4, n5, n6, hN, -⟩
    exact ⟨forall_storeId a1 a2 a3 a4 a5 a6 a7 a8, hnr, hpd, ⟨⟨n1, n2, n3⟩, n4, n5, n6⟩, hN⟩
  · rintro ⟨hc, hnr, hpd, ⟨⟨n1, n2, n3⟩, n4, n5, n6⟩, hN⟩
    exact ⟨hc (.pd .c0), hc (.pd .c1), hc (.ap .L .k1), hc (.ap .L .k2), hc (.ap .L .k3), hc (.ap .R .k1), hc (.ap .R .k2),
      hc (.ap .R .k3), hnr, hpd, n1, n2, n3, n4, n5, n6, hN, trivial⟩

theorem rangesOk_iff {s : State} : rangesOk s = true ↔ InRange s := by
  simp only [rangesOk, Bool.and_eq_true, widthsOk_iff]
  constructor
  · rintro ⟨⟨⟨⟨⟨⟨⟨⟨hfs, il⟩, ir⟩, pl⟩, pr⟩, ha⟩, gl⟩, gr⟩, hcap, hnr, hpd, hn, hN⟩
    exact ⟨⟨hfs, forall_str.2 ⟨il, ir⟩, hnr, hpd, hn⟩, ⟨ha, forall_str.2 ⟨gl, gr⟩, hN⟩, forall_str.2 ⟨pl, pr⟩, hcap⟩
  · rintro ⟨⟨hfs, hinc, hnr, hpd, hn⟩, ⟨ha, hg, hN⟩, hph, hcap⟩
    exact ⟨⟨⟨⟨⟨⟨⟨⟨hfs, hinc .L⟩, hinc .R⟩, hph .L⟩, hph .R⟩, ha⟩, hg .L⟩, hg .R⟩, hcap, hnr, hpd, hn, hN⟩

theorem constsInRange_constantsFor {fs : F32} (h : between Config.fsMin fs Config.fsMax = true) :
    ConstsInRange (constantsFor Config.block fs) where
  fs := h
  inc := phaseOk_inc h
  nr := by have := nr_range h; omega
  pdMax := by have := pdMax_range h; omega
  n x k := by have := baseDelay_range h x k; omega

/-! ### How it is kept -/

namespace InRange

variable {s t : State}

/-- An operation that keeps the setup keeps the ranges if it keeps the phases' one. -/
theorem of_keepsSetup (h : InRange s) (k : KeepsSetup s t) (hph : ∀ x, phaseOk (t.str.get x).ph = true) : InRange t :=
  ⟨k.consts ▸ h.consts, k.coeffs ▸ h.coeffs, hph, fun id => k.cap id ▸ h.cap id⟩

/-- The advanced phase of a string is in range. -/
theorem nextPhase (h : InRange s) (x : Str) : phaseOk (nextPhase Config.block (s.str.get x).ph (s.consts.inc.get x)) = true :=
  phaseOk_nextPhase (h.ph x) (h.consts.inc x)

theorem withResult (h : InRange s) (vs : List F32) : InRange (s.withResult vs) := ⟨h.consts, h.coeffs, h.ph, h.cap⟩

theorem setSmoother (h : InRange s) (p : SmootherId) (x : Smoother) : InRange (s.setSmoother p x) :=
  ⟨by simpa using h.consts, by simpa using h.coeffs, by simpa using h.ph, by simpa using h.cap⟩

theorem setStore (h : InRange s) (id : StoreId) {st : Store} (hst : st.cap < 2 ^ 16) : InRange (s.setStore id st) := by
  refine ⟨by simpa using h.consts, by simpa using h.coeffs, by simpa using h.ph, fun id' => ?_⟩
  by_cases e : id' = id
  · subst e; simpa using hst
  · rw [State.store_setStore_ne s st e]; exact h.cap id'

theorem setFb (h : InRange s) (x : Str) (v : F32) : InRange (s.setFb x v) := by
  refine ⟨h.consts, h.coeffs, fun y => ?_, by simpa using h.cap⟩
  have := h.ph y
  cases x <;> cases y <;> exact this

theorem setLpz (h : InRange s) (x : Str) (v : F32) : InRange (s.setLpz x v) := by
  refine ⟨h.consts, h.coeffs, fun y => ?_, by simpa using h.cap⟩
  have := h.ph y
  cases x <;> cases y <;> exact this

theorem setPh (h : InRange s) (x : Str) {v : F32} (hv : phaseOk v = true) : InRange (s.setPh x v) := by
  refine ⟨h.consts, h.coeffs, fun y => ?_, by simpa using h.cap⟩
  by_cases e : y = x
  · subst e; simpa using hv
  · rw [State.setPh_str, Pair.get_set_ne _ _ e]; exact h.ph y

theorem storeReset (h : InRange s) (id : StoreId) : InRange (s.setStore id (storeReset (s.store id))) := h.setStore id (h.cap id)

theorem storeWrite (h : InRange s) (id : StoreId) (v : F32) : InRange (s.setStore id (storeWrite (s.store id) v)) :=
  h.setStore id (h.cap id)

theorem apProc (h : InRange s) (x : Str) (k : Stage) (v : F32) (n : Int) (g : F32) :
    InRange (apProc Config.block x k v n g s).1 := h.storeWrite (.ap x k) _

theorem apProcm (h : InRange s) (x : Str) (k : Stage) (v d g : F32) : InRange (apProcm Config.block x k v d g s).1 :=
  h.storeWrite (.ap x k) _

theorem mapAp (h : InRange s) (v : F32) : InRange (mapAp Config.block v s) :=
  ⟨h.consts, ⟨between_apCoeffOf v, h.coeffs.fbGain, h.coeffs.pdN⟩, h.ph, h.cap⟩

theorem mapFb (h : InRange s) (x : Str) (v : F32) : InRange (mapFb Config.block x v s) := by
  refine ⟨h.consts, ⟨h.coeffs.apCoeff, fun y => ?_, h.coeffs.pdN⟩, h.ph, h.cap⟩
  have hy := h.coeffs.fbGain y
  by_cases e : y = x
  · subst e; simpa [Machine.mapFb] using between_fbGainOf y v
  · rwa [Machine.mapFb, Pair.get_set_ne _ _ e]

theorem mapLp (h : InRange s) (v : F32) : InRange (mapLp Config.block v s) :=
  ⟨h.consts, ⟨h.coeffs.apCoeff, h.coeffs.fbGain, h.coeffs.pdN⟩, h.ph, h.cap⟩

theorem mapWob (h : InRange s) (v : F32) : InRange (mapWob Config.block v s) :=
  ⟨h.consts, ⟨h.coeffs.apCoeff, h.coeffs.fbGain, h.coeffs.pdN⟩, h.ph, h.cap⟩

theorem mapPd (h : InRange s) (v : F32) : InRange (mapPd Config.block v s) :=
  ⟨h.consts, ⟨h.coeffs.apCoeff, h.coeffs.fbGain, (pdNOf_le v s.consts.fs h.consts.pdMax).trans_lt h.consts.pdMax⟩, h.ph, h.cap⟩

theorem strStep (h : InRange s) (x : Str) (xin gain : F32) : InRange (strStep Config.block x xin gain s).1 := by
  refine h.of_keepsSetup (keepsSetup_strStep x xin gain s) fun y => ?_
  rw [strStep_ph]
  split
  · exact h.nextPhase y
  · exact h.ph y

theorem frameOp (h : InRange s) : InRange (frameOp Config.block s) := by
  refine h.of_keepsSetup (keepsSetup_frameOp s) fun x => ?_
  obtain e | e := frameOp_ph s x <;> rw [e]
  · exact h.ph x
  · exact h.nextPhase x

theorem datapathTurn (h : InRange s) : InRange (datapathTurn Config.block s) := by
  refine h.of_keepsSetup (keepsSetup_datapathTurn s) fun x => ?_
  obtain e | e := datapathTurn_ph s x <;> rw [e]
  · exact h.ph x
  · exact h.nextPhase x

theorem latch (h : InRange s) : InRange (latch Config.block s) :=
  ⟨by simpa using h.consts, latch_coeffsInRange h.consts.pdMax, by simpa using h.ph, by simpa using h.cap⟩

theorem prepareAll (h : InRange s) : InRange (prepareAll Config.block s) where
  consts := constsInRange_constantsFor (between_sampleRate s.host)
  coeffs := h.coeffs
  ph := forall_str.2 ⟨phaseOk_plusZero, phaseOk_plusZero⟩
  cap id := prepareAll_cap_eq_fit s id ▸ fitCapacity_lt _

theorem resetAll (h : InRange s) : InRange (resetAll Config.block s) := by
  refine h.of_keepsSetup (keepsSetup_resetAll s) fun x => ?_
  obtain e | e := resetAll_ph s x <;> rw [e]
  · exact h.ph x
  · exact phaseOk_plusZero

theorem startBlock (h : InRange s) (stereo : Bool) (n : BitVec 16) : InRange (startBlock Config.block stereo n s) := by
  have h' : InRange (if s.prep then Machine.latch Config.block s else s) := by
    split
    · exact h.latch
    · exact h
  rw [startBlock_eq]
  exact ⟨h'.consts, h'.coeffs, h'.ph, h'.cap⟩

end InRange

/-- Every instruction that answers a next state keeps the ranges, whatever its operands. -/
theorem exec_inRange {i : Instr} {s t : State} (h : InRange s) (ht : exec i s = .next t) : InRange t := by
  have done {u : State} (hu : InRange u) (e : exec i s = .next u) : InRange t := next_inj.1 (e.symm.trans ht) ▸ hu
  have command {u : State} (hu : InRange u) (e : exec i s = accept s (.next u)) : InRange t :=
    next_inj.1 (accept_eq_next.1 (e.symm.trans ht)).2 ▸ hu
  cases i with
  | nop => exact command h (exec_nop s)
  | prepare => exact command h.prepareAll (exec_prepare s)
  | reset => exact command h.resetAll (exec_reset s)
  | process stereo n => exact command (h.startBlock stereo n) (exec_process stereo n s)
  | rbPrep id m hd => exact done (h.setStore id (fitCapacity_lt _)) (exec_rbPrep id m hd s)
  | rbReset id => exact done (h.storeReset id) (exec_rbReset id s)
  | rbWrite id v => exact done (h.storeWrite id v) (exec_rbWrite id v s)
  | rbRdi id d o => exact done (h.withResult _) (exec_rbRdi id d o s)
  | rbRdf id d o => exact done (h.withResult _) (exec_rbRdf id d o s)
  | apProc x k v n g => exact done ((h.apProc x k v n g).withResult _) (exec_apProc x k v n g s)
  | apProcm x k v d g => exact done ((h.apProcm x k v d g).withResult _) (exec_apProcm x k v d g s)
  | pdWrite c v => exact done (h.storeWrite (.pd c) v) (exec_pdWrite c v s)
  | pdRead c n => exact done (h.withResult _) (exec_pdRead c n s)
  | lfoMod x => exact done (h.withResult _) (exec_lfoMod x s)
  | lfoAdv x => exact done (h.setPh x (h.nextPhase x)) (exec_lfoAdv x s)
  | lpProc x v => exact done ((h.setLpz x _).withResult _) (exec_lpProc x v s)
  | fbSum x v => exact done (h.withResult _) (exec_fbSum x v s)
  | fbUpd x v => exact done (h.setFb x _) (exec_fbUpd x v s)
  | strStep x v g => exact done ((h.strStep x v g).withResult _) (exec_strStep x v g s)
  | drvGain d => exact done (h.withResult _) (exec_drvGain d s)
  | drvShape x g => exact done (h.withResult _) (exec_drvShape x g s)
  | mapClamp w1 w2 w3 w4 w5 w6 w7 => exact done (h.withResult _) (exec_mapClamp w1 w2 w3 w4 w5 w6 w7 s)
  | mapAp v => exact done (h.mapAp v) (exec_mapAp v s)
  | mapFb x v => exact done (h.mapFb x v) (exec_mapFb x v s)
  | mapLp v => exact done (h.mapLp v) (exec_mapLp v s)
  | mapWob v => exact done (h.mapWob v) (exec_mapWob v s)
  | mapPd v => exact done (h.mapPd v) (exec_mapPd v s)
  | smSeed p v => exact done (h.setSmoother p _) (exec_smSeed p v s)
  | smSet p v => exact done (h.setSmoother p _) (exec_smSet p v s)
  | smNext p => exact done ((h.setSmoother p _).withResult _) (exec_smNext p s)
  | blkLatch => exact done h.latch (exec_blkLatch s)
  | inSan w => exact done (h.withResult _) (exec_inSan w s)
  | mixBlend a b m => exact done (h.withResult _) (exec_mixBlend a b m s)
  | frame => exact done h.frameOp (exec_frame s)

/-- Every event keeps the ranges. -/
theorem runEvent_inRange {e : Event} {s t : State} (h : InRange s) (ht : runEvent e s = .next t) : InRange t := by
  obtain ⟨hk, hstr, -⟩ | rfl | ⟨_, hx⟩ | ⟨_, _, -, hx⟩ := runEvent_kinds ht
  · exact h.of_keepsSetup hk (hstr ▸ h.ph)
  · exact h.datapathTurn
  · exact exec_inRange h hx
  · exact exec_inRange h hx

theorem step_keeps_rangesOk {s t : State} (h : rangesOk s = true) (ht : step s = .next t) : rangesOk t = true := by
  rw [rangesOk_iff] at *
  cases ha : s.agenda with
  | nil => rw [step_idle ha] at ht; exact next_inj.1 ht ▸ h.datapathTurn
  | cons e rest =>
    rw [step_event ha] at ht
    exact runEvent_inRange (h.of_keepsSetup (keepsSetup_agenda s rest) h.ph) ht

/-! ### The ranges without datapath records -/

/-- The machine holds the constants `PREPARE` computes from its sample rate, and stores of the capacities it sizes. -/
structure Prepared (s : State) : Prop where
  consts : s.consts = constantsFor Config.block s.consts.fs
  cap : ∀ id, (s.store id).cap = preparedCap s.consts id

theorem preparedOk_iff {s : State} : preparedOk s = true ↔ Prepared s := by
  simp only [preparedOk, Bool.and_eq_true, beq_iff_eq]
  constructor
  · rintro ⟨⟨⟨⟨⟨⟨⟨⟨hc, h1⟩, h2⟩, h3⟩, h4⟩, h5⟩, h6⟩, h7⟩, h8⟩
    rw [← hc] at h1 h2 h3 h4 h5 h6 h7 h8
    exact ⟨hc, forall_storeId h1 h2 h3 h4 h5 h6 h7 h8⟩
  · rintro ⟨hc, h⟩
    rw [← hc]
    exact ⟨⟨⟨⟨⟨⟨⟨⟨rfl, h (.pd .c0)⟩, h (.pd .c1)⟩, h (.ap .L .k1)⟩, h (.ap .L .k2)⟩, h (.ap .L .k3)⟩, h (.ap .R .k1)⟩,
      h (.ap .R .k2)⟩, h (.ap .R .k3)⟩

/-- `blockRangesOk` by parts. -/
structure BlockInRange (s : State) : Prop where
  fs : between Config.fsMin s.consts.fs Config.fsMax = true
  prepared : s.prep = true → Prepared s
  damping : DampingInRange s.coeffs
  rendering : s.seq.run = true → s.seq.bypass = false → s.prep = true ∧ DelaysInRange s.consts s.coeffs

theorem blockRangesOk_iff {s : State} : blockRangesOk s = true ↔ BlockInRange s := by
  simp only [blockRangesOk, Bool.and_eq_true, Bool.or_eq_true, Bool.not_eq_true', decide_eq_true_eq, preparedOk_iff]
  constructor
  · rintro ⟨⟨⟨⟨⟨hfs, hp⟩, h1⟩, h2⟩, h3⟩, hr⟩
    refine ⟨hfs, fun e => hp.resolve_left (by simp [e]), ⟨h1, h2, h3⟩, fun hrun hb => ?_⟩
    obtain ⟨⟨a, b⟩, c⟩ := hr.resolve_left (by simp [hrun, hb])
    exact ⟨a, b, c⟩
  · rintro ⟨hfs, hp, ⟨h1, h2, h3⟩, hr⟩
    refine ⟨⟨⟨⟨⟨hfs, ?_⟩, h1⟩, h2⟩, h3⟩, ?_⟩
    · cases e : s.prep
      · exact .inl rfl
      · exact .inr (hp e)
    · cases hrun : s.seq.run
      · exact .inl (.inl rfl)
      · cases hb : s.seq.bypass
        · obtain ⟨a, b, c⟩ := hr hrun hb
          exact .inr ⟨⟨a, b⟩, c⟩
        · exact .inl (.inr rfl)

namespace BlockInRange

variable {s t : State}

theorem of_keepsSetup (h : BlockInRange s) (k : KeepsSetup s t) : BlockInRange t where
  fs := k.consts ▸ h.fs
  prepared hp := by
    obtain ⟨hc, hcap⟩ := h.prepared (k.prep ▸ hp)
    exact ⟨k.consts ▸ hc, fun id => by rw [k.cap, k.consts]; exact hcap id⟩
  damping := k.coeffs ▸ h.damping
  rendering hr hb := by
    rw [k.prep, k.consts, k.coeffs]
    exact h.rendering (k.run hr) (k.bypass ▸ hb)

theorem prepareAll (h : BlockInRange s) (hidle : s.seq.run = false) : BlockInRange (prepareAll Config.block s) where
  fs := between_sampleRate s.host
  prepared _ := ⟨rfl, prepareAll_cap s⟩
  damping := h.damping
  rendering hr := by
    have hr : s.seq.run = true := hr
    rw [hidle] at hr; cases hr

/-- A prepared machine with latched coefficients may start any block. -/
theorem of_prepared (hfs : between Config.fsMin s.consts.fs Config.fsMax = true) (hprep : s.prep = true) (hp : Prepared s)
    (hd : DampingInRange s.coeffs) (hl : DelaysInRange s.consts s.coeffs) (q : Sequencer) : BlockInRange { s with seq := q } :=
  ⟨hfs, fun _ => ⟨hp.consts, hp.cap⟩, hd, fun _ _ => ⟨hprep, hl⟩⟩

/-- A block that renders is latched from the constants of `PREPARE`. -/
theorem startBlock (h : BlockInRange s) (stereo : Bool) (n : BitVec 16) : BlockInRange (startBlock Config.block stereo n s) := by
  rw [startBlock_eq]
  cases hp : s.prep
  · exact ⟨h.fs, fun e => absurd (hp.symm.trans e) nofun, h.damping, nofun⟩
  · obtain ⟨hc, hcap⟩ := h.prepared hp
    have hlatched : Prepared (latch Config.block s) :=
      ⟨by rw [latch_consts]; exact hc, fun id => by rw [latch_store, latch_consts]; exact hcap id⟩
    rw [if_pos rfl]
    exact of_prepared (by rw [latch_consts]; exact h.fs) (by rw [latch_prep, hp]) hlatched (latch_dampingInRange h.fs)
      (by rw [latch_consts]; exact latch_delaysInRange h.fs hc) _

end BlockInRange

/-- Every command keeps the ranges of a machine that no datapath record reaches. -/
theorem command_blockInRange {w : Word} {s t : State} (h : BlockInRange s) (ht : exec (decodeCommand w) s = .next t) :
    BlockInRange t := by
  obtain e | e | e | ⟨stereo, n, e⟩ := decodeCommand_cases w <;> rw [e] at ht
  · rw [exec_nop] at ht
    exact next_inj.1 (accept_eq_next.1 ht).2 ▸ h
  · rw [exec_prepare] at ht
    obtain ⟨hidle, hn⟩ := accept_eq_next.1 ht
    exact next_inj.1 hn ▸ h.prepareAll hidle
  · rw [exec_reset] at ht
    exact next_inj.1 (accept_eq_next.1 ht).2 ▸ h.of_keepsSetup (keepsSetup_resetAll s)
  · rw [exec_process] at ht
    exact next_inj.1 (accept_eq_next.1 ht).2 ▸ h.startBlock stereo n

/-- An event that presents no record keeps the ranges and the rest of the agenda. -/
theorem runEvent_blockInRange {e : Event} {s t : State} (he : ∀ ws, e ≠ .datapath ws) (h : BlockInRange s)
    (ht : runEvent e s = .next t) : t.agenda = s.agenda ∧ BlockInRange t := by
  obtain ⟨hk, -, hag⟩ | rfl | ⟨_, hx⟩ | ⟨_, _, hd, -⟩ := runEvent_kinds ht
  · exact ⟨hag, h.of_keepsSetup hk⟩
  · exact ⟨agenda_datapathTurn s, h.of_keepsSetup (keepsSetup_datapathTurn s)⟩
  · obtain ⟨-, hag, -⟩ := command_seq hx
    exact ⟨hag, command_blockInRange h hx⟩
  · exact absurd hd (he _)

theorem step_keeps_blockRangesOk {s t : State} (hn : noRecords s = true) (h : blockRangesOk s = true) (ht : step s = .next t) :
    noRecords t = true ∧ blockRangesOk t = true := by
  rw [blockRangesOk_iff] at *
  cases ha : s.agenda with
  | nil =>
    rw [step_idle ha] at ht
    rw [← next_inj.1 ht]
    exact ⟨by simp [noRecords, agenda_datapathTurn, ha], h.of_keepsSetup (keepsSetup_datapathTurn s)⟩
  | cons e rest =>
    rw [step_event ha] at ht
    simp only [noRecords, ha, List.all_cons, Bool.and_eq_true] at hn
    obtain ⟨he, hrest⟩ := hn
    have hs : BlockInRange { s with agenda := rest } := h.of_keepsSetup (keepsSetup_agenda s rest)
    obtain ⟨hag, hb⟩ := runEvent_blockInRange (fun ws hd => by rw [hd] at he; cases he) hs ht
    exact ⟨by simp only [noRecords, hag]; exact hrest, hb⟩

/-- Settles O58: every instruction, every turn of the datapath and every host access keeps the numeric invariant, and without
datapath records only `PREPARE` and the latch of `PROCESS` write what the second invariant speaks of. -/
theorem stepKeepsRanges : Obligations.StepKeepsRanges := by
  unfold Obligations.StepKeepsRanges
  exact ⟨fun _ _ => step_keeps_rangesOk, fun _ _ => step_keeps_blockRangesOk⟩

end Sys2Proof.Machine
end

section
/-! Every step keeps the machine in order (R22, R24, R25, R29, R30, R64): stores, smoothers and sequencer each keep their invariant
under each part of an operation, and the operations are those parts one after the other. -/

namespace Sys2Proof.Machine

open Fp

/-! ### Smoothers (R30) -/

theorem smootherOk_iff {nr : Nat} {x : Smoother} : smootherOk nr x = true ↔ x.cnt ≤ nr ∧ (x.cnt = 0 → x.cur = x.tgt) := by
  simp [smootherOk, imp_iff_not_or]

theorem smootherOk_seeded (nr : Nat) (v : F32) : smootherOk nr (seeded v) = true := by
  rw [seeded_eq, smootherOk_iff]; exact ⟨Nat.zero_le nr, fun _ => rfl⟩

/-- A new ramp has `NR` samples to go, which is at least one; an equal target changes nothing. -/
theorem smootherOk_retargeted {nr : Nat} {x : Smoother} (hnr : 1 ≤ nr) (h : smootherOk nr x = true) (v : F32) :
    smootherOk nr (retargeted Config.block nr v x) = true := by
  rw [retargeted_block]
  split
  · exact h
  · exact smootherOk_iff.2 ⟨le_rfl, fun h0 => absurd h0 (Nat.one_le_iff_ne_zero.1 hnr)⟩

/-- A step of a ramp lands on the target when it is the last, and else leaves samples to go. -/
theorem smootherOk_advanced {nr : Nat} {x : Smoother} (h : smootherOk nr x = true) :
    smootherOk nr (advanced Config.block x) = true := by
  obtain ⟨hle, -⟩ := smootherOk_iff.1 h
  rw [advanced_block]
  split
  · exact h
  · split
    · exact smootherOk_iff.2 ⟨Nat.zero_le nr, fun _ => rfl⟩
    · next hlast => exact smootherOk_iff.2 ⟨(Nat.sub_le _ _).trans hle, fun h0 => absurd h0 hlast⟩

theorem setStore_smoother (s : State) (id : StoreId) (st : Store) (p : SmootherId) :
    (s.setStore id st).smoother p = s.smoother p := by
  cases p
  · exact State.setStore_smMix s id st
  · exact State.setStore_smDrive s id st

/-! ### What the decoder reads is well formed (R84, R101; log entry 11) -/

theorem fitsSigned32_toInt (w : Word) : fitsSigned32 w.toInt = true := by
  have hlo := BitVec.le_toInt w
  have hhi := BitVec.toInt_lt (x := w)
  simp only [fitsSigned32, Bool.and_eq_true, decide_eq_true_eq]
  omega

theorem fitsDelay_iff {m : Nat} : fitsDelay m = true ↔ 1 ≤ m ∧ m ≤ 2 ^ 32 := by simp [fitsDelay]

/-- The operand word of `RB.PREP` holds `maxDelay - 1`. -/
theorem fitsDelay_succ_toNat (w : Word) : fitsDelay (w.toNat + 1) = true := fitsDelay_iff.2 ⟨by omega, w.isLt⟩

theorem wellFormed_of_withStore {h : Word} {k : StoreId → Instr} {i : Instr} (e : withStore h k = .ok i)
    (hk : ∀ st, wellFormed (k st) = true) : wellFormed i = true := by
  unfold withStore at e
  split at e
  · exact Except.ok.inj e ▸ hk _
  · cases e

theorem wellFormed_of_withStage {h : Word} {k : Stage → Instr} {i : Instr} (e : withStage h k = .ok i)
    (hk : ∀ st, wellFormed (k st) = true) : wellFormed i = true := by
  unfold withStage at e
  split at e
  · exact Except.ok.inj e ▸ hk _
  · cases e

/-- Only the delays need the limits of their operand words; the other operands are whole words. -/
theorem wellFormed_of_decodeFields {h a b c d e f g : Word} {i : Instr} (hi : decodeFields h a b c d e f g = .ok i) :
    wellFormed i = true := by
  unfold decodeFields at hi
  split at hi
  case h_1 => exact wellFormed_of_withStore hi fun _ => fitsDelay_succ_toNat a
  case h_2 | h_3 | h_5 => exact wellFormed_of_withStore hi fun _ => rfl
  case h_4 => exact wellFormed_of_withStore hi fun _ => fitsSigned32_toInt a
  case h_6 => exact wellFormed_of_withStage hi fun _ => fitsSigned32_toInt b
  case h_7 => exact wellFormed_of_withStage hi fun _ => rfl
  case h_9 => exact Except.ok.inj hi ▸ fitsSigned32_toInt a
  case h_31 => cases hi
  all_goals exact Except.ok.inj hi ▸ rfl

theorem wellFormed_of_decodeRecord {ws : List Word} {i : Instr} (hi : decode .uop ws = .ok i) : wellFormed i = true := by
  simp only [decode, decodeRecord] at hi
  split at hi
  · split at hi
    · cases hi
    · split at hi
      · exact wellFormed_of_decodeFields hi
      · cases hi
  · cases hi

theorem wellFormed_decodeCommand (w : Word) : wellFormed (decodeCommand w) = true := by
  obtain e | e | e | ⟨_, _, e⟩ := decodeCommand_cases w <;> rw [e] <;> rfl

/-! ### The sequencer (R22, R24, R204) -/

theorem frameOp_seq (s : State) : (frameOp Config.block s).seq = s.seq := by
  cases hq : s.inQ with
  | nil => rw [frameOp_nil hq]
  | cons f rest => rw [frameOp_eq hq]

theorem bypassFrame_seq (s : State) : (bypassFrame s).seq = s.seq := by
  cases hq : s.inQ <;> simp only [bypassFrame, hq]

/-- `seqOk` by parts: a block runs exactly while frames are left, and a running block that renders is prepared. -/
theorem seqOk_iff {s : State} :
    seqOk s = true ↔
      (s.seq.run = true ↔ s.seq.frames ≠ 0#16) ∧ (s.seq.run = true → s.seq.bypass = false → s.prep = true) := by
  unfold seqOk
  cases s.seq.run <;> cases s.seq.bypass <;> cases s.prep <;> simp

/-! ### The invariant by parts -/

/-- `wellFormedState` by parts: every store, `NR`, every smoother, the sequencer. -/
structure InOrder (s : State) : Prop where
  store : ∀ id, storeOk (s.store id) = true
  nr : 1 ≤ s.consts.nr
  smoother : ∀ p, smootherOk s.consts.nr (s.smoother p) = true
  seq : seqOk s = true

theorem wellFormedState_iff {s : State} : wellFormedState s = true ↔ InOrder s := by
  simp only [wellFormedState, Bool.and_eq_true, decide_eq_true_eq, storesOk_iff]
  constructor
  · rintro ⟨⟨⟨⟨hst, hnr⟩, hmix⟩, hdrive⟩, hseq⟩
    exact ⟨hst, hnr, fun p => by cases p; exacts [hmix, hdrive], hseq⟩
  · rintro ⟨hst, hnr, hsm, hseq⟩
    exact ⟨⟨⟨⟨hst, hnr⟩, hsm .mix⟩, hsm .drive⟩, hseq⟩

namespace InOrder

variable {s : State}

/-! ### How each part of the state keeps it -/

theorem setStore (h : InOrder s) (id : StoreId) {st : Store} (hst : storeOk st = true) : InOrder (s.setStore id st) where
  store id' := by
    by_cases e : id' = id
    · subst e; rwa [State.store_setStore_self]
    · rw [State.store_setStore_ne s st e]; exact h.store id'
  nr := by rw [State.setStore_consts]; exact h.nr
  smoother p := by rw [State.setStore_consts, setStore_smoother]; exact h.smoother p
  seq := by rw [seqOk, State.setStore_seq, State.setStore_prep]; exact h.seq

theorem setSmoother (h : InOrder s) (p : SmootherId) {x : Smoother} (hx : smootherOk s.consts.nr x = true) :
    InOrder (s.setSmoother p x) where
  store id := by rw [State.setSmoother_store]; exact h.store id
  nr := by rw [State.setSmoother_consts]; exact h.nr
  smoother p' := by
    rw [State.setSmoother_consts]
    by_cases e : p' = p
    · subst e; rwa [State.smoother_setSmoother_self]
    · rw [State.smoother_setSmoother_ne s x e]; exact h.smoother p'
  seq := by rw [seqOk, State.setSmoother_seq, State.setSmoother_prep]; exact h.seq

theorem setFb (h : InOrder s) (x : Str) (v : F32) : InOrder (s.setFb x v) :=
  ⟨fun id => by rw [State.setFb_store]; exact h.store id, h.nr, h.smoother, h.seq⟩

theorem setPh (h : InOrder s) (x : Str) (v : F32) : InOrder (s.setPh x v) :=
  ⟨fun id => by rw [State.setPh_store]; exact h.store id, h.nr, h.smoother, h.seq⟩

theorem setLpz (h : InOrder s) (x : Str) (v : F32) : InOrder (s.setLpz x v) :=
  ⟨fun id => by rw [State.setLpz_store]; exact h.store id, h.nr, h.smoother, h.seq⟩

theorem withResult (h : InOrder s) (vs : List F32) : InOrder (s.withResult vs) := ⟨h.store, h.nr, h.smoother, h.seq⟩

/-- The coefficient registers are no part of it. -/
theorem setCoeffs (h : InOrder s) (κ : Coefficients) : InOrder { s with coeffs := κ } := ⟨h.store, h.nr, h.smoother, h.seq⟩

/-- Nor are the streams, the host registers and the model's own notes. -/
theorem setHostSide (h : InOrder s) {hr : HostRegs} {inQ outQ : List Frame} {agenda : List Event} {readLog : List Word}
    {racing : List (Param × Word)} {draws : Nat} :
    InOrder { s with host := hr, inQ := inQ, outQ := outQ, agenda := agenda, readLog := readLog, racing := racing, draws := draws } :=
  ⟨h.store, h.nr, h.smoother, h.seq⟩

/-! ### Datapath operations -/

theorem rbPrep (h : InOrder s) (id : StoreId) {m : Nat} (hm : 1 ≤ m) (hd : Headroom) :
    InOrder (s.setStore id (storePrep Config.block m hd)) := h.setStore id (storeOk_prep hm hd)

theorem rbReset (h : InOrder s) (id : StoreId) : InOrder (s.setStore id (storeReset (s.store id))) :=
  h.setStore id (storeOk_reset (h.store id))

theorem rbWrite (h : InOrder s) (id : StoreId) (v : F32) : InOrder (s.setStore id (storeWrite (s.store id) v)) :=
  h.setStore id (storeWrite_spec (h.store id) v).1

theorem apProc (h : InOrder s) (x : Str) (k : Stage) (v : F32) (n : Int) (g : F32) :
    InOrder (apProc Config.block x k v n g s).1 := h.rbWrite (.ap x k) _

theorem apProcm (h : InOrder s) (x : Str) (k : Stage) (v d g : F32) : InOrder (apProcm Config.block x k v d g s).1 :=
  h.rbWrite (.ap x k) _

theorem strStep (h : InOrder s) (x : Str) (xin gain : F32) : InOrder (strStep Config.block x xin gain s).1 :=
  ((((((h.rbWrite (.pd (chanOf x)) xin).apProc x .k1 _ _ _).apProc x .k2 _ _ _).apProcm x .k3 _ _ _).setLpz x _).setFb x _).setPh x _

theorem smSeed (h : InOrder s) (p : SmootherId) (v : F32) : InOrder (s.setSmoother p (seeded v)) :=
  h.setSmoother p (smootherOk_seeded _ v)

theorem smSet (h : InOrder s) (p : SmootherId) (v : F32) :
    InOrder (s.setSmoother p (retargeted Config.block s.consts.nr v (s.smoother p))) :=
  h.setSmoother p (smootherOk_retargeted h.nr (h.smoother p) v)

theorem smNext (h : InOrder s) (p : SmootherId) : InOrder (s.setSmoother p (advanced Config.block (s.smoother p))) :=
  h.setSmoother p (smootherOk_advanced (h.smoother p))

/-- A latch writes coefficients and retargets both smoothers (R205). -/
theorem latch (h : InOrder s) : InOrder (latch Config.block s) := by
  have hl : InOrder (landRacing s) := h.setHostSide
  exact ((hl.setCoeffs _).smSet .mix _).smSet .drive _

/-- A frame advances both smoothers and steps both strings (R210). -/
theorem frameSignal (h : InOrder s) (f : Frame) : InOrder (frameSignal Config.block f s).1 :=
  (((h.smNext .mix).smNext .drive).strStep .L _ _).strStep .R _ _

theorem frameOp (h : InOrder s) : InOrder (frameOp Config.block s) := by
  cases hq : s.inQ with
  | nil => rwa [frameOp_nil hq]
  | cons f rest =>
    have hf : InOrder (Machine.frameSignal Config.block f { s with inQ := rest }).1 :=
      h.setHostSide.frameSignal f
    simp only [Machine.frameOp, hq]
    exact hf.setHostSide

theorem bypassFrame (h : InOrder s) : InOrder (bypassFrame s) := by
  cases hq : s.inQ with
  | nil => simpa only [Machine.bypassFrame, hq] using h
  | cons f rest =>
    simp only [Machine.bypassFrame, hq]
    exact h.setHostSide

/-! ### Commands and turns -/

/-- `PREPARE` sizes every store for a delay of at least 1, and a prepared machine may run any block (R202). -/
theorem prepareAll (h : InOrder s) : InOrder (prepareAll Config.block s) where
  store := by
    have hfs := between_sampleRate s.host
    have hpd := pdMax_range hfs
    have hn := baseDelay_range hfs
    rw [prepareAll_eq]
    generalize constantsFor Config.block (sampleRate Config.block s.host) = c at hpd hn ⊢
    have hline := storeOk_prep (m := c.pdMax) (by omega) .int
    exact forall_storeId hline hline (storeOk_prep (hn .L .k1).1 .int) (storeOk_prep (hn .L .k2).1 .int)
      (storeOk_prep (Nat.le_add_left 1 _) .frac) (storeOk_prep (hn .R .k1).1 .int) (storeOk_prep (hn .R .k2).1 .int)
      (storeOk_prep (Nat.le_add_left 1 _) .frac)
  nr := by have := nr_range (between_sampleRate s.host); rw [prepareAll_consts]; omega
  smoother p := by cases p <;> exact smootherOk_seeded _ _
  seq := seqOk_iff.2 ⟨(seqOk_iff.1 h.seq).1, fun _ _ => rfl⟩

theorem resetAll (h : InOrder s) : InOrder (resetAll Config.block s) := by
  have hr (id : StoreId) : storeOk (storeReset (s.store id)) = true := storeOk_reset (h.store id)
  cases hp : s.prep
  · simpa [Machine.resetAll, hp] using h
  · rw [resetAll_eq hp]
    refine ⟨?_, h.nr, fun p => by cases p <;> exact smootherOk_seeded _ _, h.seq⟩
    exact forall_storeId (hr (.pd .c0)) (hr (.pd .c1)) (hr (.ap .L .k1)) (hr (.ap .L .k2)) (hr (.ap .L .k3)) (hr (.ap .R .k1))
      (hr (.ap .R .k2)) (hr (.ap .R .k3))

/-- A block runs while it has frames, and renders only on a prepared machine (R204). -/
theorem startBlock (h : InOrder s) (stereo : Bool) (n : BitVec 16) : InOrder (startBlock Config.block stereo n s) := by
  have h' : InOrder (if s.prep then Machine.latch Config.block s else s) := by
    split
    · exact h.latch
    · exact h
  rw [startBlock_eq]
  refine ⟨h'.store, h'.nr, h'.smoother, seqOk_iff.2 ⟨bne_iff_ne, fun _ hb => ?_⟩⟩
  cases hp : s.prep
  · rw [hp] at hb; cases hb
  · rw [if_pos rfl, latch_prep, hp]

theorem countFrame (h : InOrder s) (hrun : s.seq.run = true) : InOrder (countFrame s) :=
  ⟨h.store, h.nr, h.smoother, seqOk_iff.2 ⟨bne_iff_ne, fun _ => (seqOk_iff.1 h.seq).2 hrun⟩⟩

theorem datapathTurn (h : InOrder s) : InOrder (datapathTurn Config.block s) := by
  obtain ⟨-, e⟩ | ⟨hr, hf, -⟩ | ⟨-, -, -, e⟩ | ⟨hr, -, _, _, -, e⟩ := datapathTurn_cases s
  · rwa [e]
  · exact absurd hf ((seqOk_iff.1 h.seq).1.1 hr)
  · rwa [e]
  · rw [e]
    split
    · exact h.bypassFrame.countFrame (by rwa [bypassFrame_seq])
    · exact h.frameOp.countFrame (by rwa [frameOp_seq])

end InOrder

/-! ### Instructions, events and steps -/

/-- Every instruction that answers a next state keeps the machine in order; `RB.PREP` needs the delay of at least 1 that R101 asks
for. -/
theorem exec_inOrder {i : Instr} {s t : State} (h : InOrder s) (hi : wellFormed i = true) (ht : exec i s = .next t) : InOrder t := by
  have done {u : State} (hu : InOrder u) (e : exec i s = .next u) : InOrder t := next_inj.1 (e.symm.trans ht) ▸ hu
  have command {u : State} (hu : InOrder u) (e : exec i s = accept s (.next u)) : InOrder t :=
    next_inj.1 (accept_eq_next.1 (e.symm.trans ht)).2 ▸ hu
  cases i with
  | nop => exact command h (exec_nop s)
  | prepare => exact command h.prepareAll (exec_prepare s)
  | reset => exact command h.resetAll (exec_reset s)
  | process stereo n => exact command (h.startBlock stereo n) (exec_process stereo n s)
  | rbPrep id m hd => exact done (h.rbPrep id (fitsDelay_iff.1 hi).1 hd) (exec_rbPrep id m hd s)
  | rbReset id => exact done (h.rbReset id) (exec_rbReset id s)
  | rbWrite id v => exact done (h.rbWrite id v) (exec_rbWrite id v s)
  | rbRdi id d o => exact done (h.withResult _) (exec_rbRdi id d o s)
  | rbRdf id d o => exact done (h.withResult _) (exec_rbRdf id d o s)
  | apProc x k v n g => exact done ((h.apProc x k v n g).withResult _) (exec_apProc x k v n g s)
  | apProcm x k v d g => exact done ((h.apProcm x k v d g).withResult _) (exec_apProcm x k v d g s)
  | pdWrite c v => exact done (h.rbWrite (.pd c) v) (exec_pdWrite c v s)
  | pdRead c n => exact done (h.withResult _) (exec_pdRead c n s)
  | lfoMod x => exact done (h.withResult _) (exec_lfoMod x s)
  | lfoAdv x => exact done (h.setPh x _) (exec_lfoAdv x s)
  | lpProc x v => exact done ((h.setLpz x _).withResult _) (exec_lpProc x v s)
  | fbSum x v => exact done (h.withResult _) (exec_fbSum x v s)
  | fbUpd x v => exact done (h.setFb x _) (exec_fbUpd x v s)
  | strStep x v g => exact done ((h.strStep x v g).withResult _) (exec_strStep x v g s)
  | drvGain d => exact done (h.withResult _) (exec_drvGain d s)
  | drvShape x g => exact done (h.withResult _) (exec_drvShape x g s)
  | mapClamp w1 w2 w3 w4 w5 w6 w7 => exact done (h.withResult _) (exec_mapClamp w1 w2 w3 w4 w5 w6 w7 s)
  | mapAp v => exact done (h.setCoeffs _) (exec_mapAp v s)
  | mapFb x v => exact done (h.setCoeffs _) (exec_mapFb x v s)
  | mapLp v => exact done (h.setCoeffs _) (exec_mapLp v s)
  | mapWob v => exact done (h.setCoeffs _) (exec_mapWob v s)
  | mapPd v => exact done (h.setCoeffs _) (exec_mapPd v s)
  | smSeed p v => exact done (h.smSeed p v) (exec_smSeed p v s)
  | smSet p v => exact done (h.smSet p v) (exec_smSet p v s)
  | smNext p => exact done ((h.smNext p).withResult _) (exec_smNext p s)
  | blkLatch => exact done h.latch (exec_blkLatch s)
  | inSan w => exact done (h.withResult _) (exec_inSan w s)
  | mixBlend a b m => exact done (h.withResult _) (exec_mixBlend a b m s)
  | frame => exact done h.frameOp (exec_frame s)

/-- Every event keeps the machine in order: accesses and supplies touch none of its parts, and what a command word or a record
decodes to is well formed. -/
theorem runEvent_inOrder {e : Event} {s t : State} (h : InOrder s) (ht : runEvent e s = .next t) : InOrder t := by
  obtain ⟨_, rfl⟩ | ⟨_, rfl⟩ | ⟨_, rfl⟩ | ⟨_, _, rfl⟩ | rfl | ⟨w, hx⟩ | ⟨ws, i, -, hd, hx⟩ := runEvent_cases ht
  · exact h.setHostSide
  · exact h.setHostSide
  · exact h.setHostSide
  · exact h.setHostSide
  · exact h.datapathTurn
  · exact exec_inOrder h (wellFormed_decodeCommand w) hx
  · exact exec_inOrder h (wellFormed_of_decodeRecord hd) hx

/-- Settles O57: a step is a turn of the datapath or an event, and each keeps the invariant's parts. -/
theorem stepKeepsWellFormedState : Obligations.StepKeepsWellFormedState := by
  unfold Obligations.StepKeepsWellFormedState
  intro s t h ht
  rw [wellFormedState_iff] at h ⊢
  cases ha : s.agenda with
  | nil => rw [step_idle ha] at ht; exact next_inj.1 ht ▸ h.datapathTurn
  | cons e rest =>
    rw [step_event ha] at ht
    exact runEvent_inOrder h.setHostSide ht

end Sys2Proof.Machine
end

section
/-! The host port (R21, R65): which register each offset of the map reaches, and what a read returns and a write changes there. -/

namespace Sys2Proof.Machine

/-! ### Offsets and registers -/

/-- Every aligned whole word below 0x40 is a word of the map. -/
theorem exists_hostTarget {o : Nat} (hlt : o < 0x40) (hal : o % 4 = 0) : ∃ r, hostTarget o 4 = some r := by
  obtain ⟨k, rfl⟩ := Nat.dvd_of_mod_eq_zero hal
  have hk : k < 16 := by omega
  interval_cases k <;> exact ⟨_, rfl⟩

theorem hostTarget_offsetOf (r : HostReg) : hostTarget (offsetOf r) 4 = some r := by
  rcases r with _ | _ | _ | _ | _ | _ | p
  case param => cases p <;> rfl
  all_goals rfl

/-- Only the reserved words share a register. -/
theorem offset_of_hostTarget {o : Nat} {r : HostReg} (h : hostTarget o 4 = some r) (hr : r ≠ .reserved) : o = offsetOf r := by
  unfold hostTarget at h
  split at h
  · next hal =>
    obtain ⟨k, rfl⟩ := Nat.dvd_of_mod_eq_zero hal.2
    rw [Nat.mul_div_cancel_left k (by decide)] at h
    unfold regAt at h
    split at h
    case h_6 | h_7 | h_8 | h_16 => exact absurd (Option.some.inj h).symm hr
    case h_17 => cases h
    all_goals exact Option.some.inj h ▸ rfl
  · cases h

/-- The register that an access reaches is named by its offset. -/
theorem hostTarget_eq_iff {o : Nat} {r : HostReg} (h : hostTarget o 4 = some r) (r' : HostReg) (hr' : r' ≠ .reserved) :
    r = r' ↔ o = offsetOf r' := by
  constructor
  · rintro rfl; exact offset_of_hostTarget h hr'
  · rintro rfl; exact Option.some.inj (h.symm.trans (hostTarget_offsetOf r'))

/-! ### Reads -/

/-- `STATUS`: bit 0 is `PREP`, bit 1 is `RUN`, the others read 0 (R22). -/
theorem statusWord_bits (s : State) :
    (statusWord s).getLsbD 0 = s.prep ∧ (statusWord s).getLsbD 1 = s.seq.run ∧ (statusWord s).extractLsb' 2 30 = 0#30 := by
  unfold statusWord
  cases s.prep <;> cases s.seq.run <;> decide

theorem readReg_agenda (s : State) (rest : List Event) (r : HostReg) : readReg { s with agenda := rest } r = readReg s r := by
  cases r <;> rfl

/-- A read notes the word of the register it reaches and changes nothing else (R65). -/
theorem step_read {s : State} {o : Nat} {rest : List Event} {r : HostReg} (ha : s.agenda = .read o 4 :: rest)
    (hr : hostTarget o 4 = some r) : step s = .next { s with agenda := rest, readLog := s.readLog ++ [readReg s r] } := by
  rw [step_event ha, runEvent_read, hostRead, hr]
  simp only [readReg_agenda]

/-- Settles O12: the word returned is `readReg` of the register at the offset. -/
theorem hostReadsFollowTheMap : Obligations.HostReadsFollowTheMap := by
  unfold Obligations.HostReadsFollowTheMap
  intro s o rest ha hlt hal
  obtain ⟨r, hr⟩ := exists_hostTarget hlt hal
  have reaches {o' : Nat} {r' : HostReg} (e : o = o') (h : hostTarget o' 4 = some r') : readReg s r = readReg s r' := by
    subst e; rw [Option.some.inj (hr.symm.trans h)]
  refine ⟨readReg s r, step_read ha hr, fun e => reaches e (r' := .cmd) rfl, fun e => ?_, fun e => reaches e (r' := .fsLo) rfl,
    fun e => reaches e (r' := .fsHi) rfl, fun e => reaches e (r' := .maxBlk) rfl, fun e => ?_,
    fun e => reaches e (r' := .param .mix) rfl, fun e => reaches e (r' := .param .decay) rfl,
    fun e => reaches e (r' := .param .tension) rfl, fun e => reaches e (r' := .param .predelay) rfl,
    fun e => reaches e (r' := .param .damping) rfl, fun e => reaches e (r' := .param .wobble) rfl,
    fun e => reaches e (r' := .param .drive) rfl⟩
  · rw [reaches e (r' := .status) rfl]; exact statusWord_bits s
  · obtain e | e | e | e := e <;> exact reaches e (r' := .reserved) rfl

/-! ### Writes -/

/-- A write of a register other than `CMD` writes that register at most (R65). -/
theorem step_write {s : State} {o : Nat} {w : Word} {rest : List Event} {r : HostReg} (ha : s.agenda = .write o 4 w :: rest)
    (hr : hostTarget o 4 = some r) (hcmd : r ≠ .cmd) :
    step s = .next { s with agenda := rest, host := (writeReg s r w).host } := by
  rw [step_event ha, runEvent_write, hostWrite, hr]
  cases r with
  | cmd => exact absurd rfl hcmd
  | _ => rfl

theorem writeReg_fsLo (s : State) (r : HostReg) (w : Word) :
    (writeReg s r w).host.fsLo = if r = .fsLo then w else s.host.fsLo := by
  cases r <;> simp [writeReg]

theorem writeReg_fsHi (s : State) (r : HostReg) (w : Word) :
    (writeReg s r w).host.fsHi = if r = .fsHi then w else s.host.fsHi := by
  cases r <;> simp [writeReg]

theorem writeReg_maxBlk (s : State) (r : HostReg) (w : Word) :
    (writeReg s r w).host.maxBlk = if r = .maxBlk then w else s.host.maxBlk := by
  cases r <;> simp [writeReg]

theorem writeReg_param (s : State) (r : HostReg) (w : Word) (p : Param) :
    (writeReg s r w).host.param p = if r = .param p then w else s.host.param p := by
  rcases r with _ | _ | _ | _ | _ | _ | q
  case param =>
    by_cases e : p = q
    · subst e; simp [writeReg]
    · rw [if_neg fun h => e (HostReg.param.inj h).symm]
      exact HostRegs.param_setParam_ne _ w e
  all_goals cases p <;> simp [writeReg, HostRegs.param]

/-- Settles O13: each register is written exactly when the offset is its own. -/
theorem hostWritesFollowTheMap : Obligations.HostWritesFollowTheMap := by
  unfold Obligations.HostWritesFollowTheMap
  intro s o w rest ha hlt hal h0
  obtain ⟨r, hr⟩ := exists_hostTarget hlt hal
  have hcmd : r ≠ .cmd := fun e => h0 ((hostTarget_eq_iff hr .cmd nofun).1 e)
  have param (p : Param) : (writeReg s r w).host.param p = if o = offsetOf (.param p) then w else s.host.param p := by
    rw [writeReg_param, if_congr (hostTarget_eq_iff hr (.param p) nofun) rfl rfl]
  refine ⟨_, step_write ha hr hcmd, ?_, ?_, ?_, param .mix, param .decay, param .tension, param .predelay, param .damping,
    param .wobble, param .drive⟩
  · rw [writeReg_fsLo]; exact if_congr (hostTarget_eq_iff hr .fsLo nofun) rfl rfl
  · rw [writeReg_fsHi]; exact if_congr (hostTarget_eq_iff hr .fsHi nofun) rfl rfl
  · rw [writeReg_maxBlk]; exact if_congr (hostTarget_eq_iff hr .maxBlk nofun) rfl rfl

end Sys2Proof.Machine
end

section
/-! Blocks, coefficients, stores and power-on: what a latch leaves of the coefficient ranges, the turn of a running block, `RB.PREP`,
and the state after power-on. -/

namespace Sys2Proof.Machine

open Fp

/-! ### The coefficients after the latch (R26) -/

theorem lit_zero : lit 0 1 = plusZero := by decide +kernel

/-- Settles O25: the constants are those of some sample rate in range, and the latch keeps the ranges for such constants. -/
theorem latchKeepsCoefficientRanges : Obligations.LatchKeepsCoefficientRanges := by
  unfold Obligations.LatchKeepsCoefficientRanges
  rintro s t ⟨s0, p, hp, hc⟩ ht
  rw [exec_prepare] at hp
  rw [← next_inj.1 (accept_eq_next.1 hp).2, prepareAll_consts] at hc
  rw [exec_blkLatch] at ht
  have hfs : between Config.fsMin s.consts.fs Config.fsMax = true := by rw [hc]; exact between_sampleRate s0.host
  have hconsts : s.consts = constantsFor Config.block s.consts.fs := by rw [hc]; rfl
  have hpd : s.consts.pdMax < 2 ^ 16 := by rw [hconsts]; exact (constsInRange_constantsFor hfs).pdMax
  obtain ⟨hap, hfb, -⟩ := latch_coeffsInRange hpd
  obtain ⟨hcut, hpos, hone⟩ := latch_dampingInRange hfs
  obtain ⟨hwob, hpdN⟩ := latch_delaysInRange hfs hconsts
  rw [← next_inj.1 ht, latch_consts]
  exact ⟨hap, hcut, ⟨hpos, hone⟩, fun x => lit_zero ▸ hfb x, hwob, hpdN⟩

/-! ### The turn of a running block (R204) -/

/-- One less than a count is zero only for the count 1. -/
theorem pred_bne_zero (n : BitVec 16) : (n - 1#16 != 0#16) = (n != 1#16) := by
  have h : n - 1#16 = 0#16 ↔ n = 1#16 := by constructor <;> intro h <;> bv_omega
  rw [Bool.eq_iff_iff, bne_iff_ne, bne_iff_ne, ne_eq, ne_eq, h]

/-- Settles O8: the turn is `FRAME`, which keeps the sequencer, and the count. -/
theorem runningBlockRunsFrame : Obligations.RunningBlockRunsFrame := by
  unfold Obligations.RunningBlockRunsFrame
  intro s f rest hrun hbypass hframes hin hagenda
  refine ⟨frameOp Config.block s, exec_frame s, ?_⟩
  have hturn : datapathTurn Config.block s = countFrame (frameOp Config.block s) := by
    simp [datapathTurn, hrun, hbypass, hframes, hin]
  rw [step_idle hagenda, hturn, countFrame, frameOp_seq, pred_bne_zero]

/-! ### `RB.PREP` (R101) -/

theorem headroom_eq (h : Headroom) : Config.headroom h = if h = .int then 2 else 3 := by cases h <;> rfl

/-- Settles O31: the store put in place is `storePrep`'s, whose capacity is the sum where it fits and one R29 admits where not. -/
theorem rbPrepSizesAndClears : Obligations.RbPrepSizesAndClears := by
  unfold Obligations.RbPrepSizesAndClears
  intro s id m h
  refine ⟨_, exec_rbPrep id m h s, ?_⟩
  rw [State.store_setStore_self, ← headroom_eq, storePrep_cap]
  exact ⟨fitCapacity_of_lt, fitCapacity_lt _, fun hm => fitCapacity_ge (by have := headroom_ge h; omega), rfl, Memory.read_nil,
    sameButStore_setStore s id _⟩

/-! ### Power-on (R21, R32; log entry 7) -/

/-- Settles O59: each invariant is evaluated on the one state. -/
theorem invariantsHoldAtReset : Obligations.InvariantsHoldAtReset := by
  unfold Obligations.InvariantsHoldAtReset
  exact ⟨by decide +kernel, by decide +kernel, rfl, by decide +kernel⟩

/-- Settles O60: `State.reset` is written with the reset values of the map. -/
theorem powerOnRegisters : Obligations.PowerOnRegisters := ⟨rfl, rfl, rfl⟩

end Sys2Proof.Machine
end

section
/-! The host interface: the step that runs a command word, accesses outside the map, and the `IN` stream, whose frames see no host
register (R60, R62, R65, R67, R262, R263). -/

namespace Sys2Proof.Machine

/-! ### Accesses (R62, R65) -/

/-- Settles O6: the event at the head of the agenda is a write of the whole word `CMD`, and such an event is `exec`. -/
theorem stepRunsTheCommandWord : Obligations.StepRunsTheCommandWord := by
  unfold Obligations.StepRunsTheCommandWord
  intro s w rest ha
  rw [step_event ha, runEvent_command]

theorem regAt_eq_none {n : Nat} (h : 16 ≤ n) : regAt n = none := by
  unfold regAt
  split
  case h_17 => rfl
  all_goals omega

/-- An access that is not of an aligned whole word below 0x40 reaches no register (R62). -/
theorem hostTarget_eq_none {o size : Nat} (h : size ≠ 4 ∨ o % 4 ≠ 0 ∨ 0x40 ≤ o) : hostTarget o size = none := by
  unfold hostTarget
  split
  · exact regAt_eq_none (by omega)
  · rfl

/-- Settles O14: the access reaches no register, and the host port refuses such a read and such a write alike. -/
theorem accessOutsideTheMapRefused : Obligations.AccessOutsideTheMapRefused := by
  unfold Obligations.AccessOutsideTheMapRefused
  intro s o size w rest h
  have hnone := hostTarget_eq_none h
  constructor <;> intro ha
  · rw [step_event ha, runEvent_read, hostRead, hnone]
  · rw [step_event ha, runEvent_write, hostWrite, hnone]

/-! ### Turns without effect (R204, R263) -/

theorem datapathTurn_idle {s : State} (h : s.seq.run = false) : datapathTurn Config.block s = s := by
  simp [datapathTurn, h]

/-- A block with frames left and none of them at `IN` waits. -/
theorem datapathTurn_waits {s : State} (hrun : s.seq.run = true) (hframes : s.seq.frames ≠ 0#16) (hin : s.inQ = []) :
    datapathTurn Config.block s = s := by
  simp [datapathTurn, hrun, hframes, hin]

/-- Settles O27: each event is one equation, and a turn does not see the agenda. -/
theorem frameWaitsForInput : Obligations.FrameWaitsForInput := by
  unfold Obligations.FrameWaitsForInput
  intro s
  refine ⟨fun f rest ha => ?supply, fun hin => ⟨?frame, fun ha hrun hframes => ?short⟩, fun ha hrun => ?idle,
    fun rest ha => ?turn, fun p w rest ha => ?note⟩
  case supply => rw [step_event ha, runEvent_supply]
  case frame => rw [exec_frame, frameOp_nil hin]
  case short => rw [step_idle ha, datapathTurn_waits hrun hframes hin]
  case idle => rw [step_idle ha, datapathTurn_idle hrun]
  case turn =>
    refine ⟨{ datapathTurn Config.block s with agenda := [] }, ?_, rfl, ?_⟩
    · rw [step_idle rfl, datapathTurn_agenda]
    · rw [step_event ha, runEvent_turn, datapathTurn_agenda]
  case note => rw [step_event ha, runEvent_duringLatch]

/-! ### Frames and the host registers (R67, R261) -/

theorem frameOp_host (s : State) : (frameOp Config.block s).host = s.host := by
  cases hq : s.inQ with
  | nil => rw [frameOp_nil hq]
  | cons f rest => rw [frameOp_eq hq]

/-- A frame does not read the host registers: replacing them before it or after it is the same. -/
theorem frameOp_setHost (s : State) (h : HostRegs) :
    frameOp Config.block { s with host := h } = { frameOp Config.block s with host := h } := by
  by_cases hq : s.inQ = []
  · rw [frameOp_nil hq, frameOp_nil (σ := { s with host := h }) hq]
  · obtain ⟨f, rest, hq⟩ := List.exists_cons_of_ne_nil hq
    rw [frameOp_eq hq, frameOp_eq (σ := { s with host := h }) hq]

/-- Settles O29: `FRAME` is `frameOp`, which neither writes nor reads the host registers. -/
theorem frameIgnoresHostRegisters : Obligations.FrameIgnoresHostRegisters := by
  unfold Obligations.FrameIgnoresHostRegisters
  intro s t h ht
  rw [exec_frame] at ht
  obtain rfl := next_inj.1 ht
  exact ⟨frameOp_host s, by rw [exec_frame, frameOp_setHost]⟩

end Sys2Proof.Machine
end

section
/-! Independence and bounds of the memories (R64, R67, R69, R108): the snapshots a latch takes of the parameter registers, the indices
that reads and writes of a delay store form, and the lanes of the two strings. -/

namespace Sys2Proof.Machine

open Fp

/-! ### Parameter writes that land during a latch (R67) -/

theorem landRacing_host (σ : State) :
    (landRacing σ).host = σ.racing.foldl (fun h e => h.setParam e.1 e.2) σ.host := rfl

/-- After any parameter writes a register holds the last of its own first value and the words written to it. -/
theorem getLast?_writes_param (es : List (Param × Word)) (h : HostRegs) (p : Param) :
    (h.param p :: (es.filter (fun e => e.1 == p)).map Prod.snd).getLast? =
      some ((es.foldl (fun h e => h.setParam e.1 e.2) h).param p) := by
  induction es generalizing h with
  | nil => rfl
  | cons e es ih =>
    obtain ⟨q, w⟩ := e
    have ih := ih (h.setParam q w)
    by_cases hq : q = p
    · subst hq
      rw [HostRegs.param_setParam_self] at ih
      simpa [List.getLast?_cons_cons] using ih
    · rw [HostRegs.param_setParam_ne h w (Ne.symm hq)] at ih
      simpa [hq] using ih

/-- What no parameter write changes, none of a list of them changes. -/
theorem foldl_setParam_of_invariant {α : Type} {f : HostRegs → α} (hf : ∀ h p w, f (h.setParam p w) = f h)
    (es : List (Param × Word)) (h : HostRegs) : f (es.foldl (fun h e => h.setParam e.1 e.2) h) = f h := by
  induction es generalizing h with
  | nil => rfl
  | cons e es ih => exact (ih _).trans (hf h e.1 e.2)

/-- The coefficients and smoothers a latch leaves are a function of the snapshots and of what it finds in the constants and
smoothers. -/
theorem latch_congr {σ τ : State} (hw : ∀ p, snapshot σ p = snapshot τ p) (hc : σ.consts = τ.consts) (hm : σ.smMix = τ.smMix)
    (hd : σ.smDrive = τ.smDrive) :
    (latch Config.block σ).coeffs = (latch Config.block τ).coeffs ∧
      (latch Config.block σ).smMix = (latch Config.block τ).smMix ∧
      (latch Config.block σ).smDrive = (latch Config.block τ).smDrive := by
  simp only [latch_eq, hw, hc, hm, hd, and_self]

/-- The registers with every parameter at a given word. -/
def HostRegs.withParams (h : HostRegs) (w : Param → Word) : HostRegs :=
  { h with
    pMix := w .mix
    pDecay := w .decay
    pTension := w .tension
    pPredelay := w .predelay
    pDamping := w .damping
    pWobble := w .wobble
    pDrive := w .drive }

theorem HostRegs.param_withParams (h : HostRegs) (w : Param → Word) (p : Param) : (h.withParams w).param p = w p := by
  cases p <;> rfl

/-- Settles O24: the words are the model's own snapshots, which the registers held, and a quiet latch snapshots its registers. -/
theorem latchSnapshotsHeldValues : Obligations.LatchSnapshotsHeldValues := by
  unfold Obligations.LatchSnapshotsHeldValues
  intro s
  have hquiet (p : Param) :
      snapshot s p = snapshot { s with host := s.host.withParams (snapshot s), racing := [] } p :=
    ((snapshot_of_nil rfl p).trans (HostRegs.param_withParams _ _ p)).symm
  obtain ⟨hcoeffs, hmix, hdrive⟩ := latch_congr hquiet rfl rfl rfl
  refine ⟨snapshot s, snapshot_mem s, _, _, exec_blkLatch s, exec_blkLatch _, ?_⟩
  have hhost : (latch Config.block s).host = (landRacing s).host := by rw [latch_eq]
  refine ⟨hcoeffs, hmix, hdrive, ?_, fun p => ?_, ?_, ?_, ?_⟩
  · rw [latch_eq]; rfl
  · rw [hhost, landRacing_host]; exact getLast?_writes_param s.racing s.host p
  · rw [hhost, landRacing_host]; exact foldl_setParam_of_invariant HostRegs.setParam_fsLo _ _
  · rw [hhost, landRacing_host]; exact foldl_setParam_of_invariant HostRegs.setParam_fsHi _ _
  · rw [hhost, landRacing_host]; exact foldl_setParam_of_invariant HostRegs.setParam_maxBlk _ _

/-! ### Taps (R105 to R108) -/

theorem orderShift_range (ord : Order) : 0 ≤ orderShift ord ∧ orderShift ord ≤ 1 := by cases ord <;> decide

/-- A lag of at least 1 is a tap, and one that lies no deeper than the lag. -/
theorem exists_tap_of_lag (st : Store) {lag hi : Nat} (h1 : 1 ≤ lag) (h : lag ≤ hi) (ord : Order) :
    ∃ k : Nat, k ≤ hi ∧ tap st ((lag : Int) - orderShift ord) = tap st k := by
  obtain ⟨hshift, hshift'⟩ := orderShift_range ord
  refine ⟨((lag : Int) - orderShift ord).toNat, by omega, ?_⟩
  rw [Int.toNat_of_nonneg (by omega)]

/-- `RB.RDI` uses a tap between 0 and `C-2`, whatever the delay. -/
theorem storeReadInt_tap {st : Store} (h : 3 ≤ st.cap) (d : Int) (ord : Order) :
    ∃ k : Nat, k ≤ st.cap - 2 ∧ storeReadInt st d ord = tap st k := by
  obtain ⟨lag, hlag⟩ := Int.eq_ofNat_of_zero_le (a := max 1 (min d ((st.cap : Int) - 2))) (by omega)
  rw [storeReadInt_eq h, hlag]
  exact exists_tap_of_lag st (by omega) (by omega) ord

/-- The whole part of a delay clamped as `RB.RDF` clamps it. -/
theorem floorI_clamp_range {cap : Nat} (h : 4 ≤ cap) (h' : cap < 2 ^ 16) (d : F32) :
    1 ≤ floorI (clamp d (itof 1) (itof (cap - 3))) ∧ floorI (clamp d (itof 1) (itof (cap - 3))) ≤ cap - 3 := by
  obtain ⟨hlo, hhi⟩ := clamp_between (x := d) (fle_itof (show 1 ≤ cap - 3 by omega) (by omega))
  exact floorI_between (by omega) hlo hhi (by omega)

/-- `RB.RDF` interpolates between two taps between 0 and `C-2`, whatever the delay. -/
theorem storeReadFrac_tap {st : Store} (h : 4 ≤ st.cap) (h' : st.cap < 2 ^ 16) (d : F32) (ord : Order) :
    ∃ (k k' : Nat) (f : F32), k ≤ st.cap - 2 ∧ k' ≤ st.cap - 2 ∧
      storeReadFrac Config.block st d ord = fadd (tap st k) (fmul f (fsub (tap st k') (tap st k))) := by
  have hi := floorI_clamp_range h h' d
  rw [storeReadFrac_block, if_neg (by omega)]
  generalize clamp d (itof 1) (itof (st.cap - 3)) = dc at hi ⊢
  obtain ⟨k, hk, ek⟩ := exists_tap_of_lag st (hi := st.cap - 2) hi.1 (by omega) ord
  obtain ⟨k', hk', ek'⟩ := exists_tap_of_lag st (lag := floorI dc + 1) (hi := st.cap - 2) (by omega) (by omega) ord
  refine ⟨k, k', fsub dc (itof (floorI dc)), hk, hk', ?_⟩
  rw [← ek, ← ek']
  rfl

/-- Settles O36: the cursor and every tap index are residues modulo the capacity, and the clamps of both reads bound their taps. -/
theorem ringIndicesStayInBounds : Obligations.RingIndicesStayInBounds := by
  unfold Obligations.RingIndicesStayInBounds
  intro st h
  obtain ⟨hcap, hwr, -, -⟩ := storeOk_iff.1 h
  exact ⟨tapIndex_lt (by omega), hwr, fun v => (storeOk_iff.1 (storeWrite_spec h v).1).2.1, storeReadInt_tap hcap,
    fun d ord h4 h16 => storeReadFrac_tap h4 h16 d ord⟩

/-! ### Lanes (R69) -/

/-- What one sample of a string makes of its lane, as `laneStep` computes it from the machine. -/
def laneOf (x : Str) (xin gain : F32) (s : State) : Store × StringState × F32 :=
  laneStep x xin gain s.coeffs s.consts (s.pd.get x) (s.str.get x)

/-- The machine with one string's lane replaced, and its wet value returned. -/
def State.putLane (s : State) (x : Str) (lane : Store × StringState × F32) : State :=
  { s with pd := s.pd.set x lane.1, str := s.str.set x lane.2.1, result := [lane.2.2] }

@[simp] theorem State.putLane_pd (s : State) (x : Str) (lane : Store × StringState × F32) :
    (s.putLane x lane).pd = s.pd.set x lane.1 := rfl
@[simp] theorem State.putLane_str (s : State) (x : Str) (lane : Store × StringState × F32) :
    (s.putLane x lane).str = s.str.set x lane.2.1 := rfl
@[simp] theorem State.putLane_coeffs (s : State) (x : Str) (lane : Store × StringState × F32) :
    (s.putLane x lane).coeffs = s.coeffs := rfl
@[simp] theorem State.putLane_consts (s : State) (x : Str) (lane : Store × StringState × F32) :
    (s.putLane x lane).consts = s.consts := rfl
@[simp] theorem State.putLane_result (s : State) (x : Str) (lane : Store × StringState × F32) :
    (s.putLane x lane).result = [lane.2.2] := rfl

/-- Replacing the two lanes in either order gives the same machine but for the value returned last. -/
theorem State.putLane_comm (s : State) (a b : Store × StringState × F32) :
    (s.putLane .L a).putLane .R b = ((s.putLane .R b).putLane .L a).withResult [b.2.2] := rfl

/-- A lane does not see the other string's. -/
theorem laneOf_putLane_ne (s : State) {x y : Str} (h : x ≠ y) (xin gain : F32) (lane : Store × StringState × F32) :
    laneOf x xin gain (s.putLane y lane) = laneOf x xin gain s := by
  simp only [laneOf, State.putLane, Pair.get_set_ne _ _ h]

/-- `STR.STEP` replaces the lane of its string. -/
theorem exec_strStep_lane (x : Str) (xin gain : F32) (s : State) :
    exec (.strStep x xin gain) s = .next (s.putLane x (laneOf x xin gain s)) := by
  rw [exec_strStep, strStep_lane]; rfl

/-- The step of a string after one of the other replaces the lane that it replaces alone. -/
theorem exec_strStep_putLane_ne (s : State) {x y : Str} (h : x ≠ y) (xin gain : F32) (lane : Store × StringState × F32) :
    exec (.strStep x xin gain) (s.putLane y lane) = .next ((s.putLane y lane).putLane x (laneOf x xin gain s)) := by
  rw [exec_strStep_lane, laneOf_putLane_ne s h]

/-- Settles O45: each step reads and replaces the lane of its own string alone. -/
theorem stringsAreIndependent : Obligations.StringsAreIndependent := by
  unfold Obligations.StringsAreIndependent
  intro s t u xl xr gain ht hu
  rw [exec_strStep_lane] at ht
  obtain rfl := next_inj.1 ht
  rw [exec_strStep_putLane_ne s (by decide)] at hu
  obtain rfl := next_inj.1 hu
  refine ⟨by simp, by simp, by simp, by simp, by simp, by simp, _, _, exec_strStep_lane .R xr gain s,
    exec_strStep_putLane_ne s (by decide) xl gain _, by simp, by simp, ?_⟩
  rw [State.putLane_result]
  exact State.putLane_comm s _ _

end Sys2Proof.Machine
end

section
/-! Encodings (R81 to R85, R91; log entry 11): the fields of a command word, what each selector of a datapath record reads, and the
records that decode. -/

namespace Sys2Proof.Machine

open Fp

/-! ### Command words (R81 to R84) -/

/-- Bits 31:28 of a word under the mask of R83 are those of the match. -/
theorem op_of_mask {w m : Word} (h : w &&& 0xF0000000#32 = m) : w.extractLsb' 28 4 = m.extractLsb' 28 4 := by
  rw [← h, BitVec.extractLsb'_and]
  exact (BitVec.and_allOnes (x := w.extractLsb' 28 4)).symm

/-- `OP` is the word's upper four bits as a number. -/
theorem op_toNat (w : Word) : (w.extractLsb' 28 4).toNat = (w >>> 28).toNat := by
  have := w.isLt
  simp only [BitVec.extractLsb'_toNat, BitVec.toNat_ushiftRight, Nat.shiftRight_eq_div_pow]
  omega

/-- Settles O2: the mask keeps `OP`, and the decoder selects by `OP` alone. -/
theorem commandWordSelectsItsRow : Obligations.CommandWordSelectsItsRow := by
  unfold Obligations.CommandWordSelectsItsRow
  intro w
  refine ⟨fun h => ?_, fun h => ?_, fun h => ?_, fun h => ?_⟩ <;> rw [decodeCommand, op_of_mask h] <;> rfl

/-- `OP` 0 and every reserved `OP` read as `NOP` (R84). -/
theorem decodeCommand_eq_nop {w : Word} (h : (w >>> 28).toNat = 0 ∨ 3 < (w >>> 28).toNat) : decodeCommand w = .nop := by
  rw [← op_toNat] at h
  unfold decodeCommand
  split
  case h_1 | h_5 => rfl
  all_goals omega

/-- Settles O3: each of these words is `NOP`, which an idle machine accepts. -/
theorem nopAndReservedChangeNothing : Obligations.NopAndReservedChangeNothing := by
  unfold Obligations.NopAndReservedChangeNothing
  intro s w hidle
  have hnop : exec .nop s = .next s := by rw [exec_nop, accept_idle _ hidle]
  exact ⟨hnop, fun h => by rw [decodeCommand_eq_nop (.inr h), hnop], fun h => by rw [decodeCommand_eq_nop (.inl h), hnop]⟩

/-- The encoding of `PROCESS` is the word its statement writes. -/
theorem encode_process (stereo : Bool) (n : BitVec 16) : encode (.process stereo n) = [processWord stereo n] := by
  have hn := n.isLt
  rw [encode, List.cons.injEq]
  refine ⟨BitVec.eq_of_toNat_eq ?_, rfl⟩
  rw [BitVec.toNat_append, ← Nat.shiftLeft_add_eq_or_of_lt hn]
  cases stereo <;> simp [processWord, BitVec.toNat_add] <;> omega

/-! ### Selectors (log entry 11) -/

@[simp] theorem strBit_decodeStr (h : Word) : strBit (decodeStr h) = h &&& 0x0100#32 := by
  rw [show h &&& 0x0100#32 = _ from BitVec.and_twoPow h 8, decodeStr]
  split <;> rfl

@[simp] theorem chanBit_decodeChan (h : Word) : chanBit (decodeChan h) = h &&& 0x0100#32 := by
  rw [show h &&& 0x0100#32 = _ from BitVec.and_twoPow h 8, decodeChan]
  split <;> rfl

@[simp] theorem orderBit_decodeOrder (h : Word) : orderBit (decodeOrder h) = h &&& 0x1000#32 := by
  rw [show h &&& 0x1000#32 = _ from BitVec.and_twoPow h 12, decodeOrder]
  split <;> rfl

@[simp] theorem smootherBit_decodeSmoother (h : Word) : smootherBit (decodeSmoother h) = h &&& 0x2000#32 := by
  rw [show h &&& 0x2000#32 = _ from BitVec.and_twoPow h 13, decodeSmoother]
  split <;> rfl

@[simp] theorem headroomBit_decodeHeadroom (h : Word) : headroomBit (decodeHeadroom h) = h &&& 0x4000#32 := by
  rw [show h &&& 0x4000#32 = _ from BitVec.and_twoPow h 14, decodeHeadroom]
  split <;> rfl

/-- The two stage bits in place. -/
theorem and_stageMask (h : Word) : h &&& 0x0600#32 = (h.extractLsb' 9 2).zeroExtend 32 <<< 9 := by
  ext i hi
  interval_cases i <;> simp

theorem stageBits_of_decodeStage {h : Word} {k : Stage} (hk : decodeStage h = some k) : stageBits k = h &&& 0x0600#32 := by
  rw [and_stageMask]
  unfold decodeStage at hk
  generalize h.extractLsb' 9 2 = x at hk ⊢
  cases k <;> revert x <;> decide

theorem storeBits_of_decodeStore {h : Word} {st : StoreId} (hst : decodeStore h = some st) : storeBits st = h &&& 0x0F00#32 := by
  have hkind : h &&& 0x0800#32 = if h.getLsbD 11 then 0x0800#32 else 0#32 := BitVec.and_twoPow h 11
  have hmask : h &&& 0x0F00#32 = (h &&& 0x0800#32) ||| (h &&& 0x0100#32) ||| (h &&& 0x0600#32) := by
    simp only [← BitVec.and_or_distrib_left, BitVec.reduceOr]
  rw [hmask, hkind]
  unfold decodeStore at hst
  split at hst
  · next hap =>
    obtain ⟨k, hk, rfl⟩ := Option.map_eq_some_iff.1 hst
    rw [if_pos hap, storeBits, strBit_decodeStr, stageBits_of_decodeStage hk]
  · next hpd =>
    split at hst
    · next hstage =>
      obtain rfl := Option.some.inj hst
      rw [if_neg hpd, storeBits, chanBit_decodeChan, and_stageMask, hstage]
      simp
    · cases hst

/-! ### Records -/

/-- The label is the low byte of the header. -/
theorem ofNat_label (h : Word) : BitVec.ofNat 32 (h.extractLsb' 0 8).toNat = h &&& 0xFF#32 := by
  apply BitVec.eq_of_toNat_eq
  rw [BitVec.toNat_ofNat, BitVec.extractLsb'_toNat, Nat.shiftRight_zero, BitVec.toNat_and,
    show (0xFF#32).toNat = 2 ^ 8 - 1 from rfl, Nat.and_two_pow_sub_one_eq_mod]
  omega

/-- A header with no bit beyond its label and its selectors is made of the two. -/
theorem header_eq {h sel : Word} {label : Nat} (hsel : h &&& ~~~(sel ||| 0xFF#32) = 0#32)
    (hlabel : (h.extractLsb' 0 8).toNat = label) : BitVec.ofNat 32 label ||| (h &&& sel) = h := by
  rw [← hlabel, ofNat_label]
  calc (h &&& 0xFF#32) ||| (h &&& sel)
    _ = (h &&& (sel ||| 0xFF#32)) ||| (h &&& ~~~(sel ||| 0xFF#32)) := by
      rw [hsel, BitVec.or_zero, BitVec.and_or_distrib_left, BitVec.or_comm]
    _ = h := by rw [← BitVec.and_or_distrib_left, BitVec.or_not_self, BitVec.and_allOnes]

/-- What a record that decodes is made of: a label with a row, selectors and operands of that row, then zeros. -/
theorem decodeRecord_eq_ok {ws : List Word} {i : Instr} (hi : decodeRecord ws = .ok i) :
    ∃ (h a b c d e f g sel : Word) (n : Nat), labelRow (h.extractLsb' 0 8).toNat = some (sel, n) ∧
      h &&& ~~~(sel ||| 0xFF#32) = 0#32 ∧ decodeFields h a b c d e f g = .ok i ∧
      ws = h :: ([a, b, c, d, e, f, g].take n ++ List.replicate (7 - n) 0#32) := by
  unfold decodeRecord at hi
  split at hi
  · next h a b c d e f g =>
    split at hi
    · cases hi
    · next sel n hrow =>
      split at hi
      · next hunused =>
        obtain ⟨hsel, hops⟩ := hunused
        have hzeros : [a, b, c, d, e, f, g].drop n = List.replicate (7 - n) 0#32 :=
          List.eq_replicate_iff.2 ⟨List.length_drop, fun x hx => eq_of_beq (List.all_eq_true.1 hops x hx)⟩
        exact ⟨h, a, b, c, d, e, f, g, sel, n, hrow, hsel, hi, by rw [← hzeros, List.take_append_drop]⟩
      · cases hi
  · cases hi

theorem withStore_eq_ok {h : Word} {k : StoreId → Instr} {i : Instr} (hi : withStore h k = .ok i) :
    ∃ st, storeBits st = h &&& 0x0F00#32 ∧ k st = i := by
  unfold withStore at hi
  split at hi
  · next st hst => exact ⟨st, storeBits_of_decodeStore hst, Except.ok.inj hi⟩
  · cases hi

theorem withStage_eq_ok {h : Word} {k : Stage → Instr} {i : Instr} (hi : withStage h k = .ok i) :
    ∃ st, stageBits st = h &&& 0x0600#32 ∧ k st = i := by
  unfold withStage at hi
  split at hi
  · next st hst => exact ⟨st, stageBits_of_decodeStage hst, Except.ok.inj hi⟩
  · cases hi

/-- The encoding of what a label's row reads from its header and operands is that header, those operands and zeros. -/
theorem encode_of_decodeFields {h a b c d e f g sel : Word} {n : Nat} {i : Instr}
    (hrow : labelRow (h.extractLsb' 0 8).toNat = some (sel, n)) (hsel : h &&& ~~~(sel ||| 0xFF#32) = 0#32)
    (hi : decodeFields h a b c d e f g = .ok i) :
    encode i = h :: ([a, b, c, d, e, f, g].take n ++ List.replicate (7 - n) 0#32) := by
  unfold decodeFields at hi
  split at hi
  case h_31 => cases hi
  all_goals
    rename_i hlabel
    have hheader := header_eq hsel hlabel
    rw [hlabel] at hrow
    obtain ⟨rfl, rfl⟩ := Prod.mk.inj (Option.some.inj hrow)
  case h_1 | h_2 | h_3 | h_4 | h_5 =>
    obtain ⟨st, hst, rfl⟩ := withStore_eq_ok hi
    simpa [encode, hst, BitVec.or_assoc, ← BitVec.and_or_distrib_left] using hheader
  case h_6 | h_7 =>
    obtain ⟨k, hk, rfl⟩ := withStage_eq_ok hi
    simpa [encode, hk, BitVec.or_assoc, ← BitVec.and_or_distrib_left] using hheader
  all_goals
    obtain rfl := Except.ok.inj hi
    simpa [encode] using hheader

/-- Settles O5: the encoding is the header and the operands of the record, the rest of which is zero. -/
theorem encodeInvertsDecodeOfRecords : Obligations.EncodeInvertsDecodeOfRecords := by
  unfold Obligations.EncodeInvertsDecodeOfRecords
  intro ws i hi
  obtain ⟨h, a, b, c, d, e, f, g, sel, n, hrow, hsel, hfields, rfl⟩ := decodeRecord_eq_ok hi
  have henc := encode_of_decodeFields hrow hsel hfields
  have hlen : (encode i).length ≠ 1 := by
    simp [henc]
    omega
  exact ⟨henc, wellFormed_of_decodeRecord hi, if_neg hlen⟩

/-- The operand word of `RB.PREP` gives its delay back. -/
theorem toNat_delayWord {m : Nat} (h : fitsDelay m = true) : (BitVec.ofNat 32 (m - 1)).toNat + 1 = m := by
  obtain ⟨h1, h2⟩ := fitsDelay_iff.1 h
  rw [BitVec.toNat_ofNat]
  omega

/-- The operand word of an integer delay gives it back. -/
theorem toInt_delayWord {d : Int} (h : fitsSigned32 d = true) : (BitVec.ofInt 32 d).toInt = d := by
  simp only [fitsSigned32, Bool.and_eq_true, decide_eq_true_eq] at h
  exact BitVec.toInt_ofInt_eq_self (by decide) h.1 h.2

/-- A header is one of finitely many words, one for each value of the selectors, and on each the decoder computes. -/
theorem decodeRecord_encode {i : Instr} (hwf : wellFormed i = true) (hfmt : formatOf i = .uop) : decodeRecord (encode i) = .ok i := by
  cases i with
  | nop | prepare | reset | process _ _ => cases hfmt
  | rbPrep st m hd =>
    have hread : decodeRecord (encode (.rbPrep st m hd)) = .ok (.rbPrep st ((BitVec.ofNat 32 (m - 1)).toNat + 1) hd) := by
      cases hd <;> cases st using forall_storeId <;> rfl
    rw [hread, toNat_delayWord hwf]
  | rbRdi st d o =>
    have hread : decodeRecord (encode (.rbRdi st d o)) = .ok (.rbRdi st (BitVec.ofInt 32 d).toInt o) := by
      cases o <;> cases st using forall_storeId <;> rfl
    rw [hread, toInt_delayWord hwf]
  | apProc s k x n g =>
    have hread : decodeRecord (encode (.apProc s k x n g)) = .ok (.apProc s k x (BitVec.ofInt 32 n).toInt g) := by
      cases s <;> cases k <;> rfl
    rw [hread, toInt_delayWord hwf]
  | pdRead c n =>
    have hread : decodeRecord (encode (.pdRead c n)) = .ok (.pdRead c (BitVec.ofInt 32 n).toInt) := by cases c <;> rfl
    rw [hread, toInt_delayWord hwf]
  | rbReset st | rbWrite st _ => cases st using forall_storeId <;> rfl
  | rbRdf st _ o => cases o <;> cases st using forall_storeId <;> rfl
  | apProcm s k _ _ _ => cases s <;> cases k <;> rfl
  | pdWrite c _ => cases c <;> rfl
  | lfoMod s | lfoAdv s | lpProc s _ | fbSum s _ | fbUpd s _ | strStep s _ _ | mapFb s _ => cases s <;> rfl
  | smSeed p _ | smSet p _ | smNext p => cases p <;> rfl
  | drvGain _ | drvShape _ _ | mapClamp _ _ _ _ _ _ _ | mapAp _ | mapLp _ | mapWob _ | mapPd _ | blkLatch | inSan _
  | mixBlend _ _ _ | frame => rfl

/-- Settles O4: a command is its one word, a datapath operation its record. -/
theorem decodeInvertsEncode : Obligations.DecodeInvertsEncode := by
  unfold Obligations.DecodeInvertsEncode
  intro i hwf
  cases i with
  | nop | prepare | reset => rfl
  | process stereo n =>
    rw [formatOf, encode_process]
    exact congrArg Except.ok (decode_processWord stereo n)
  | _ => exact decodeRecord_encode hwf rfl

/-! ### The worked encodings (R90, R91) -/

theorem bits32_two : bits32 false 2 1 = 0x40000000#32 := by decide +kernel
theorem bits64_44100 : bits64 false 44100 1 = 0x40E5888000000000#64 := by decide +kernel
theorem bits64_48000 : bits64 false 48000 1 = 0x40E7700000000000#64 := by decide +kernel

/-- Settles O1: words and statements are evaluated. -/
theorem workedEncodings : Obligations.WorkedEncodings := by
  unfold Obligations.WorkedEncodings
  refine ⟨rfl, by decide, rfl, by decide, by decide, by decide, ?_, ?_, ?_⟩
  · rw [stmtEvents, bits32_two]; rfl
  · rw [stmtEvents, bits64_44100]; rfl
  · rw [stmtEvents, bits64_48000]; rfl

/-! ### Steps that run what they decode (R83, R85, R262) -/

/-- A step whose next event is put on top of the agenda does that event. -/
theorem step_cons_agenda (e : Event) (s : State) : step { s with agenda := e :: s.agenda } = runEvent e s := step_event rfl

theorem decodeTableWord_eq_some {nbits w : Nat} {i : Instr} (h : decodeTableWord nbits w = some i) :
    (nbits = 32 ∧ decodeCommand (BitVec.ofNat 32 w) = i) ∨ (nbits = 8 ∧ decode .uop (wordsOf 8 w) = .ok i) := by
  unfold decodeTableWord at h
  split at h
  · next h32 => exact .inl ⟨h32, Option.some.inj h⟩
  · split at h
    · next h8 =>
      refine .inr ⟨h8, ?_⟩
      cases hd : decode .uop (wordsOf 8 w) with
      | ok j => rw [hd] at h; exact congrArg Except.ok (Option.some.inj h)
      | error e => rw [hd] at h; cases h
    · cases h

/-- Settles O7: the event at the head of the agenda presents the record, or writes the command word. -/
theorem stepRunsTheDecodedInstruction : Obligations.StepRunsTheDecodedInstruction := by
  unfold Obligations.StepRunsTheDecodedInstruction
  refine ⟨fun s ws i rest ha hd => by rw [step_event ha, runEvent_datapath hd], fun s nbits w i h => ?_⟩
  obtain ⟨rfl, rfl⟩ | ⟨rfl, hd⟩ := decodeTableWord_eq_some h
  · rw [State.withFetchWord, if_pos rfl, step_cons_agenda, runEvent_command]
  · rw [State.withFetchWord, if_neg (by decide), if_pos rfl, step_cons_agenda, runEvent_datapath hd]

end Sys2Proof.Machine
end

section
/-! Schedules (R88): the composite operations of R150, R202, R203, R205 and R210 are their operations run as instructions. -/

namespace Sys2Proof.Machine

open Fp

/-! ### What an operation returned before (log entry 12) -/

/-- The operations that return values. -/
def returnsValues : Instr → Bool
  | .rbRdi _ _ _ | .rbRdf _ _ _ | .apProc _ _ _ _ _ | .apProcm _ _ _ _ _ | .pdRead _ _ | .lfoMod _ | .lpProc _ _ | .fbSum _ _
  | .strStep _ _ _ | .drvGain _ | .drvShape _ _ | .mapClamp _ _ _ _ _ _ _ | .smNext _ | .inSan _ | .mixBlend _ _ _ => true
  | _ => false

/-- An operation that returns values does not see what the one before returned. -/
theorem exec_withResult {i : Instr} (hi : returnsValues i = true) (s : State) (vs : List F32) : exec i (s.withResult vs) = exec i s := by
  cases i with
  | strStep x xin gain => rw [exec_strStep_lane, exec_strStep_lane]; rfl
  | smNext p => cases p <;> rfl
  | rbRdi | rbRdf | apProc | apProcm | pdRead | lfoMod | lpProc | fbSum | drvGain | drvShape | mapClamp | inSan | mixBlend => rfl
  | _ => cases hi

/-- The meanings of `LP.PROC` and `SM.NEXT` by the functions that `strStep` and `frameSignal` call. -/
theorem exec_lpProc_fn (x : Str) (v : F32) (s : State) :
    exec (.lpProc x v) s = .next ((lpProc Config.block x v s).1.withResult [(lpProc Config.block x v s).2]) := rfl
theorem exec_smNext_fn (p : SmootherId) (s : State) :
    exec (.smNext p) s = .next ((smNext Config.block p s).1.withResult [(smNext Config.block p s).2]) := rfl

/-! ### One sample of a string (R150) -/

theorem chanOf_eq (x : Str) : chanOf x = if x = .L then .c0 else .c1 := by cases x <;> rfl

/-- Settles O44: the operations, each computed from what the one before returned, are those of `strStep`, and no operation sees the
value that the one before left. -/
theorem stringStepRunsItsSchedule : Obligations.StringStepRunsItsSchedule := by
  unfold Obligations.StringStepRunsItsSchedule
  intro s x xin gain
  rw [← chanOf_eq]
  obtain ⟨σ1, h1⟩ : ∃ σ, pdWrite (chanOf x) xin s = σ := ⟨_, rfl⟩
  obtain ⟨hcoeffs, hconsts⟩ : σ1.coeffs = s.coeffs ∧ σ1.consts = s.consts := h1 ▸ ⟨rfl, rfl⟩
  obtain ⟨xd, hxd⟩ : ∃ v, pdRead (chanOf x) s.coeffs.pdN σ1 = v := ⟨_, rfl⟩
  obtain ⟨xs, hxs⟩ : ∃ v, drvShape Config.block xd gain = v := ⟨_, rfl⟩
  obtain ⟨u, hu⟩ : ∃ v, fbSum Config.block x xs σ1 = v := ⟨_, rfl⟩
  obtain ⟨⟨σ5, a1⟩, ha1⟩ : ∃ a, apProc Config.block x .k1 u (s.consts.n.get x).k1 s.coeffs.apCoeff σ1 = a := ⟨_, rfl⟩
  obtain ⟨⟨σ6, a2⟩, ha2⟩ : ∃ a, apProc Config.block x .k2 a1 (s.consts.n.get x).k2 s.coeffs.apCoeff σ5 = a := ⟨_, rfl⟩
  obtain ⟨d3, hd3⟩ : ∃ v, lfoMod Config.block x σ6 = v := ⟨_, rfl⟩
  obtain ⟨⟨σ8, a3⟩, ha3⟩ : ∃ a, apProcm Config.block x .k3 a2 d3 s.coeffs.apCoeff σ6 = a := ⟨_, rfl⟩
  obtain ⟨⟨σ9, z⟩, hz⟩ : ∃ a, lpProc Config.block x a3 σ8 = a := ⟨_, rfl⟩
  have hstep : strStep Config.block x xin gain s = (lfoAdv Config.block x (fbUpd Config.block x z σ9), a3) := by
    simp only [strStep, h1, hcoeffs, hconsts, hxd, hxs, hu, Stages.get_k1, Stages.get_k2, ha1, ha2, hd3, ha3, hz]
  refine ⟨(strStep Config.block x xin gain s).1.withResult [(strStep Config.block x xin gain s).2],
    σ1, σ1.withResult [xd], σ1.withResult [xs], σ1.withResult [u], σ5.withResult [a1], σ6.withResult [a2], σ6.withResult [d3],
    σ8.withResult [a3], σ9.withResult [z], (fbUpd Config.block x z σ9).withResult [z],
    (lfoAdv Config.block x (fbUpd Config.block x z σ9)).withResult [z], xd, xs, u, a1, a2, d3, a3, z,
    ?pdWrite, ?pdRead, rfl, ?drvShape, rfl, ?fbSum, rfl, ?apProc1, rfl, ?apProc2, rfl, ?lfoMod, rfl, ?apProcm, rfl, ?lpProc, rfl,
    rfl, rfl, exec_strStep x xin gain s, ?same⟩
  case pdWrite => rw [← h1]; rfl
  case pdRead => rw [← hxd]; rfl
  case drvShape => rw [exec_withResult rfl, exec_drvShape, hxs]
  case fbSum => rw [exec_withResult rfl, ← hu]; rfl
  case apProc1 => rw [exec_withResult rfl, exec_apProc, ha1]
  case apProc2 => rw [exec_withResult rfl, exec_apProc, ha2]
  case lfoMod => rw [exec_withResult rfl, exec_lfoMod, hd3]
  case apProcm => rw [exec_withResult rfl, exec_apProcm, ha3]
  case lpProc => rw [exec_withResult rfl, exec_lpProc_fn, hz]
  case same => rw [hstep, State.withResult_withResult]

/-! ### A frame (R210, R211) -/

/-! The parts of a frame leave the output stream and the value that an operation presented alone returned. -/

theorem smNext_keeps {p : SmootherId} {σ τ : State} {v : F32} (h : smNext Config.block p σ = (τ, v)) :
    τ.outQ = σ.outQ ∧ τ.result = σ.result := by
  obtain ⟨rfl, -⟩ := Prod.mk.inj h
  exact ⟨State.setSmoother_outQ σ p _, State.setSmoother_result σ p _⟩

theorem strStep_keeps {x : Str} {xin gain : F32} {σ τ : State} {v : F32} (h : strStep Config.block x xin gain σ = (τ, v)) :
    τ.outQ = σ.outQ ∧ τ.result = σ.result := by
  rw [strStep_lane] at h
  obtain ⟨rfl, -⟩ := Prod.mk.inj h
  exact ⟨rfl, rfl⟩

/-- Settles O26: the operations, each computed from what the one before returned, are those of `frameSignal`, and no operation sees
the value that the one before left. -/
theorem frameRunsItsSchedule : Obligations.FrameRunsItsSchedule := by
  unfold Obligations.FrameRunsItsSchedule
  intro s f rest hin
  obtain ⟨σ0, h0⟩ : ∃ σ, σ = { s with inQ := rest } := ⟨_, rfl⟩
  obtain ⟨xl, hxl⟩ : ∃ v, inSan Config.block f.l = v := ⟨_, rfl⟩
  obtain ⟨xr, hxr⟩ : ∃ v, inSan Config.block f.r = v := ⟨_, rfl⟩
  obtain ⟨⟨σ3, m⟩, hm⟩ : ∃ a, smNext Config.block .mix σ0 = a := ⟨_, rfl⟩
  obtain ⟨⟨σ4, d⟩, hd⟩ : ∃ a, smNext Config.block .drive σ3 = a := ⟨_, rfl⟩
  obtain ⟨gain, hgain⟩ : ∃ v, drvGain Config.block d = v := ⟨_, rfl⟩
  obtain ⟨⟨σ6, wetL⟩, hwetL⟩ : ∃ a, strStep Config.block .L xl gain σ4 = a := ⟨_, rfl⟩
  obtain ⟨⟨σ7, wetR⟩, hwetR⟩ : ∃ a, strStep Config.block .R (rightInput Config.block s.seq.stereo xl xr) gain σ6 = a := ⟨_, rfl⟩
  obtain ⟨outL, houtL⟩ : ∃ v, mixBlend Config.block xl wetL m = v := ⟨_, rfl⟩
  obtain ⟨outR, houtR⟩ : ∃ v, mixBlend Config.block xr wetR m = v := ⟨_, rfl⟩
  obtain ⟨hout3, hres3⟩ := smNext_keeps hm
  obtain ⟨hout4, hres4⟩ := smNext_keeps hd
  obtain ⟨hout6, hres6⟩ := strStep_keeps hwetL
  obtain ⟨hout7, hres7⟩ := strStep_keeps hwetR
  have hout : σ7.outQ = s.outQ := by rw [hout7, hout6, hout4, hout3, h0]
  have hres : σ7.result = s.result := by rw [hres7, hres6, hres4, hres3, h0]
  have hframe : frameOp Config.block s =
      { σ7 with outQ := σ7.outQ ++ [{ l := outL, r := if s.seq.stereo then outR else 0x00000000#32 }] } := by
    simp only [frameOp, hin, frameSignal, ← h0, hxl, hxr, hm, hd, hgain, hwetL, hwetR, houtL, houtR, block_enc32,
      zero_eq]
  refine ⟨frameOp Config.block s, σ0.withResult [xl], σ0.withResult [xr], σ3.withResult [m], σ4.withResult [d],
    σ4.withResult [gain], σ6.withResult [wetL], σ7.withResult [wetR], σ7.withResult [outL], σ7.withResult [outR],
    xl, xr, m, d, gain, wetL, wetR, outL, outR,
    ?inSanL, rfl, ?inSanR, rfl, ?mix, rfl, ?drive, rfl, ?drvGain, rfl, ?stepL, rfl, ?stepR, rfl, ?blendL, rfl, ?blendR, rfl,
    exec_frame s, ?same⟩
  case inSanL => rw [← h0, exec_inSan, hxl]
  case inSanR => rw [exec_withResult rfl, exec_inSan, hxr]
  case mix => rw [exec_withResult rfl, exec_smNext_fn, hm]
  case drive => rw [exec_withResult rfl, exec_smNext_fn, hd]
  case drvGain => rw [exec_withResult rfl, exec_drvGain, hgain]
  case stepL => rw [exec_withResult rfl, exec_strStep, hwetL]
  case stepR => rw [exec_withResult rfl, exec_strStep, ← rightInput_block, hwetR]
  case blendL => rw [exec_withResult rfl, exec_mixBlend, houtL]
  case blendR => rw [exec_withResult rfl, exec_mixBlend, houtR]
  case same => rw [hframe, hout, ← hres]; rfl

/-! ### The latch (R205) -/

/-- Settles O23: with nothing landing meanwhile the snapshots are the registers, and the latch is the mapper and smoother operations
on their clamped values. -/
theorem latchRunsItsSchedule : Obligations.LatchRunsItsSchedule := by
  unfold Obligations.LatchRunsItsSchedule
  intro s hquiet
  refine ⟨_, _, _, _, _, _, _, _, exec_mapClamp _ _ _ _ _ _ _ s, rfl, latch Config.block s, ?_, exec_blkLatch s⟩
  rw [latch, landRacing_of_nil hquiet]
  simp only [snapshot_of_nil hquiet]
  rfl

/-! ### `PREPARE` and `RESET` (R202, R203) -/

theorem clampParam_mix (w : Word) : clampParam Config.block .mix w = clamp w plusZero (lit 1 1) := by
  simp only [clampParam_block, paramLow, paramHigh, block_lit, lit_zero]

theorem clampParam_drive (w : Word) : clampParam Config.block .drive w = clamp w plusZero (lit 1 1) := by
  simp only [clampParam_block, paramLow, paramHigh, block_lit, lit_zero]

/-- The stores `PREPARE` makes from its constants (R202). -/
def preparedStore (c : Constants) : StoreId → Store
  | .pd _ => storePrep Config.block c.pdMax .int
  | .ap x .k1 => storePrep Config.block (c.n.get x).k1 .int
  | .ap x .k2 => storePrep Config.block (c.n.get x).k2 .int
  | .ap x .k3 => storePrep Config.block ((c.n.get x).k3 + floorI c.wMax + 1) .frac

/-- The machine with all eight stores replaced. -/
def State.withStores (σ : State) (f : StoreId → Store) : State :=
  { σ with
    pd := { l := f (.pd .c0), r := f (.pd .c1) }
    str :=
      { l := { σ.str.l with ap := { k1 := f (.ap .L .k1), k2 := f (.ap .L .k2), k3 := f (.ap .L .k3) } }
        r := { σ.str.r with ap := { k1 := f (.ap .R .k1), k2 := f (.ap .R .k2), k3 := f (.ap .R .k3) } } } }

/-- The operations of `PREPARE` put the stores of its constants in place and seed both smoothers. -/
theorem execAll_prepare (σ : State) (c : Constants) (mix drive : F32) :
    execAll
      [.rbPrep (.pd .c0) c.pdMax .int, .rbPrep (.pd .c1) c.pdMax .int,
        .rbPrep (.ap .L .k1) c.n.l.k1 .int, .rbPrep (.ap .L .k2) c.n.l.k2 .int,
        .rbPrep (.ap .L .k3) (c.n.l.k3 + floorI c.wMax + 1) .frac,
        .rbPrep (.ap .R .k1) c.n.r.k1 .int, .rbPrep (.ap .R .k2) c.n.r.k2 .int,
        .rbPrep (.ap .R .k3) (c.n.r.k3 + floorI c.wMax + 1) .frac, .smSeed .mix mix, .smSeed .drive drive] σ =
      some { σ.withStores (preparedStore c) with smMix := seeded mix, smDrive := seeded drive } := by
  cases σ
  rfl

/-- The operations of `RESET` clear each store and seed both smoothers. -/
theorem execAll_reset (σ : State) (mix drive : F32) :
    execAll
      [.rbReset (.pd .c0), .rbReset (.pd .c1), .rbReset (.ap .L .k1), .rbReset (.ap .L .k2), .rbReset (.ap .L .k3),
        .rbReset (.ap .R .k1), .rbReset (.ap .R .k2), .rbReset (.ap .R .k3), .smSeed .mix mix, .smSeed .drive drive] σ =
      some { σ.withStores (fun id => storeReset (σ.store id)) with smMix := seeded mix, smDrive := seeded drive } := by
  cases σ
  rfl

/-- Settles O20: each command is one update of the machine, and the stores and smoothers in it are those its operations leave. -/
theorem prepareAndResetRunTheirSchedule : Obligations.PrepareAndResetRunTheirSchedule := by
  unfold Obligations.PrepareAndResetRunTheirSchedule
  intro s t quiet
  rw [exec_prepare, exec_reset]
  refine ⟨fun ht => ⟨_, execAll_prepare _ _ _ _, ?prepare⟩, fun ht hprep => (execAll_reset _ _ _).trans (congrArg some ?reset)⟩
  case prepare =>
    rw [← next_inj.1 (accept_eq_next.1 ht).2, prepareAll_eq, clampParam_mix, clampParam_drive]
    rfl
  case reset =>
    rw [← next_inj.1 (accept_eq_next.1 ht).2, resetAll_eq hprep, clampParam_mix, clampParam_drive]
    rfl

end Sys2Proof.Machine
end

section
/-! Delay stores (R102 to R107): which cell a read at a lag finds, what a write does to the cursor and to the taps, and what the taps
find after any number of writes. -/

namespace Sys2Proof.Machine

open Fp

/-! ### Taps -/

/-- The cell that a read at a lag finds: one nearer in the order `PRE` (R105). -/
theorem tap_sub_orderShift (st : Store) (lag : Int) (ord : Order) :
    tap st (lag - orderShift ord) =
      Memory.read st.cells (((st.wr : Int) - (if ord = .post then 1 else 0) - lag) % st.cap).toNat := by
  have hdist : (st.wr : Int) - 1 - (lag - orderShift ord) = (st.wr : Int) - (if ord = .post then 1 else 0) - lag := by
    cases ord
    case pre => simp [orderShift]
    case post => simp [orderShift]
  rw [tap, tapIndex, hdist]

/-- A write makes every value one step older. -/
theorem tapIndex_storeWrite (st : Store) (v : F32) (k : Int) : tapIndex (storeWrite st v) k = tapIndex st (k - 1) := by
  have hdist : (st.wr : Int) - 1 - (k - 1) = (st.wr : Int) + 1 - (1 + k) := by ring
  simp only [tapIndex, storeWrite_wr, storeWrite_cap]
  rw [hdist, sub_sub, Int.natCast_mod, Int.emod_sub_emod, Nat.cast_add, Nat.cast_one]

/-- The latest value is the one just written. -/
theorem tap_storeWrite_zero {st : Store} (h : storeOk st = true) (v : F32) : tap (storeWrite st v) 0 = v := by
  obtain ⟨-, hwr, -, -⟩ := storeOk_iff.1 h
  have hcursor : tapIndex st (0 - 1) = st.wr := by
    rw [tapIndex, zero_sub, sub_neg_eq_add, sub_add_cancel, Int.emod_eq_of_lt (by omega) (by omega), Int.toNat_natCast]
  rw [tap, tapIndex_storeWrite, (storeWrite_spec h v).2, if_pos hcursor]

/-- An older value that is still in the store is the one a step nearer before the write: the write falls on the oldest cell. -/
theorem tap_storeWrite_succ {st : Store} (h : storeOk st = true) (v : F32) {k : Nat} (hk : k + 1 < st.cap) :
    tap (storeWrite st v) (k + 1 : Nat) = tap st k := by
  obtain ⟨-, hwr, -, -⟩ := storeOk_iff.1 h
  have hold : tapIndex st k ≠ st.wr := by
    rw [tapIndex_eq hwr (by omega)]
    split <;> omega
  rw [tap, tapIndex_storeWrite, Nat.cast_succ, add_sub_cancel_right, (storeWrite_spec h v).2, if_neg hold, tap]

/-! ### Any number of writes -/

@[simp] theorem foldl_storeWrite_cap (vs : List F32) (st : Store) : (vs.foldl storeWrite st).cap = st.cap := by
  induction vs generalizing st with
  | nil => rfl
  | cons v vs ih => exact ih _

theorem storeOk_foldl_storeWrite (vs : List F32) {st : Store} (h : storeOk st = true) :
    storeOk (vs.foldl storeWrite st) = true := by
  induction vs generalizing st with
  | nil => exact h
  | cons v vs ih => exact ih (storeWrite_spec h v).1

/-- The writes of a list, run as instructions. -/
theorem execAll_rbWrite (id : StoreId) (vs : List F32) (s : State) :
    execAll (vs.map fun v => .rbWrite id v) s = some (s.setStore id (vs.foldl storeWrite (s.store id))) := by
  induction vs generalizing s with
  | nil => exact congrArg some (State.setStore_store_self s id).symm
  | cons v vs ih =>
    simp only [List.map_cons, execAll, exec_rbWrite, ih, State.store_setStore_self, State.setStore_setStore, List.foldl_cons]

/-- In a store written since it was cleared, a tap finds the values by their age, and `+0` beyond the first. -/
theorem tap_foldl_storeWrite {st : Store} (h : storeOk st = true) (hclear : st.cells = []) (vs : List F32) {k : Nat}
    (hk : k < st.cap) : tap (vs.foldl storeWrite st) k = vs.reverse.getD k plusZero := by
  induction vs using List.reverseRecOn generalizing k with
  | nil => rw [List.foldl_nil, tap, hclear, Memory.read_nil]; rfl
  | append_singleton vs v ih =>
    have hok := storeOk_foldl_storeWrite vs h
    rw [List.foldl_concat, List.reverse_concat']
    cases k with
    | zero => exact tap_storeWrite_zero hok v
    | succ k =>
      rw [tap_storeWrite_succ hok v (by rwa [foldl_storeWrite_cap]), ih (by omega), List.getD_cons_succ]

/-- Settles O37: `RB.PREP` leaves a cleared store in order, and the taps of what the writes make of it find the values by age. -/
theorem tapFindsWriteByAge : Obligations.TapFindsWriteByAge := by
  unfold Obligations.TapFindsWriteByAge
  intro s id m h vs hm
  refine ⟨_, execAll_rbWrite id vs (s.setStore id (storePrep Config.block m h)), fun k hk => ?_⟩
  simp only [State.store_setStore_self, foldl_storeWrite_cap] at hk ⊢
  exact tap_foldl_storeWrite (storeOk_prep hm h) (storePrep_cells m h) vs hk

/-! ### Reads -/

/-- Settles O35: the read is at a lag between 1 and `C-3`, and its two taps are the cells at that lag and the next. -/
theorem rbRdfInterpolates : Obligations.RbRdfInterpolates := by
  unfold Obligations.RbRdfInterpolates
  intro s id d ord h h'
  obtain ⟨hlo, hhi⟩ := floorI_clamp_range h h' d
  refine ⟨_, _, _, rfl, rfl, rfl, hlo, hhi, ?_⟩
  rw [exec_rbRdf, storeReadFrac_block, if_neg (not_lt.2 h)]
  simp only [tap_sub_orderShift]

/-- Settles O34: the read is the tap at the clamped lag. -/
theorem rbRdiReadsClampedLag : Obligations.RbRdiReadsClampedLag := by
  unfold Obligations.RbRdiReadsClampedLag
  intro s id d ord h
  dsimp only
  rw [exec_rbRdi, storeReadInt_eq h, tap_sub_orderShift]
  cases ord
  case pre => rw [if_neg (by decide), sub_zero]
  case post => rw [if_pos rfl]

/-! ### `RB.RESET` and `RB.WRITE` -/

theorem storeReset_storeReset (st : Store) : storeReset (storeReset st) = storeReset st := rfl

/-- Settles O32: the store put in place is `storeReset`'s, which a second one leaves as it is. -/
theorem rbResetClears : Obligations.RbResetClears := by
  unfold Obligations.RbResetClears
  intro s id
  refine ⟨_, exec_rbReset id s, ?_⟩
  rw [exec_rbReset, State.store_setStore_self, State.setStore_setStore, storeReset_storeReset]
  exact ⟨rfl, rfl, Memory.read_nil, sameButStore_setStore s id _, rfl⟩

/-- The cursor moves on by one cell, and wraps to 0 after the last (R103). -/
theorem storeWrite_wr_eq_ite {st : Store} (hwr : st.wr < st.cap) (v : F32) :
    (storeWrite st v).wr = if st.wr + 1 = st.cap then 0 else st.wr + 1 := by
  rw [storeWrite_wr]
  split
  next hlast => rw [hlast, Nat.mod_self]
  next hinner => exact Nat.mod_eq_of_lt (by omega)

/-- Settles O33: the store put in place is `storeWrite`'s, which differs from the old one in the cell at the cursor. -/
theorem rbWriteFillsCursorCell : Obligations.RbWriteFillsCursorCell := by
  unfold Obligations.RbWriteFillsCursorCell
  intro s id v h
  obtain ⟨-, hwr, -, -⟩ := storeOk_iff.1 h
  obtain ⟨hok, hread⟩ := storeWrite_spec h v
  refine ⟨_, exec_rbWrite id v s, ?_⟩
  rw [State.store_setStore_self]
  exact ⟨hread, storeWrite_wr_eq_ite hwr v, rfl, hok, sameButStore_setStore s id _⟩

end Sys2Proof.Machine
end

section
/-! The allpass sections (R120 to R122): `AP.PROC` and `AP.PROCM` are one recurrence on two reads of the store. -/

namespace Sys2Proof.Machine

open Fp

/-- The machine after an allpass section that found `vd` in its store: the state is pushed, the output returned (R120). -/
def allpassNext (x : Str) (k : Stage) (a g vd : F32) (s : State) : State :=
  (s.withResult [fadd (fmul g (fsub a (fmul g vd))) vd]).setStore (.ap x k)
    (storeWrite (s.store (.ap x k)) (fsub a (fmul g vd)))

theorem exec_apProc_eq_allpassNext (x : Str) (k : Stage) (a : F32) (n : Int) (g : F32) (s : State) :
    exec (.apProc x k a n g) s = .next (allpassNext x k a g (storeReadInt (s.store (.ap x k)) n .pre) s) := by
  rw [exec_apProc, apProc, allpassState_block, allpassOut_block]
  rfl

theorem exec_apProcm_eq_allpassNext (x : Str) (k : Stage) (a d g : F32) (s : State) :
    exec (.apProcm x k a d g) s =
      .next (allpassNext x k a g (storeReadFrac Config.block (s.store (.ap x k)) d .pre) s) := by
  rw [exec_apProcm, apProcm, allpassState_block, allpassOut_block]
  rfl

/-- Whatever the read found, a section fills the cell at the cursor, moves the cursor on, and leaves everything else but the result. -/
theorem allpassNext_spec {s : State} {x : Str} {k : Stage} (h : storeOk (s.store (.ap x k)) = true) (a g vd : F32) :
    (allpassNext x k a g vd s).result = [fadd (fmul g (fsub a (fmul g vd))) vd] ∧
      (∀ c, Memory.read ((allpassNext x k a g vd s).store (.ap x k)).cells c =
        if c = (s.store (.ap x k)).wr then fsub a (fmul g vd) else Memory.read (s.store (.ap x k)).cells c) ∧
      ((allpassNext x k a g vd s).store (.ap x k)).wr = ((s.store (.ap x k)).wr + 1) % (s.store (.ap x k)).cap ∧
      ((allpassNext x k a g vd s).store (.ap x k)).cap = (s.store (.ap x k)).cap ∧
      sameButStore (.ap x k) (s.withResult [fadd (fmul g (fsub a (fmul g vd))) vd]) (allpassNext x k a g vd s) := by
  obtain ⟨-, hread⟩ := storeWrite_spec h (fsub a (fmul g vd))
  rw [allpassNext, State.store_setStore_self]
  exact ⟨State.setStore_result _ _ _, hread, storeWrite_wr _ _, storeWrite_cap _ _, sameButStore_setStore _ _ _⟩

/-- Settles O38: the section is the recurrence on what `RB.RDI` in the order `PRE` returns. -/
theorem allpassRecurrence : Obligations.AllpassRecurrence := by
  unfold Obligations.AllpassRecurrence
  intro s x k a n g h
  obtain ⟨hres, hframe⟩ := allpassNext_spec h a g (storeReadInt (s.store (.ap x k)) n .pre)
  exact ⟨_, _, _, _, exec_rbRdi (.ap x k) n .pre s, rfl, rfl, exec_apProc_eq_allpassNext x k a n g s, hres, hframe⟩

/-- Settles O39: the section is the recurrence on what `RB.RDF` in the order `PRE` returns. -/
theorem modulatedAllpassRecurrence : Obligations.ModulatedAllpassRecurrence := by
  unfold Obligations.ModulatedAllpassRecurrence
  intro s x k a d g h
  obtain ⟨hres, hframe⟩ := allpassNext_spec h a g (storeReadFrac Config.block (s.store (.ap x k)) d .pre)
  exact ⟨_, _, _, _, exec_rbRdf (.ap x k) d .pre s, rfl, rfl, exec_apProcm_eq_allpassNext x k a d g s, hres, hframe⟩

end Sys2Proof.Machine
end

