-- ==== Sys2Proof/Proofs/PreDelay.lean ====
section
/-! The pre-delay line (R130 to R132): `PD.WRITE` and `PD.READ` are `RB.WRITE` and `RB.RDI` in the order `POST` on the channel's
store, and what the read finds after any number of writes. -/

namespace Sys2Proof.Machine

theorem exec_pdWrite_eq_rbWrite (c : Chan) (x : F32) (s : State) : exec (.pdWrite c x) s = exec (.rbWrite (.pd c) x) s := by
  rw [exec_pdWrite, exec_rbWrite]

theorem exec_pdRead_eq_rbRdi (c : Chan) (n : Int) (s : State) : exec (.pdRead c n) s = exec (.rbRdi (.pd c) n .post) s := by
  rw [exec_pdRead, exec_rbRdi]

theorem execAll_pdWrite (c : Chan) (xs : List F32) (s : State) :
    execAll (xs.map fun x => .pdWrite c x) s = execAll (xs.map fun x => .rbWrite (.pd c) x) s := by
  induction xs generalizing s with
  | nil => rfl
  | cons x xs ih => simp only [List.map_cons, execAll, exec_pdWrite_eq_rbWrite, ih]

/-- A read after the write, in a store written since it was cleared, finds the value of as many writes ago as its clamped delay
says: a lag of at least 1 never names the latest, one of at most `C - 2` is still in the store. -/
theorem storeReadInt_foldl_storeWrite {st : Store} (h : storeOk st = true) (hclear : st.cells = []) (xs : List F32) (n : Int) :
    storeReadInt (xs.foldl storeWrite st) n .post =
      xs.reverse.getD (max 1 (min n ((st.cap : Int) - 2))).toNat plusZero := by
  obtain ⟨hcap, -, -, -⟩ := storeOk_iff.1 h
  obtain ⟨lag, hlag⟩ : ∃ lag : Nat, max 1 (min n ((st.cap : Int) - 2)) = lag := Int.eq_ofNat_of_zero_le (by omega)
  rw [storeReadInt_eq (by rwa [foldl_storeWrite_cap]), foldl_storeWrite_cap, orderShift, sub_zero, hlag, Int.toNat_natCast,
    tap_foldl_storeWrite h hclear xs (by omega)]

/-- Settles O40: the two operations are the store's, and the store they leave is the one `RB.PREP` cleared and the writes filled. -/
theorem preDelayReturnsLaggedSample : Obligations.PreDelayReturnsLaggedSample := by
  unfold Obligations.PreDelayReturnsLaggedSample
  constructor
  case left =>
    intro s c x n
    rw [exec_pdWrite_eq_rbWrite, exec_pdRead_eq_rbRdi]
    exact ⟨_, _, exec_rbWrite (.pd c) x s, exec_rbWrite (.pd c) x s, exec_rbRdi (.pd c) n .post s, exec_rbRdi (.pd c) n .post s⟩
  case right =>
    intro s c m xs n hm
    have hrun : execAll (.rbPrep (.pd c) m .int :: xs.map (fun x => .pdWrite c x)) s =
        some (s.setStore (.pd c) (xs.foldl storeWrite (storePrep Config.block m .int))) := by
      rw [execAll, exec_rbPrep]
      dsimp only
      rw [execAll_pdWrite, execAll_rbWrite, State.store_setStore_self, State.setStore_setStore]
    refine ⟨_, hrun, sameButStore_setStore s (.pd c) _, fun hfits => ?_, ?_⟩
    · rw [State.store_setStore_self, foldl_storeWrite_cap, storePrep_cap]
      exact fitCapacity_of_lt hfits
    · rw [exec_pdRead, State.store_setStore_self, foldl_storeWrite_cap,
        storeReadInt_foldl_storeWrite (storeOk_prep hm .int) (storePrep_cells m .int)]

end Sys2Proof.Machine
end

section
/-! LFO, damping filter and feedback of a string (R141, R142, R145, R147, R148). -/

namespace Sys2Proof.Machine

open Fp

/-! ### LFO (R141, R142) -/

/-- Settles O41: the two operations are `lfoMod` and `nextPhase`, and an advanced phase is a phase. -/
theorem lfoModulatesAndWraps : Obligations.LfoModulatesAndWraps := by
  unfold Obligations.LfoModulatesAndWraps
  intro s x
  refine ⟨?mod, _, exec_lfoAdv x s, ?adv, ?wraps⟩
  case mod => rw [exec_lfoMod, lfoMod_block, Stages.get_k3]
  case adv =>
    rw [nextPhase_block]
    rfl
  case wraps =>
    rw [State.setPh_str, Pair.get_set_self]
    exact phaseOk_nextPhase

/-! ### Damping filter (R145) -/

/-- Settles O42: the operation puts the filter's output in place and returns it. -/
theorem dampingFilterStep : Obligations.DampingFilterStep := by
  unfold Obligations.DampingFilterStep
  intro s x v
  rw [exec_lpProc, lpOut_block]
  rfl

/-! ### Feedback (R147, R148) -/

/-- A factor in [0, 1] does not lift the magnitude of a finite value: the exact product is no greater than the value, which is one of
the format. -/
theorem mag_fmul_le_of_unit {g v : F32} (hg : between plusZero g (lit 1 1) = true) (hv : finite v = true) :
    mag (fmul g v) ≤ mag v := by
  obtain ⟨h0, h1⟩ := between_iff.1 hg
  obtain ⟨hf, hlo, hhi⟩ := units_of_fle finite_plusZero finite_one h0 h1
  have hgain : magUnits (mag g) ≤ one149 := by
    rw [units_plusZero] at hlo
    rw [units_one] at hhi
    have := natAbs_units g
    omega
  rw [fmul_finite hf hv, mag_rnd]
  refine roundUnits_le one149_pos ?_ (finite_iff.1 hv).le
  rw [mul_comm]
  exact Nat.mul_le_mul_left _ hgain

/-- A feedback gain, which is at most 0.95 (R26), is a factor in [0, 1]. -/
theorem unit_of_fbGain {g : F32} (h : between plusZero g (lit 95 100) = true) : between plusZero g (lit 1 1) = true := by
  obtain ⟨h0, h1⟩ := between_iff.1 h
  have hmax : fle (lit 95 100) (lit 1 1) = true := by decide +kernel
  exact between_iff.2 ⟨h0, fle_trans h1 hmax⟩

/-- Settles O43: the two operations are a sum and a product, and a gain in its range is a factor in [0, 1]. -/
theorem feedbackSumAndUpdate : Obligations.FeedbackSumAndUpdate := by
  unfold Obligations.FeedbackSumAndUpdate
  intro s x v
  refine ⟨exec_fbSum x v s, ?update, fun hgain hv => mag_fmul_le_of_unit (unit_of_fbGain hgain) hv⟩
  case update =>
    rw [exec_fbUpd]
    rfl

end Sys2Proof.Machine
end

section
/-! Silence (R150, R162, R210): zeros of either sign pass through every operation of a frame. -/

namespace Sys2Proof.Machine

open Fp

/-! ### Stores (R103, R106, R107) -/

theorem storeSilent_iff {n : Nat} {st : Store} :
    storeSilent n st = true ↔ n ≤ st.cap ∧ st.cap < 2 ^ 16 ∧ ∀ c ∈ st.cells, isZero c.2 = true := by
  simp [storeSilent, and_assoc, Config.idxWidth]

/-- A zero written to a silent store leaves it silent. -/
theorem storeSilent_storeWrite {n : Nat} {st : Store} {v : F32} (h : storeSilent n st = true) (hv : isZero v = true) :
    storeSilent n (storeWrite st v) = true := by
  obtain ⟨hcap, hfits, hcells⟩ := storeSilent_iff.1 h
  refine storeSilent_iff.2 ⟨hcap, hfits, fun c hc => ?_⟩
  rcases Memory.mem_write hc with rfl | hc
  · exact hv
  · exact hcells c hc

/-- Every tap of a silent store is a zero. -/
theorem isZero_tap {n : Nat} {st : Store} (h : storeSilent n st = true) (k : Int) : isZero (tap st k) = true := by
  obtain ⟨-, -, hcells⟩ := storeSilent_iff.1 h
  exact Memory.read_of_all (p := fun v => isZero v = true) hcells (by decide) _

theorem isZero_storeReadInt {n : Nat} {st : Store} (h : storeSilent n st = true) (d : Int) (ord : Order) :
    isZero (storeReadInt st d ord) = true :=
  isZero_tap h _

/-- The fraction of a delay is finite. -/
theorem finite_fsub_floorI {x : F32} (hx : finite x = true) (h0 : 0 ≤ units x) (hfits : floorI x < 2 ^ 24) :
    finite (fsub x (itof (floorI x))) = true := by
  have hp : (0 : Int) < one149 := by exact_mod_cast one149_pos
  have hfloor : units (itof (floorI x)) ≤ units x := by
    rw [units_itof hfits, floorI_eq hx h0]
    exact Int.ediv_mul_le _ hp.ne'
  have hpos : 0 ≤ units (itof (floorI x)) := by
    rw [units_itof hfits]
    positivity
  obtain ⟨hlo, hhi⟩ := fsub_between hx (finite_itof hfits) finite_plusZero hx (by rw [units_plusZero]; omega) (by omega)
  exact finite_of_fle finite_plusZero hx hlo hhi

/-- Whatever the delay, NaN and infinities included: the clamp makes the fraction finite, and it weighs a difference of zeros. -/
theorem isZero_storeReadFrac {st : Store} (h : storeSilent 4 st = true) (d : F32) (ord : Order) :
    isZero (storeReadFrac Config.block st d ord) = true := by
  obtain ⟨hcap, hfits, -⟩ := storeSilent_iff.1 h
  obtain ⟨hlo, hhi⟩ := clamp_between (x := d) (fle_itof (show 1 ≤ st.cap - 3 by omega) (by omega))
  obtain ⟨-, hfloor⟩ := floorI_clamp_range hcap hfits d
  obtain ⟨hfin, hunits, -⟩ := units_of_fle (finite_itof (by norm_num)) (finite_itof (show st.cap - 3 < 2 ^ 24 by omega)) hlo hhi
  have hnonneg : (0 : Int) ≤ units (itof 1) := by
    rw [units_itof (by norm_num)]
    positivity
  rw [storeReadFrac_block, if_neg (not_lt.2 hcap)]
  exact isZero_fadd (isZero_tap h _)
    (isZero_fmul_right (finite_fsub_floorI hfin (hnonneg.trans hunits) (by omega)) (isZero_fsub (isZero_tap h _) (isZero_tap h _)))

/-! ### Allpass stages (R120) -/

/-- A stage whose input and delayed value are zeros stays silent and returns a zero. -/
theorem stageStep_silent {n : Nat} {st : Store} {x g vd : F32} (h : storeSilent n st = true) (hx : isZero x = true)
    (hg : finite g = true) (hvd : isZero vd = true) :
    storeSilent n (stageStep st x g vd).1 = true ∧ isZero (stageStep st x g vd).2 = true := by
  have hpush := isZero_fsub hx (isZero_fmul_right hg hvd)
  rw [stageStep, allpassState_block, allpassOut_block]
  exact ⟨storeSilent_storeWrite h hpush, isZero_fadd (isZero_fmul_right hg hpush) hvd⟩

/-! ### Drive stage (R161, R162) -/

/-- `P_TANH` for either zero: `tanh` is `+0` at `+0` and odd. -/
theorem isZero_tanh {x : F32} (h : isZero x = true) : isZero (Config.functions.tanh x) = true := by
  rcases eq_of_isZero h with rfl | rfl
  · rw [Config.functions.tanh_zero]
    decide
  · rw [Config.functions.tanh_odd _ (by decide), Config.functions.tanh_zero, isZero_neg]
    decide

/-- The gain of a drive value in [0, 1] lies in [1, 4]. -/
theorem drvGain_between {d : F32} (h : between plusZero d (lit 1 1) = true) :
    between (lit 1 1) (drvGain Config.block d) (lit 4 1) = true := by
  have f3 : finite (itof 3) = true := finite_itof (by norm_num)
  have f4 : finite (itof 4) = true := finite_itof (by norm_num)
  obtain ⟨hlo, hhi⟩ := fmul_unit_between h f3 (by decide +kernel)
  obtain ⟨hfin, h0, h3⟩ := units_of_fle finite_plusZero f3 hlo hhi
  rw [units_plusZero] at h0
  rw [units_itof (by norm_num)] at h3
  rw [drvGain_block, between_iff, lit_one 3, lit_one 4]
  refine fadd_between finite_one hfin finite_one f4 (by omega) ?_
  rw [units_one, units_itof (by norm_num)]
  push_cast at h3 ⊢
  omega

/-- A zero comes out of the shaper a zero: a gain in [1, 4] is finite and no zero. -/
theorem isZero_drvShape {x gain : F32} (hx : isZero x = true) (hgain : between (lit 1 1) gain (lit 4 1) = true) :
    isZero (drvShape Config.block x gain) = true := by
  obtain ⟨h1, h4⟩ := between_iff.1 hgain
  obtain ⟨hfin, hone, -⟩ := units_of_fle finite_one (by decide +kernel) h1 h4
  have hne : isZero gain = false := by
    by_contra hz
    have hunits := units_of_isZero (by simpa using hz)
    have hp : (0 : Int) < one149 := by exact_mod_cast one149_pos
    rw [units_one] at hone
    omega
  rw [drvShape_block]
  exact isZero_fdiv (isZero_tanh (isZero_fmul_left hfin hx)) hfin hne

/-! ### Strings (R150) -/

theorem stringSilent_iff {x : StringState} :
    stringSilent x = true ↔ isZero x.fb = true ∧ isZero x.lpz = true ∧ storeSilent 3 x.ap.k1 = true ∧ storeSilent 3 x.ap.k2 = true ∧
      storeSilent 4 x.ap.k3 = true := by
  simp [stringSilent, and_assoc]

/-- A silent lane that is fed a zero stays silent and returns a zero, whatever its LFO does: the LFO reaches the samples through the
delay of stage 3 alone. -/
theorem laneStep_silent {s : Str} {xin gain : F32} {κ : Coefficients} {c : Constants} {pd : Store} {x : StringState}
    (hpd : storeSilent 3 pd = true) (hx : stringSilent x = true) (hxin : isZero xin = true)
    (hgain : between (lit 1 1) gain (lit 4 1) = true) (hap : finite κ.apCoeff = true) (hlp : finite κ.lpA = true)
    (hfb : finite (κ.fbGain.get s) = true) :
    storeSilent 3 (laneStep s xin gain κ c pd x).1 = true ∧ stringSilent (laneStep s xin gain κ c pd x).2.1 = true ∧
      isZero (laneStep s xin gain κ c pd x).2.2 = true := by
  obtain ⟨hfb0, hlpz, hk1, hk2, hk3⟩ := stringSilent_iff.1 hx
  have hpd' := storeSilent_storeWrite hpd hxin
  have hu := isZero_fadd (isZero_drvShape (isZero_storeReadInt hpd' κ.pdN .post) hgain) hfb0
  obtain ⟨hs1, ha1⟩ := stageStep_silent hk1 hu hap (isZero_storeReadInt hk1 (c.n.get s).k1 .pre)
  obtain ⟨hs2, ha2⟩ := stageStep_silent hk2 ha1 hap (isZero_storeReadInt hk2 (c.n.get s).k2 .pre)
  obtain ⟨hs3, ha3⟩ := stageStep_silent hk3 ha2 hap (isZero_storeReadFrac hk3
    (fadd (itof (c.n.get s).k3) (fmul κ.wobDepth (Config.functions.sin (fmul Config.twoPi x.ph)))) .pre)
  have hz := isZero_fadd hlpz (isZero_fmul_right hlp (isZero_fsub ha3 hlpz))
  exact ⟨hpd', stringSilent_iff.2 ⟨isZero_fmul_right hfb hz, hz, hs1, hs2, hs3⟩, ha3⟩

/-! ### Frames (R208 to R211) -/

theorem isZero_inSan {w : Word} (h : isZero w = true) : isZero (inSan Config.block w) = true := by
  rw [inSan_block, if_pos (finite_of_isZero h)]
  exact h

theorem isZero_rightInput (stereo : Bool) {xl xr : F32} (hl : isZero xl = true) (hr : isZero xr = true) :
    isZero (rightInput Config.block stereo xl xr) = true := by
  rw [rightInput_block]
  split
  · exact hr
  · split
    · exact hl
    · decide

/-- A mix of zeros is a zero. -/
theorem isZero_mixBlend {dry wet m : F32} (hdry : isZero dry = true) (hwet : isZero wet = true)
    (hm : between plusZero m (lit 1 1) = true) : isZero (mixBlend Config.block dry wet m) = true := by
  obtain ⟨h0, h1⟩ := between_iff.1 hm
  obtain ⟨hfin, hlo, hhi⟩ := units_of_fle finite_plusZero finite_one h0 h1
  rw [units_plusZero] at hlo
  obtain ⟨hlo', hhi'⟩ := fsub_between finite_one hfin finite_plusZero finite_one (by rw [units_plusZero]; omega) (by omega)
  have hdryGain := finite_of_fle finite_plusZero finite_one hlo' hhi'
  rw [mixBlend_block]
  exact isZero_fadd (isZero_fmul_left hdryGain hdry) (isZero_fmul_left hfin hwet)

theorem settled_iff {x : Smoother} : settled x = true ↔ x.cnt = 0 ∧ between plusZero x.cur (lit 1 1) = true := by
  simp [settled, lit_zero]

/-- A settled smoother stays as it is. -/
theorem advanced_of_settled {x : Smoother} (h : settled x = true) : advanced Config.block x = x := by
  rw [advanced_block, if_pos (settled_iff.1 h).1]

/-- A machine is silent when both of its lanes are, its smoothers have settled and its coefficients are finite. -/
theorem silent_iff {s : State} :
    silent s = true ↔
      (∀ x, storeSilent 3 (s.pd.get x) = true ∧ stringSilent (s.str.get x) = true ∧ finite (s.coeffs.fbGain.get x) = true) ∧
        settled s.smMix = true ∧ settled s.smDrive = true ∧ finite s.coeffs.apCoeff = true ∧ finite s.coeffs.lpA = true := by
  simp only [silent, Bool.and_eq_true, forall_str, Pair.get_L, Pair.get_R]
  tauto

/-- Both lanes of a silent machine stay silent on zeros. -/
theorem laneOf_silent {s : State} (h : silent s = true) (x : Str) {xin gain : F32} (hxin : isZero xin = true)
    (hgain : between (lit 1 1) gain (lit 4 1) = true) :
    storeSilent 3 (laneOf x xin gain s).1 = true ∧ stringSilent (laneOf x xin gain s).2.1 = true ∧
      isZero (laneOf x xin gain s).2.2 = true := by
  obtain ⟨hlanes, -, -, hap, hlp⟩ := silent_iff.1 h
  obtain ⟨hpd, hstr, hfb⟩ := hlanes x
  exact laneStep_silent hpd hstr hxin hgain hap hlp hfb

/-- Settles O30: with settled smoothers the frame replaces the two lanes, which stay silent, and mixes zeros. -/
theorem silenceStaysSilent : Obligations.SilenceStaysSilent := by
  unfold Obligations.SilenceStaysSilent
  intro s f rest hs hin hl hr
  obtain ⟨hlanes, hmix, hdrive, hcoeffs⟩ := silent_iff.1 hs
  obtain ⟨-, hm⟩ := settled_iff.1 hmix
  obtain ⟨-, hd⟩ := settled_iff.1 hdrive
  have hgain := drvGain_between hd
  have hxl := isZero_inSan hl
  have hxr := isZero_inSan hr
  obtain ⟨hpdL, hstrL, hwetL⟩ := laneOf_silent hs .L hxl hgain
  obtain ⟨hpdR, hstrR, hwetR⟩ := laneOf_silent hs .R (isZero_rightInput s.seq.stereo hxl hxr) hgain
  rw [exec_frame, frameOp_eq hin, advanced_of_settled hmix, advanced_of_settled hdrive]
  refine ⟨_, _, rfl, ?silent, rfl, isZero_mixBlend hxl hwetL hm, ?right⟩
  case silent =>
    refine silent_iff.2 ⟨fun x => ?_, hmix, hdrive, hcoeffs⟩
    cases x with
    | L => exact ⟨hpdL, hstrL, (hlanes .L).2.2⟩
    | R => exact ⟨hpdR, hstrR, (hlanes .R).2.2⟩
  case right =>
    dsimp only
    split
    · exact isZero_mixBlend hxr hwetR hm
    · decide

end Sys2Proof.Machine
end

section
/-! The drive stage (R161 to R163): the ends of the gain, and how far from zero the shaper's quotient by a gain in [1, 4] can be. -/

namespace Sys2Proof.Machine

open Fp

/-! ### The gain (R161) -/

theorem drvGain_plusZero : drvGain Config.block plusZero = lit 1 1 := by
  rw [drvGain_block]
  decide +kernel

theorem drvGain_one : drvGain Config.block (lit 1 1) = lit 4 1 := by
  rw [drvGain_block]
  decide +kernel

/-- Settles O46: the operation returns `drvGain`, which keeps to [1, 4] on [0, 1] and meets both ends. -/
theorem driveGain : Obligations.DriveGain := by
  unfold Obligations.DriveGain
  refine ⟨fun s d => ?formula, fun d hd => ?range, fun s => ?zero, fun s => ?one⟩
  case formula => rw [exec_drvGain, drvGain_block]
  case range => exact drvGain_between hd
  case zero => rw [exec_drvGain, drvGain_plusZero]
  case one => rw [exec_drvGain, drvGain_one]

/-- A gain in [1, 4] is finite, positive and at least 1 in magnitude. -/
theorem gain_range {gain : F32} (h : between (lit 1 1) gain (lit 4 1) = true) :
    finite gain = true ∧ sgn gain = false ∧ isZero gain = false ∧ one149 ≤ magUnits (mag gain) := by
  obtain ⟨h1, h4⟩ := between_iff.1 h
  obtain ⟨hfin, hone, -⟩ := units_of_fle finite_one (by decide +kernel) h1 h4
  rw [units_one] at hone
  have hp := one149_pos
  have habs := natAbs_units gain
  refine ⟨hfin, sgn_of_units_pos (by omega), ?_, by omega⟩
  by_contra hz
  have := units_of_isZero (by simpa using hz)
  omega

/-! ### Magnitudes -/

theorem natAbs_key (a : F32) : (key a).natAbs = mag a := by unfold key; split <;> simp

/-- A value between `-c` and `c` has at most the magnitude of `c`. -/
theorem mag_le_of_fle_neg {a c : F32} (hlo : fle (neg c) a = true) (hhi : fle a c = true) : mag a ≤ mag c := by
  have hlow := (fle_iff.1 hlo).2.2
  have hhigh := (fle_iff.1 hhi).2.2
  rw [key_neg] at hlow
  rw [← natAbs_key, ← natAbs_key]
  omega

section
variable {a a' b : F32}

/-- A quotient does not lose magnitude when its dividend gains some. -/
theorem mag_fdiv_mono (ha : finite a = true) (ha' : finite a' = true) (hb : finite b = true) (hne : isZero b = false)
    (h : mag a ≤ mag a') : mag (fdiv a b) ≤ mag (fdiv a' b) := by
  have hpos : 0 < magUnits (mag b) := magUnits_pos (Nat.pos_of_ne_zero (by simpa [isZero] using hne)) (finite_iff.1 hb).le
  rw [fdiv_finite ha hb hne, fdiv_finite ha' hb hne, mag_rnd, mag_rnd]
  have hunits := (magUnits_le_iff (finite_iff.1 ha).le (finite_iff.1 ha').le).2 h
  exact roundUnits_mono hpos hpos (Nat.mul_le_mul_right _ (Nat.mul_le_mul_right _ hunits))

/-- A divisor of magnitude at least 1 does not lift the magnitude: the exact quotient is no greater than the dividend, which is a
value of the format. -/
theorem mag_fdiv_le (ha : finite a = true) (hb : finite b = true) (hne : isZero b = false) (hone : one149 ≤ magUnits (mag b)) :
    mag (fdiv a b) ≤ mag a := by
  rw [fdiv_finite ha hb hne, mag_rnd]
  exact roundUnits_le (one149_pos.trans_le hone) (Nat.mul_le_mul_left _ hone) (finite_iff.1 ha).le

/-! ### Products and quotients by a positive value -/

/-- A product with a finite value that is no zero is a NaN only for a NaN. -/
theorem not_isNaN_fmul (ha : isNaN a = false) (hb : finite b = true) (hne : isZero b = false) : isNaN (fmul a b) = false := by
  cases hinf : isInf a
  · have hfin : finite a = true := by
      have := not_isNaN_iff.1 ha
      simp only [isInf, decide_eq_false_iff_not] at hinf
      exact finite_iff.2 (by omega)
    rw [fmul_finite hfin hb]
    exact isNaN_rnd _ _ _
  · have hprod : fmul a b = pack (sgn a != sgn b) infMag := by
      have hzero : isZero a = false := by
        simp only [isInf, decide_eq_true_eq] at hinf
        simp [isZero, hinf]
      simp [fmul, ha, not_isNaN_of_finite hb, not_isInf_of_finite hb, hne, hinf, hzero]
    rw [hprod, not_isNaN_iff, mag_pack (by norm_num)]

/-- `+0` times a positive value is `+0`, not `-0`. -/
theorem plusZero_fmul (hb : finite b = true) (hs : sgn b = false) : fmul plusZero b = plusZero := by
  refine ext_sgn_mag ?_ ((isZero_iff.1 (isZero_fmul_left hb (by decide))).trans mag_plusZero.symm)
  rw [fmul_finite finite_plusZero hb, sgn_rnd, hs, Bool.bne_false]

/-- `+0` over a positive value is `+0`, not `-0`. -/
theorem plusZero_fdiv (hb : finite b = true) (hs : sgn b = false) (hne : isZero b = false) : fdiv plusZero b = plusZero := by
  refine ext_sgn_mag ?_ ((isZero_iff.1 (isZero_fdiv (by decide) hb hne)).trans mag_plusZero.symm)
  rw [fdiv_finite finite_plusZero hb hne, sgn_rnd, hs, Bool.bne_false]

end

/-! ### The shaped sample (R162, R163) -/

/-- `P_TANH`: `tanh` of a value that is no NaN is finite and at most 1 in magnitude. -/
theorem tanh_range {x : F32} (hx : isNaN x = false) :
    finite (Config.functions.tanh x) = true ∧ mag (Config.functions.tanh x) ≤ mag (lit 1 1) := by
  obtain ⟨hlo, hhi⟩ := Config.functions.tanh_bound x hx
  exact ⟨finite_of_fle (by simpa using finite_one) finite_one hlo hhi, mag_le_of_fle_neg hlo hhi⟩

section
variable {gain : F32} (hgain : between (lit 1 1) gain (lit 4 1) = true)
include hgain

/-- R163: the quotient of a `tanh` by the gain is no greater than that of 1 by the gain, for an infinite sample too. -/
theorem mag_drvShape_le {x : F32} (hx : isNaN x = false) : mag (drvShape Config.block x gain) ≤ mag (fdiv (lit 1 1) gain) := by
  obtain ⟨hfin, -, hne, -⟩ := gain_range hgain
  obtain ⟨htanh, hle⟩ := tanh_range (not_isNaN_fmul hx hfin hne)
  rw [drvShape_block]
  exact mag_fdiv_mono htanh finite_one hfin hne hle

theorem mag_one_fdiv_gain_le : mag (fdiv (lit 1 1) gain) ≤ mag (lit 1 1) := by
  obtain ⟨hfin, -, hne, hone⟩ := gain_range hgain
  exact mag_fdiv_le finite_one hfin hne hone

theorem drvShape_plusZero : drvShape Config.block plusZero gain = plusZero := by
  obtain ⟨hfin, hs, hne, -⟩ := gain_range hgain
  rw [drvShape_block, plusZero_fmul hfin hs, Config.functions.tanh_zero, plusZero_fdiv hfin hs hne]

end

/-- Settles O47: the operation returns `drvShape`, whose dividend is a `tanh` and whose divisor is at least 1. -/
theorem driveShapeIsBounded : Obligations.DriveShapeIsBounded := by
  unfold Obligations.DriveShapeIsBounded
  refine ⟨fun s x gain => ?formula, fun s t x gain y hx hgain hstep hy => ?bounds⟩
  case formula => rw [exec_drvShape, drvShape_block]
  case bounds =>
    rw [exec_drvShape] at hstep
    obtain rfl := Host.Outcome.next.inj hstep
    obtain rfl := List.singleton_inj.1 hy
    refine ⟨mag_drvShape_le hgain hx, mag_one_fdiv_gain_le hgain, ?_⟩
    rintro rfl
    exact drvShape_plusZero hgain

end Sys2Proof.Machine
end

section
/-! The mapper (R170 to R176, R205): what each operation writes, what a quiet latch writes, and the feedback gain as a function of the
decay time. -/

namespace Sys2Proof.Machine

open Fp

/-! ### What the operations write (R172 to R176) -/

/-- The allpass coefficient with the fraction of R172 in lowest terms. -/
theorem apCoeffOf_eq (v : F32) :
    apCoeffOf Config.block v = clamp (fadd (lit 3 10) (fmul v (lit 45 100))) (lit 2 10) (lit 8 10) := by
  have hlit : lit 30 100 = lit 3 10 := by decide +kernel
  rw [apCoeffOf_block, hlit]

/-- Settles O49: each operation writes its one register, and the clamp keeps to its bounds whatever it is given. -/
theorem mapApAndFbStayInRange : Obligations.MapApAndFbStayInRange := by
  unfold Obligations.MapApAndFbStayInRange
  intro s x v
  rw [← apCoeffOf_eq, ← fbGainOf_block]
  exact ⟨⟨exec_mapAp v s, between_apCoeffOf v⟩, exec_mapFb x v s, between_fbGainOf x v⟩

/-- Settles O51: each operation writes its own registers, and the whole part of a value clamped below `PD_MAX` is at most `PD_MAX`. -/
theorem mapLpWobPdWriteTheirRegisters : Obligations.MapLpWobPdWriteTheirRegisters := by
  unfold Obligations.MapLpWobPdWriteTheirRegisters
  intro s v
  rw [← lpCutOf_block]
  exact ⟨exec_mapLp v s, exec_mapWob v s, pdNOf Config.block v s.consts.fs s.consts.pdMax, exec_mapPd v s, pdNOf_block _ _ _,
    fun hfits => pdNOf_le _ _ hfits⟩

/-! ### The latch (R205) -/

/-- A new target does not move the current value (R193). -/
theorem retargeted_cur (nr : Nat) (v : F32) (x : Smoother) : (retargeted Config.block nr v x).cur = x.cur := by
  rw [retargeted_block]; split <;> rfl

/-- With nothing landing meanwhile the latch clamps the parameter registers themselves (R171). -/
theorem clampParam_snapshot_of_quiet {s : State} (hquiet : s.racing = []) :
    clampParam Config.block .tension (snapshot s .tension) = clamp s.host.pTension plusZero (lit 1 1) ∧
      clampParam Config.block .damping (snapshot s .damping) = clamp s.host.pDamping plusZero (lit 1 1) ∧
      clampParam Config.block .decay (snapshot s .decay) = clamp s.host.pDecay (lit 1 10) (lit 8 1) ∧
      clampParam Config.block .wobble (snapshot s .wobble) = clamp s.host.pWobble plusZero (lit 1 1) ∧
      clampParam Config.block .predelay (snapshot s .predelay) = clamp s.host.pPredelay plusZero (lit 100 1) := by
  simp only [snapshot_of_nil hquiet, HostRegs.param, clampParam_block, paramLow, paramHigh, block_lit, lit_zero, and_self]

/-- Settles O22: a quiet latch is the mapper's formulas on the clamped registers. -/
theorem latchDerivesCoefficients : Obligations.LatchDerivesCoefficients := by
  unfold Obligations.LatchDerivesCoefficients
  intro s hquiet
  obtain ⟨htension, hdamping, hdecay, hwobble, hpredelay⟩ := clampParam_snapshot_of_quiet hquiet
  refine ⟨latch Config.block s, exec_blkLatch s, ?_⟩
  rw [latch_eq, landRacing_of_nil hquiet, htension, hdamping, hdecay, hwobble, hpredelay, ← lit_zero]
  exact ⟨apCoeffOf_eq _, lpCutOf_block _, rfl, forall_str.2 ⟨fbGainOf_block .L _, fbGainOf_block .R _⟩, rfl, pdNOf_block _ _ _,
    retargeted_cur _ _ _, retargeted_cur _ _ _, rfl⟩

/-! ### The order of clamps and quotients -/

/-- The clamp does not fall when its operand grows (R14). -/
theorem clamp_mono {x y lo hi : F32} (hbounds : fle lo hi = true) (h : fle x y = true) :
    fle (clamp x lo hi) (clamp y lo hi) = true := by
  obtain ⟨hx, hy, -⟩ := fle_iff.1 h
  obtain ⟨hlo, hhi, -⟩ := fle_iff.1 hbounds
  by_cases hlow : flt x lo = true
  · rw [clamp_of_flt_low hi hlow]
    exact (clamp_between hbounds).1
  by_cases hhigh : flt hi y = true
  · rw [clamp_of_high_flt hbounds hhigh]
    exact (clamp_between hbounds).2
  have hlox := fle_of_not_flt hx hlo hlow
  have hyhi := fle_of_not_flt hhi hy hhigh
  rwa [clamp_of_between hlox (fle_trans h hyhi), clamp_of_between (fle_trans hlox h) hyhi]

/-- A negative value over a positive one does not fall when the divisor grows. -/
theorem fdiv_mono_divisor {a b b' : F32} (ha : finite a = true) (hneg : sgn a = true) (hb : finite b = true)
    (hb' : finite b' = true) (hpos : 0 < units b) (h : units b ≤ units b') : fle (fdiv a b) (fdiv a b') = true := by
  have hpos' := hpos.trans_le h
  have hmag : magUnits (mag b) ≤ magUnits (mag b') := by
    have := natAbs_units b; have := natAbs_units b'; omega
  have hmagPos : 0 < magUnits (mag b) := by have := natAbs_units b; omega
  have hne {c : F32} (hc : 0 < units c) : isZero c = false := by
    by_contra hz
    exact hc.ne' (units_of_isZero (by simpa using hz))
  have hr := roundUnits_mono (p := 23) (top := infMag) (hmagPos.trans_le hmag) hmagPos
    (Nat.mul_le_mul_left (magUnits (mag a) * one149) hmag)
  rw [fdiv_finite ha hb (hne hpos), fdiv_finite ha hb' (hne hpos'), hneg, sgn_of_units_pos hpos, sgn_of_units_pos hpos']
  refine fle_iff.2 ⟨isNaN_rnd _ _ _, isNaN_rnd _ _ _, ?_⟩
  simpa [key] using hr

/-! ### The loop time (R8, R25) -/

/-- A value in (0, n]. -/
structure PositiveUpTo (n : Nat) (a : F32) : Prop where
  finite : finite a = true
  pos : 0 < units a
  le : units a ≤ n * one149

/-- Each base delay is at most a second. -/
theorem positiveUpTo_base (x : Str) (k : Stage) : PositiveUpTo 1 (Config.tuning.base x k) := by
  have hpos := units_base_pos x k
  refine ⟨(Config.tuning.base_pos x k).1, hpos, ?_⟩
  have hmag := magUnits_mono (mag_base_le x k) (by decide +kernel)
  have hone : magUnits 0x3EAD374B ≤ one149 := by decide +kernel
  have := natAbs_units (Config.tuning.base x k)
  omega

/-- A sum of positive values is no less than the first and no greater than a whole number that the exact sum does not exceed. -/
theorem PositiveUpTo.fadd {a b : F32} {m n : Nat} (ha : PositiveUpTo m a) (hb : PositiveUpTo n b) (hfits : m + n < 2 ^ 24) :
    PositiveUpTo (m + n) (fadd a b) := by
  have hlow : units a ≤ units a + units b := by have := hb.pos; omega
  have hhigh : units a + units b ≤ units (itof (m + n)) := by
    rw [units_itof hfits]; push_cast; linarith [ha.le, hb.le]
  obtain ⟨h1, h2⟩ := fadd_between ha.finite hb.finite ha.finite (finite_itof hfits) hlow hhigh
  obtain ⟨hfin, hge, hle⟩ := units_of_fle ha.finite (finite_itof hfits) h1 h2
  exact ⟨hfin, ha.pos.trans_le hge, units_itof hfits ▸ hle⟩

theorem positiveUpTo_loopTime (x : Str) : PositiveUpTo 3 (Config.loopTime x) :=
  ((positiveUpTo_base x .k1).fadd (positiveUpTo_base x .k2) (by norm_num)).fadd (positiveUpTo_base x .k3) (by norm_num)

/-! ### The feedback gain (R173) -/

/-- The dividend `-3 * loopT[x]` of the exponent. -/
def decayDividend (x : Str) : F32 := fmul (neg (lit 3 1)) (Config.loopTime x)

/-- The exponent of the feedback gain for a decay time. -/
def decayExponent (x : Str) (v : F32) : F32 := fdiv (decayDividend x) v

theorem fbGainOf_eq_decayExponent (x : Str) (v : F32) :
    fbGainOf Config.block x v = clamp (Config.functions.pow10 (decayExponent x v)) (lit 0 1) (lit 95 100) :=
  fbGainOf_block x v

/-- The dividend is in [-9, 0] and carries a minus sign. -/
theorem decayDividend_range (x : Str) :
    finite (decayDividend x) = true ∧ sgn (decayDividend x) = true ∧
      -(9 * one149 : Int) ≤ units (decayDividend x) ∧ units (decayDividend x) ≤ 0 := by
  obtain ⟨hfin, hpos, hle⟩ := positiveUpTo_loopTime x
  push_cast at hle
  have hp : (0 : Int) < one149 := by exact_mod_cast one149_pos
  have fThree : finite (neg (lit 3 1)) = true := by decide +kernel
  have uThree : units (neg (lit 3 1)) = -3 * one149 := by decide +kernel
  have fNine : finite (neg (lit 9 1)) = true := by decide +kernel
  have uNine : units (neg (lit 9 1)) = -(9 * one149 : Int) := by decide +kernel
  have sThree : sgn (neg (lit 3 1)) = true := by decide +kernel
  obtain ⟨h1, h2⟩ := fmul_between fThree hfin fNine finite_plusZero (by rw [uNine, uThree]; nlinarith)
    (by rw [uThree, units_plusZero]; nlinarith)
  obtain ⟨hf, hlo, hhi⟩ := units_of_fle fNine finite_plusZero h1 h2
  refine ⟨hf, ?_, uNine ▸ hlo, units_plusZero ▸ hhi⟩
  rw [decayDividend, fmul_finite fThree hfin, sgn_rnd, sThree, sgn_of_units_pos hpos, Bool.bne_false]

/-- A decay time in its domain is positive and at least a tenth. -/
theorem units_of_decay {v : F32} (h : between (lit 1 10) v (lit 8 1) = true) :
    finite v = true ∧ 0 < units v ∧ units (lit 1 10) ≤ units v := by
  obtain ⟨h1, h2⟩ := between_iff.1 h
  obtain ⟨hfin, hlo, -⟩ := units_of_fle (by decide +kernel) (by decide +kernel) h1 h2
  have htenth : 0 < units (lit 1 10) := by decide +kernel
  exact ⟨hfin, htenth.trans_le hlo, hlo⟩

/-- For a decay time in its domain the exponent does not overflow: it is at least -9 over a tenth. -/
theorem finite_decayExponent (x : Str) {v : F32} (h : between (lit 1 10) v (lit 8 1) = true) :
    finite (decayExponent x v) = true := by
  obtain ⟨hfin, hpos, htenth⟩ := units_of_decay h
  obtain ⟨hdfin, -, hdlo, hdhi⟩ := decayDividend_range x
  have hp : (0 : Int) < one149 := by exact_mod_cast one149_pos
  have f128 : finite (neg (lit 128 1)) = true := by decide +kernel
  have u128 : units (neg (lit 128 1)) = -128 * one149 := by decide +kernel
  have hq : 9 * (one149 : Int) ≤ 128 * units (lit 1 10) := by decide +kernel
  obtain ⟨h1, h2⟩ := fdiv_between hdfin hfin hpos f128 finite_plusZero (by rw [u128]; nlinarith)
    (by rw [units_plusZero]; nlinarith)
  exact finite_of_fle f128 finite_plusZero h1 h2

/-- R173: a longer decay never lowers the feedback gain: the exponent does not fall, nor does `pow10` (`P_POW10`), nor the clamp. -/
theorem fbGainOf_mono (x : Str) {v v' : F32} (hv : between (lit 1 10) v (lit 8 1) = true)
    (hv' : between (lit 1 10) v' (lit 8 1) = true) (h : fle v v' = true) :
    fle (fbGainOf Config.block x v) (fbGainOf Config.block x v') = true := by
  obtain ⟨hfin, hpos, -⟩ := units_of_decay hv
  obtain ⟨hfin', -, -⟩ := units_of_decay hv'
  obtain ⟨hdfin, hneg, -⟩ := decayDividend_range x
  have hexponent : fle (decayExponent x v) (decayExponent x v') = true :=
    fdiv_mono_divisor hdfin hneg hfin hfin' hpos ((units_le_iff hfin hfin').2 (fle_iff.1 h).2.2)
  rw [fbGainOf_eq_decayExponent, fbGainOf_eq_decayExponent]
  exact clamp_mono (by decide +kernel)
    (Config.functions.pow10_mono _ _ (finite_decayExponent x hv) (finite_decayExponent x hv') hexponent)

/-- Settles O50: the register written is the string's own, and the gain written does not fall with the decay time. -/
theorem longerDecayNeverLowersFeedback : Obligations.LongerDecayNeverLowersFeedback := by
  unfold Obligations.LongerDecayNeverLowersFeedback
  intro s t t' x v v' hv hv' hle ht ht'
  rw [exec_mapFb, next_inj] at ht ht'
  rw [← ht, ← ht', mapFb, mapFb, Pair.get_set_self, Pair.get_set_self]
  exact fbGainOf_mono x hv hv' hle

end Sys2Proof.Machine
end

section
/-! The smoothers (R190 to R196): the cases of a new target and of the next value, and the ramp as a countdown: each next value takes
one sample off, and a ramp with none left rests on its target. -/

namespace Sys2Proof.Machine

open Fp

/-! ### A new target (R193) -/

theorem retargeted_of_feq {v : F32} {x : Smoother} (h : feq v x.tgt = true) (nr : Nat) : retargeted Config.block nr v x = x := by
  rw [retargeted_block, if_pos h]

theorem retargeted_of_not_feq {v : F32} {x : Smoother} (h : feq v x.tgt = false) (nr : Nat) :
    retargeted Config.block nr v x = { cur := x.cur, tgt := v, step := fdiv (fsub v x.cur) (itof nr), cnt := nr } := by
  rw [retargeted_block, if_neg (Bool.eq_false_iff.1 h)]

/-- Settles O52: seeding is `seeded`, and the two cases of a target set are those of `retargeted`. -/
theorem smootherSeedAndSet : Obligations.SmootherSeedAndSet := by
  unfold Obligations.SmootherSeedAndSet
  intro s p v
  refine ⟨?seed, fun heq => ?same, fun hne => ?other⟩
  case seed => rw [exec_smSeed, seeded_eq]
  case same => rw [exec_smSet, retargeted_of_feq heq, State.setSmoother_smoother_self]
  case other => rw [exec_smSet, retargeted_of_not_feq hne]

/-! ### The next value (R194) -/

theorem advanced_of_cnt_zero {x : Smoother} (h : x.cnt = 0) : advanced Config.block x = x := by
  rw [advanced_block, if_pos h]

theorem advanced_of_cnt_one {x : Smoother} (h : x.cnt = 1) : advanced Config.block x = { x with cnt := 0, cur := x.tgt } := by
  rw [advanced_block, h, if_neg one_ne_zero, if_pos (Nat.sub_self 1)]

theorem advanced_of_cnt_add_two {x : Smoother} {n : Nat} (h : x.cnt = n + 2) :
    advanced Config.block x = { x with cnt := n + 1, cur := fadd x.cur x.step } := by
  rw [advanced_block, h, if_neg (Nat.succ_ne_zero _), Nat.add_sub_cancel (n + 1) 1, if_neg (Nat.succ_ne_zero n)]

/-- Settles O53: the three cases of the countdown are those of `advanced`. -/
theorem smootherNext : Obligations.SmootherNext := by
  unfold Obligations.SmootherNext
  intro s p
  refine ⟨fun hsettled => ?settled, fun hlast => ?last, fun n hmore => ?more⟩
  case settled => rw [exec_smNext, advanced_of_cnt_zero hsettled, State.setSmoother_smoother_self]
  case last => rw [exec_smNext, advanced_of_cnt_one hlast]
  case more => rw [exec_smNext, advanced_of_cnt_add_two hmore]

/-! ### A whole ramp (R194, R196) -/

/-- A smoother with `n` samples to go to the target `v`; with none left it rests there. -/
structure RampTo (v : F32) (n : Nat) (x : Smoother) : Prop where
  tgt : x.tgt = v
  cnt : x.cnt = n
  cur : n = 0 → x.cur = v

theorem rampTo_retargeted {nr : Nat} (hnr : 1 ≤ nr) {v : F32} {x : Smoother} (h : feq v x.tgt = false) :
    RampTo v nr (retargeted Config.block nr v x) := by
  rw [retargeted_of_not_feq h]
  exact ⟨rfl, rfl, fun h0 => absurd h0 (Nat.one_le_iff_ne_zero.1 hnr)⟩

/-- The next value takes one sample off; the last sample assigns the target, so what the additions rounded before does not matter. -/
theorem RampTo.advanced {v : F32} {n : Nat} {x : Smoother} (h : RampTo v n x) : RampTo v (n - 1) (advanced Config.block x) := by
  obtain ⟨htgt, hcnt, hcur⟩ := h
  match n with
  | 0 => rw [advanced_of_cnt_zero hcnt]; exact ⟨htgt, hcnt, hcur⟩
  | 1 => rw [advanced_of_cnt_one hcnt]; exact ⟨htgt, rfl, fun _ => htgt⟩
  | n + 2 => rw [advanced_of_cnt_add_two hcnt]; exact ⟨htgt, rfl, fun h0 => absurd h0 (Nat.succ_ne_zero n)⟩

theorem RampTo.iterate_advanced {v : F32} {n : Nat} {x : Smoother} (h : RampTo v n x) (m : Nat) :
    RampTo v (n - m) ((Machine.advanced Config.block)^[m] x) := by
  induction m with
  | zero => exact h
  | succ m ih => rw [Function.iterate_succ_apply']; exact ih.advanced

@[simp] theorem State.withResult_smoother (s : State) (vs : List F32) (p : SmootherId) :
    (s.withResult vs).smoother p = s.smoother p := by
  cases p <;> rfl

@[simp] theorem State.withResult_setSmoother (s : State) (vs : List F32) (p : SmootherId) (x : Smoother) :
    (s.withResult vs).setSmoother p x = (s.setSmoother p x).withResult vs := by
  cases p <;> rfl

/-- Calls of `SM.NEXT` in a row, run as instructions; the last one's value is what they leave. -/
theorem execAll_smNext (p : SmootherId) (m : Nat) (s : State) :
    execAll (List.replicate (m + 1) (.smNext p)) s =
      some ((s.setSmoother p ((advanced Config.block)^[m + 1] (s.smoother p))).withResult
        [((advanced Config.block)^[m + 1] (s.smoother p)).cur]) := by
  induction m generalizing s with
  | zero => simp only [List.replicate, execAll, exec_smNext, Function.iterate_one, zero_add]
  | succ m ih =>
    rw [List.replicate_succ, execAll, exec_smNext]
    dsimp only
    rw [ih, State.withResult_smoother, State.smoother_setSmoother_self, State.withResult_setSmoother,
      State.setSmoother_setSmoother, State.withResult_withResult, ← Function.iterate_succ_apply]

/-- Settles O54: the target set starts a ramp of `NR` samples, and at least `NR` calls leave it none to go. -/
theorem rampArrivesExactly : Obligations.RampArrivesExactly := by
  unfold Obligations.RampArrivesExactly
  intro s p v extra hnr hne
  obtain ⟨m, hm⟩ : ∃ m, s.consts.nr + extra = m + 1 := Nat.exists_eq_add_one.2 (by omega)
  have hramp := (rampTo_retargeted hnr hne).iterate_advanced (m + 1)
  rw [← hm, Nat.sub_eq_zero_of_le (Nat.le_add_right _ extra), hm] at hramp
  obtain ⟨htgt, hcnt, hcur⟩ := hramp
  rw [hm, execAll, exec_smSet]
  dsimp only
  rw [execAll_smNext, State.smoother_setSmoother_self, State.setSmoother_setSmoother]
  refine ⟨_, rfl, ?_⟩
  rw [State.withResult_result, State.withResult_smoother, State.smoother_setSmoother_self]
  exact ⟨by rw [hcur rfl], hcur rfl, htgt, hcnt⟩

end Sys2Proof.Machine
end

section
/-! What a frame does with its words (R206, R208, R209, R211): the sanitised input, the blend and its end points, the frame of a bypass
block and the right channel of a mono one. -/

namespace Sys2Proof.Machine

open Fp

/-! ### Input words (R208) -/

/-- Settles O55: the two cases are those of `inSan`. -/
theorem inputIsSanitised : Obligations.InputIsSanitised := by
  unfold Obligations.InputIsSanitised
  intro s w
  rw [exec_inSan, inSan_block]
  exact ⟨fun hfin => by rw [if_pos hfin], fun hnot => by rw [if_neg (Bool.eq_false_iff.1 hnot)]⟩

/-! ### The blend (R209) -/

theorem feq_of_fle_of_fle {a b : F32} (h : fle a b = true) (h' : fle b a = true) : feq a b = true := by
  obtain ⟨ha, hb, hle⟩ := fle_iff.1 h
  exact feq_iff.2 ⟨ha, hb, le_antisymm hle (fle_iff.1 h').2.2⟩

/-- Adding a zero on the right changes no finite value; it may change the sign of a zero. -/
theorem feq_fadd_of_isZero_right {a z : F32} (ha : finite a = true) (hz : isZero z = true) : feq (fadd a z) a = true := by
  have hsum : units a + units z = units a := by rw [units_of_isZero hz, add_zero]
  obtain ⟨hlo, hhi⟩ := fadd_between ha (finite_of_isZero hz) ha ha hsum.ge hsum.le
  exact feq_of_fle_of_fle hhi hlo

/-- The same on the left. -/
theorem feq_fadd_of_isZero_left {z a : F32} (hz : isZero z = true) (ha : finite a = true) : feq (fadd z a) a = true := by
  have hsum : units z + units a = units a := by rw [units_of_isZero hz, zero_add]
  obtain ⟨hlo, hhi⟩ := fadd_between (finite_of_isZero hz) ha ha ha hsum.ge hsum.le
  exact feq_of_fle_of_fle hhi hlo

theorem fsub_one_plusZero : fsub (lit 1 1) plusZero = lit 1 1 := by decide +kernel

theorem isZero_fsub_one_one : isZero (fsub (lit 1 1) (lit 1 1)) = true := by decide +kernel

theorem mixBlend_plusZero {dry wet : F32} (hdry : finite dry = true) (hwet : finite wet = true) :
    feq (mixBlend Config.block dry wet plusZero) dry = true := by
  rw [mixBlend_block, fsub_one_plusZero, fmul_one hdry]
  exact feq_fadd_of_isZero_right hdry (isZero_fmul_right hwet (by decide))

theorem mixBlend_one {dry wet : F32} (hdry : finite dry = true) (hwet : finite wet = true) :
    feq (mixBlend Config.block dry wet (lit 1 1)) wet = true := by
  rw [mixBlend_block, fmul_one hwet]
  exact feq_fadd_of_isZero_left (isZero_fmul_right hdry isZero_fsub_one_one) hwet

/-- Settles O56: at each end point one factor is 1, whose product is exact, and the other a zero, which adds nothing. -/
theorem mixBlendEndPoints : Obligations.MixBlendEndPoints := by
  unfold Obligations.MixBlendEndPoints
  have result {s t : State} {dry wet m y : F32} (ht : exec (.mixBlend dry wet m) s = .next t) (hy : t.result = [y]) :
      y = mixBlend Config.block dry wet m := by
    rw [exec_mixBlend, next_inj] at ht
    rw [← ht, State.withResult_result] at hy
    exact (List.singleton_inj.1 hy).symm
  constructor
  · intro s dry wet m
    rw [exec_mixBlend, mixBlend_block]
  · intro s t dry wet y hdry hwet
    constructor <;> intro ht hy <;> rw [result ht hy]
    · exact mixBlend_plusZero hdry hwet
    · exact mixBlend_one hdry hwet

/-! ### The frame of a bypass block (R206) -/

theorem bypassFrame_eq {s : State} {f : Frame} {rest : List Frame} (h : s.inQ = f :: rest) :
    bypassFrame s =
      { s with
        inQ := rest
        outQ := s.outQ ++ [if s.seq.stereo then f else { l := f.l, r := 0x00000000#32 }] } := by
  unfold bypassFrame
  rw [h]
  cases s.seq.stereo <;> rfl

/-- Settles O9: the turn is the bypass frame and the count. -/
theorem bypassFrameCopiesInput : Obligations.BypassFrameCopiesInput := by
  unfold Obligations.BypassFrameCopiesInput
  intro s f rest hrun hbypass hframes hin hagenda
  have hturn : datapathTurn Config.block s = countFrame (bypassFrame s) := by
    simp [datapathTurn, hrun, hbypass, hframes, hin]
  rw [step_idle hagenda, hturn, countFrame, bypassFrame_seq, pred_bne_zero, bypassFrame_eq hin]

/-! ### The right channel of a mono block (R211) -/

/-- A mono frame is the same whatever its right input word: it reaches neither the right string nor the right output. -/
theorem frameOp_mono_congr {s : State} (hmono : s.seq.stereo = false) {f f' : Frame} {rest : List Frame} (hin : s.inQ = f :: rest)
    (hl : f'.l = f.l) : frameOp Config.block { s with inQ := f' :: rest } = frameOp Config.block s := by
  rw [frameOp_eq (σ := { s with inQ := f' :: rest }) rfl, frameOp_eq hin]
  simp only [hmono, rightInput_block, hl, Bool.false_eq_true, if_false]

theorem frameOp_outQ_mono {s : State} (hmono : s.seq.stereo = false) {f : Frame} {rest : List Frame} (hin : s.inQ = f :: rest) :
    ∃ o : Word, (frameOp Config.block s).outQ = s.outQ ++ [{ l := o, r := 0x00000000#32 }] := by
  rw [frameOp_eq hin, hmono]
  exact ⟨_, rfl⟩

/-- A frame moves the cursor of each pre-delay store on by one, in a mono block too. -/
theorem frameOp_preDelay_wr {s : State} {f : Frame} {rest : List Frame} (hin : s.inQ = f :: rest) (c : Chan) :
    ((frameOp Config.block s).store (.pd c)).wr = ((s.store (.pd c)).wr + 1) % (s.store (.pd c)).cap := by
  rw [frameOp_eq hin]
  cases c <;> rfl

/-- Settles O28: no part of a mono frame's closed form holds the right input word, and its right output is `+0`. -/
theorem monoBlockIgnoresRightInput : Obligations.MonoBlockIgnoresRightInput := by
  unfold Obligations.MonoBlockIgnoresRightInput
  intro s t l r r' rest hmono hin ht
  rw [exec_frame, next_inj] at ht
  subst ht
  refine ⟨?_, frameOp_outQ_mono hmono hin, frameOp_preDelay_wr hin .c1⟩
  rw [exec_frame, frameOp_mono_congr (f' := { l := l, r := r' }) hmono hin rfl]

end Sys2Proof.Machine
end

section
/-! `PREPARE` and `RESET` (R202, R203): the constants, stores and strings they leave, and why each issued twice is as once. -/

namespace Sys2Proof.Machine

open Fp

/-! ### What `PREPARE` leaves (R202) -/

/-- The sample rate is read from its two words, high word first (R62). -/
theorem sampleRate_eq (h : HostRegs) :
    sampleRate Config.block h =
      clamp (cvt64 (BitVec.ofNat 64 (h.fsHi.toNat * 2 ^ 32 + h.fsLo.toNat))) (lit 8000 1) (lit 192000 1) := by
  have hword : sampleRateWord h = BitVec.ofNat 64 (h.fsHi.toNat * 2 ^ 32 + h.fsLo.toNat) := by
    apply BitVec.eq_of_toNat_eq
    have hlo := h.fsLo.isLt
    have hhi := h.fsHi.isLt
    rw [sampleRateWord, BitVec.toNat_append, ← Nat.shiftLeft_add_eq_or_of_lt hlo, Nat.shiftLeft_eq, BitVec.toNat_ofNat,
      Nat.mod_eq_of_lt (by omega)]
  rw [sampleRate_block, hword]
  rfl

theorem constantsFor_n (fs : F32) (x : Str) (k : Stage) :
    ((constantsFor Config.block fs).n.get x).get k = max 1 (floorI (fmul (Config.tuning.base x k) fs)) := by
  rw [← baseDelays_get]; cases x <;> rfl

theorem constantsFor_inc (fs : F32) (x : Str) : (constantsFor Config.block fs).inc.get x = fdiv (Config.tuning.rate x) fs := by
  rw [constantsFor_block]; cases x <;> rfl

/-- The stores `PREPARE` leaves are those its constants size. -/
theorem prepareAll_store (σ : State) (id : StoreId) :
    (prepareAll Config.block σ).store id = preparedStore (prepareAll Config.block σ).consts id := by
  rw [prepareAll_eq]
  generalize constantsFor Config.block (sampleRate Config.block σ.host) = c
  revert id
  exact forall_storeId rfl rfl rfl rfl rfl rfl rfl rfl

/-- A store sized by `PREPARE` has its cursor at 0 and every cell cleared. -/
theorem preparedStore_cleared (c : Constants) (id : StoreId) :
    (preparedStore c id).wr = 0 ∧ ∀ a, Memory.read (preparedStore c id).cells a = plusZero := by
  revert id
  apply forall_storeId <;> exact ⟨rfl, Memory.read_nil⟩

/-- The recurrent values of a string are all `+0`, as `PREPARE` and `RESET` leave them. -/
structure Quieted (x : StringState) : Prop where
  fb : x.fb = plusZero
  lpz : x.lpz = plusZero
  ph : x.ph = plusZero

theorem quieted_prepareAll (σ : State) (x : Str) : Quieted ((prepareAll Config.block σ).str.get x) := by
  rw [prepareAll_eq]; cases x <;> exact ⟨rfl, rfl, rfl⟩

/-- Settles O16: `PREPARE` is one update of the machine, and each part it sets has its formula. -/
theorem prepareSizesAndClears : Obligations.PrepareSizesAndClears := by
  unfold Obligations.PrepareSizesAndClears
  intro s hidle
  refine ⟨prepareAll Config.block s, by rw [exec_prepare, accept_idle _ hidle], ?constants, fun c => ?line,
    fun x => ⟨?stage1, ?stage2, ?stage3⟩, fun id => ?cleared, fun x => ?quieted, ?mix, ?drive, rfl, ?frame⟩
  case constants =>
    rw [prepareAll_consts, ← sampleRate_eq]
    refine ⟨rfl, ?_, ?_, ?_, constantsFor_n _, constantsFor_inc _⟩ <;> rw [constantsFor_block]
  case line => exact prepareAll_cap s (.pd c)
  case stage1 => exact prepareAll_cap s (.ap x .k1)
  case stage2 => exact prepareAll_cap s (.ap x .k2)
  case stage3 => exact prepareAll_cap s (.ap x .k3)
  case cleared =>
    rw [prepareAll_store]
    obtain ⟨hwr, hcells⟩ := preparedStore_cleared (prepareAll Config.block s).consts id
    exact fun a => ⟨hwr, hcells a⟩
  case quieted =>
    obtain ⟨hfb, hlpz, hph⟩ := quieted_prepareAll s x
    exact ⟨hfb, hlpz, hph⟩
  case mix => rw [← clampParam_mix, ← seeded_eq, prepareAll_eq]
  case drive => rw [← clampParam_drive, ← seeded_eq, prepareAll_eq]
  case frame => rw [prepareAll_eq]

/-! ### `PREPARE` forgets the past (R202, R250) -/

/-- What `PREPARE` sets it computes from the host registers alone. -/
theorem prepareAll_sameSignalState {σ τ : State} (h : σ.host = τ.host) :
    sameSignalState (prepareAll Config.block σ) (prepareAll Config.block τ) := by
  rw [prepareAll_eq, prepareAll_eq, h]
  exact ⟨rfl, rfl, rfl, rfl, rfl, rfl⟩

theorem prepareAll_prepareAll (σ : State) : prepareAll Config.block (prepareAll Config.block σ) = prepareAll Config.block σ := by
  rw [prepareAll_eq (prepareAll Config.block σ), prepareAll_eq σ]

/-- Settles O17: `PREPARE` overwrites all it sets with functions of the host registers, which it keeps. -/
theorem prepareForgetsThePast : Obligations.PrepareForgetsThePast := by
  unfold Obligations.PrepareForgetsThePast
  intro s s' t t' hhost ht ht'
  rw [exec_prepare, accept_eq_next, next_inj] at ht ht'
  obtain ⟨hidle, rfl⟩ := ht
  obtain ⟨-, rfl⟩ := ht'
  refine ⟨prepareAll_sameSignalState hhost, ?_⟩
  have hidle' : (prepareAll Config.block s).seq.run = false := by rw [prepareAll_eq]; exact hidle
  rw [exec_prepare, accept_idle _ hidle', prepareAll_prepareAll]

/-! ### `RESET` (R203) -/

theorem resetAll_of_not_prep {σ : State} (h : σ.prep = false) : resetAll Config.block σ = σ := by
  simp [resetAll, h]

theorem resetAll_store {σ : State} (h : σ.prep = true) (id : StoreId) :
    (resetAll Config.block σ).store id = storeReset (σ.store id) := by
  rw [resetAll_eq h]
  revert id
  exact forall_storeId rfl rfl rfl rfl rfl rfl rfl rfl

theorem quieted_resetAll {σ : State} (h : σ.prep = true) (x : Str) : Quieted ((resetAll Config.block σ).str.get x) := by
  rw [resetAll_eq h]; cases x <;> exact ⟨rfl, rfl, rfl⟩

theorem clearedString_clearedString (x : StringState) : clearedString (clearedString x) = clearedString x := rfl

theorem resetAll_resetAll {σ : State} (h : σ.prep = true) :
    resetAll Config.block (resetAll Config.block σ) = resetAll Config.block σ := by
  have hprep : (resetAll Config.block σ).prep = true := by rw [resetAll_eq h]; exact h
  rw [resetAll_eq hprep, resetAll_eq h]
  simp only [storeReset_storeReset, clearedString_clearedString]

/-- Settles O19: `RESET` after a `PREPARE` is one update of the machine, made of operations that done twice are as done once. -/
theorem resetClearsSignalState : Obligations.ResetClearsSignalState := by
  unfold Obligations.ResetClearsSignalState
  intro s hidle
  have hreset : exec .reset s = .next (resetAll Config.block s) := by rw [exec_reset, accept_idle _ hidle]
  refine ⟨fun hprep => by rw [hreset, resetAll_of_not_prep hprep], fun hprep =>
    ⟨resetAll Config.block s, hreset, fun id a => ?cleared, fun x => ?quieted, ?mix, ?drive, ?frame, ?again⟩⟩
  case cleared => rw [resetAll_store hprep]; exact ⟨rfl, rfl, Memory.read_nil a⟩
  case quieted =>
    obtain ⟨hfb, hlpz, hph⟩ := quieted_resetAll hprep x
    exact ⟨hfb, hlpz, hph⟩
  case mix => rw [← clampParam_mix, ← seeded_eq, resetAll_eq hprep]
  case drive => rw [← clampParam_drive, ← seeded_eq, resetAll_eq hprep]
  case frame => rw [resetAll_eq hprep]
  case again =>
    have hidle' : (resetAll Config.block s).seq.run = false := by rw [resetAll_eq hprep]; exact hidle
    rw [exec_reset, accept_idle _ hidle', resetAll_resetAll hprep]

end Sys2Proof.Machine
end

section
/-! Blocks (R204, R262, R264): a `PROCESS` opens a block and leaves its frames to as many turns, and a block that is opened where
another ended, with the same parameters, opens nothing new. -/

namespace Sys2Proof.Machine

open Fp

/-! ### Commands (R204, R260) -/

/-- Settles O15: whichever command the word is, it is not accepted. -/
theorem commandWhileRunningRefused : Obligations.CommandWhileRunningRefused := by
  unfold Obligations.CommandWhileRunningRefused
  intro s w rest ha hrun
  have hrun' : ({ s with agenda := rest } : State).seq.run = true := hrun
  rw [step_event ha, runEvent_command]
  obtain e | e | e | ⟨stereo, n, e⟩ := decodeCommand_cases w <;> rw [e]
  · rw [exec_nop, accept_running _ hrun']
  · rw [exec_prepare, accept_running _ hrun']
  · rw [exec_reset, accept_running _ hrun']
  · rw [exec_process, accept_running _ hrun']

theorem exec_process_idle {s : State} (h : s.seq.run = false) (stereo : Bool) (n : BitVec 16) :
    exec (.process stereo n) s = .next (startBlock Config.block stereo n s) := by
  rw [exec_process, accept_idle _ h]

/-- Settles O21: the acceptance latches a prepared machine and sets the sequencer up. -/
theorem processAcceptsABlock : Obligations.ProcessAcceptsABlock := by
  unfold Obligations.ProcessAcceptsABlock
  intro s stereo n hidle
  rw [exec_process_idle hidle, startBlock_eq]
  refine ⟨fun hprep => ?bypass, fun hprep => ⟨_, exec_blkLatch s, ?prepared⟩⟩
  case bypass => simp [hprep]
  case prepared => simp [hprep]

/-! ### The frames of a block

A block of `n` frames is the machine with the block open and `n` frames to go; each turn makes a frame, which does not see how many
are left. -/

/-- The machine with `n` frames left in its block, which runs unless there is none. -/
def State.withFrames (σ : State) (n : BitVec 16) : State := { σ with seq := { σ.seq with frames := n, run := n != 0#16 } }

/-- A block opened and no frame of it made: the latch of a prepared machine, and the mode (R204, R205). -/
def openBlock (stereo : Bool) (σ : State) : State :=
  { (if σ.prep then latch Config.block σ else σ) with
    seq := { run := false, frames := 0#16, stereo := stereo, bypass := !σ.prep } }

/-- A frame of the block that is open, rendered or bypassed. -/
def blockFrame (σ : State) : State := if σ.seq.bypass then bypassFrame σ else frameOp Config.block σ

/-- What a whole block of `n` frames makes of an idle machine. -/
def renderBlock (stereo : Bool) (n : Nat) (σ : State) : State := blockFrame^[n] (openBlock stereo σ)

/-- What opening a block leaves alone. -/
theorem openBlock_frame (stereo : Bool) (s : State) :
    openBlock stereo s =
      { s with
        seq := { run := false, frames := 0#16, stereo := stereo, bypass := !s.prep }
        host := (openBlock stereo s).host
        coeffs := (openBlock stereo s).coeffs
        smMix := (openBlock stereo s).smMix
        smDrive := (openBlock stereo s).smDrive
        racing := if s.prep then [] else s.racing
        draws := (openBlock stereo s).draws } := by
  cases hp : s.prep <;> simp [openBlock, hp, latch_eq]

theorem openBlock_of_prep (stereo : Bool) {s : State} (h : s.prep = true) :
    openBlock stereo s =
      { latch Config.block s with seq := { run := false, frames := 0#16, stereo := stereo, bypass := false } } := by
  simp [openBlock, h]

theorem openBlock_of_not_prep (stereo : Bool) {s : State} (h : s.prep = false) :
    openBlock stereo s = { s with seq := { run := false, frames := 0#16, stereo := stereo, bypass := true } } := by
  simp [openBlock, h]

theorem startBlock_eq_withFrames (stereo : Bool) (n : BitVec 16) (σ : State) :
    startBlock Config.block stereo n σ = (openBlock stereo σ).withFrames n := by
  rw [startBlock_eq]; rfl

theorem countFrame_eq_withFrames (σ : State) : countFrame σ = σ.withFrames (σ.seq.frames - 1#16) := rfl

theorem State.withFrames_zero {σ : State} (hframes : σ.seq.frames = 0#16) (hrun : σ.seq.run = false) : σ.withFrames 0#16 = σ := by
  obtain ⟨host, prep, ⟨run, frames, stereo, bypass⟩, consts, coeffs, pd, str, smMix, smDrive, inQ, outQ, agenda⟩ := σ
  obtain rfl : frames = 0#16 := hframes
  obtain rfl : run = false := hrun
  rfl

theorem blockFrame_of_bypass {σ : State} (h : σ.seq.bypass = true) : blockFrame σ = bypassFrame σ := by
  rw [blockFrame, if_pos h]

theorem blockFrame_of_not_bypass {σ : State} (h : σ.seq.bypass = false) : blockFrame σ = frameOp Config.block σ := by
  rw [blockFrame, if_neg (Bool.eq_false_iff.1 h)]

/-- A frame does not see how many are left. -/
theorem blockFrame_withFrames {σ : State} (hin : σ.inQ ≠ []) (n : BitVec 16) :
    blockFrame (σ.withFrames n) = (blockFrame σ).withFrames n := by
  obtain ⟨f, rest, hq⟩ := List.exists_cons_of_ne_nil hin
  cases hb : σ.seq.bypass
  · rw [blockFrame_of_not_bypass hb, blockFrame_of_not_bypass (σ := σ.withFrames n) hb, frameOp_eq hq,
      frameOp_eq (σ := σ.withFrames n) hq]
    rfl
  · rw [blockFrame_of_bypass hb, blockFrame_of_bypass (σ := σ.withFrames n) hb, bypassFrame_eq hq,
      bypassFrame_eq (s := σ.withFrames n) hq]
    rfl

/-! ### What frames change -/

/-- What `n` frames make of a machine: they take `n` from `IN`, put `n` to `OUT`, and change nothing else but the signal state, of
which the targets of the smoothers stay, and on bypass all of it. -/
structure FramesDone (n : Nat) (σ τ : State) : Prop where
  inQ : τ.inQ = σ.inQ.drop n
  outQ : ∃ produced : List Frame, produced.length = n ∧ τ.outQ = σ.outQ ++ produced
  frame : τ = { σ with inQ := τ.inQ, outQ := τ.outQ, pd := τ.pd, str := τ.str, smMix := τ.smMix, smDrive := τ.smDrive }
  tgt : τ.smMix.tgt = σ.smMix.tgt ∧ τ.smDrive.tgt = σ.smDrive.tgt
  bypass : σ.seq.bypass = true → τ.pd = σ.pd ∧ τ.str = σ.str ∧ τ.smMix = σ.smMix ∧ τ.smDrive = σ.smDrive

theorem advanced_tgt (x : Smoother) : (advanced Config.block x).tgt = x.tgt := by
  rw [advanced_block]; split_ifs <;> rfl

namespace FramesDone

variable {σ τ υ : State} {m n : Nat}

theorem refl (σ : State) : FramesDone 0 σ σ :=
  ⟨rfl, ⟨[], rfl, (List.append_nil _).symm⟩, rfl, ⟨rfl, rfl⟩, fun _ => ⟨rfl, rfl, rfl, rfl⟩⟩

theorem seq (h : FramesDone n σ τ) : τ.seq = σ.seq := by rw [h.frame]

theorem trans (h : FramesDone m σ τ) (h' : FramesDone n τ υ) : FramesDone (m + n) σ υ where
  inQ := by rw [h'.inQ, h.inQ, List.drop_drop]
  outQ := by
    obtain ⟨p, hp, hout⟩ := h.outQ
    obtain ⟨p', hp', hout'⟩ := h'.outQ
    exact ⟨p ++ p', by rw [List.length_append, hp, hp'], by rw [hout', hout, List.append_assoc]⟩
  frame := by
    refine h'.frame.trans ?_
    rw [h.frame]
  tgt := ⟨h'.tgt.1.trans h.tgt.1, h'.tgt.2.trans h.tgt.2⟩
  bypass hb := by
    obtain ⟨hpd, hstr, hmix, hdrive⟩ := h.bypass hb
    obtain ⟨hpd', hstr', hmix', hdrive'⟩ := h'.bypass (by rw [h.seq]; exact hb)
    exact ⟨hpd'.trans hpd, hstr'.trans hstr, hmix'.trans hmix, hdrive'.trans hdrive⟩

theorem blockFrame (h : σ.inQ ≠ []) : FramesDone 1 σ (blockFrame σ) := by
  obtain ⟨f, rest, hq⟩ := List.exists_cons_of_ne_nil h
  cases hb : σ.seq.bypass
  · rw [blockFrame_of_not_bypass hb, frameOp_eq hq]
    exact ⟨by rw [hq]; rfl, ⟨_, rfl, rfl⟩, rfl, ⟨advanced_tgt _, advanced_tgt _⟩,
      fun h => absurd (hb.symm.trans h) Bool.false_ne_true⟩
  · rw [blockFrame_of_bypass hb, bypassFrame_eq hq]
    exact ⟨by rw [hq]; rfl, ⟨_, rfl, rfl⟩, rfl, ⟨rfl, rfl⟩, fun _ => ⟨rfl, rfl, rfl, rfl⟩⟩

/-- Frames whose input is there are made. -/
theorem iterate (σ : State) (n : Nat) (h : n ≤ σ.inQ.length) : FramesDone n σ (Machine.blockFrame^[n] σ) := by
  induction n with
  | zero => exact refl σ
  | succ n ih =>
    have hdone := ih (Nat.le_of_succ_le h)
    rw [Function.iterate_succ_apply']
    refine hdone.trans (blockFrame ?_)
    rw [hdone.inQ]
    exact List.ne_nil_of_length_pos (by rw [List.length_drop]; omega)

end FramesDone

/-! ### The turns of a block -/

/-- The turn of a block with frames left and input there is one frame and one less to go. -/
theorem datapathTurn_withFrames {σ : State} {n : BitVec 16} (hn : n ≠ 0#16) (hin : σ.inQ ≠ []) :
    datapathTurn Config.block (σ.withFrames n) = (blockFrame σ).withFrames (n - 1#16) := by
  have hturn : datapathTurn Config.block (σ.withFrames n) = countFrame (blockFrame (σ.withFrames n)) := by
    obtain ⟨f, rest, hq⟩ := List.exists_cons_of_ne_nil hin
    simp [datapathTurn, State.withFrames, blockFrame, hn, hq]
  rw [hturn, blockFrame_withFrames hin, countFrame_eq_withFrames]
  rfl

/-- As many turns as there are frames to go make them all, with the input there. -/
theorem iterate_datapathTurn (σ : State) (n : Nat) (hn : n < 2 ^ 16) (hin : n ≤ σ.inQ.length) :
    (datapathTurn Config.block)^[n] (σ.withFrames (BitVec.ofNat 16 n)) = (blockFrame^[n] σ).withFrames 0#16 := by
  induction n generalizing σ with
  | zero => rfl
  | succ n ih =>
    have hne : σ.inQ ≠ [] := List.ne_nil_of_length_pos (by omega)
    have hpos : BitVec.ofNat 16 (n + 1) ≠ 0#16 := by
      intro h0
      have := congrArg BitVec.toNat h0
      rw [BitVec.toNat_ofNat, Nat.mod_eq_of_lt hn] at this
      exact Nat.succ_ne_zero n this
    have hpred : BitVec.ofNat 16 (n + 1) - 1#16 = BitVec.ofNat 16 n := by
      rw [BitVec.ofNat_add, BitVec.add_sub_cancel]
    rw [Function.iterate_succ_apply, Function.iterate_succ_apply, datapathTurn_withFrames hpos hne, hpred]
    apply ih _ (Nat.lt_of_succ_lt hn)
    rw [(FramesDone.blockFrame hne).inQ, List.length_drop]
    omega

/-- The turns of a whole block: it is rendered and the sequencer is idle. -/
theorem iterate_datapathTurn_startBlock {s : State} (stereo : Bool) {n : BitVec 16} (hin : n.toNat ≤ s.inQ.length) :
    (datapathTurn Config.block)^[n.toNat] (startBlock Config.block stereo n s) = renderBlock stereo n.toNat s := by
  have hq : n.toNat ≤ (openBlock stereo s).inQ.length := by
    rw [openBlock_frame]; exact hin
  have hdone := FramesDone.iterate _ _ hq
  have hturns := iterate_datapathTurn (openBlock stereo s) n.toNat n.isLt hq
  rw [BitVec.ofNat_toNat, BitVec.setWidth_eq] at hturns
  rw [startBlock_eq_withFrames, hturns]
  exact State.withFrames_zero (by rw [hdone.seq]; rfl) (by rw [hdone.seq]; rfl)

/-- Steps of a machine whose host does nothing are turns. -/
theorem run_of_nil {s : State} (h : s.agenda = []) (n : Nat) :
    Host.Core.run Sys2Proof.core n s = .next ((datapathTurn Config.block)^[n] s) := by
  induction n generalizing s with
  | zero => rfl
  | succ n ih => rw [run_next (step_idle h), ih (by rw [agenda_datapathTurn, h]), Function.iterate_succ_apply]

/-- Steps through the turns of an agenda are turns. -/
theorem run_turns (s : State) (n : Nat) (rest : List Event) :
    Host.Core.run Sys2Proof.core n { s with agenda := List.replicate n .turn ++ rest } =
      .next { (datapathTurn Config.block)^[n] s with agenda := rest } := by
  induction n generalizing s with
  | zero => rfl
  | succ n ih =>
    have hstep : step { s with agenda := List.replicate (n + 1) .turn ++ rest } =
        .next { datapathTurn Config.block s with agenda := List.replicate n .turn ++ rest } := by
      rw [step_event (e := .turn) (rest := List.replicate n .turn ++ rest) rfl, runEvent_turn]
      exact congrArg _ (datapathTurn_agenda s _)
    rw [run_next hstep, ih, Function.iterate_succ_apply]

/-! ### A block to its end (R204) -/

theorem latch_host (σ : State) : (latch Config.block σ).host = (landRacing σ).host := by rw [latch_eq]

/-- The rate registers are no parameters, which are all that lands during a latch. -/
theorem openBlock_rates (stereo : Bool) (s : State) :
    (openBlock stereo s).host.fsLo = s.host.fsLo ∧ (openBlock stereo s).host.fsHi = s.host.fsHi ∧
      (openBlock stereo s).host.maxBlk = s.host.maxBlk := by
  cases hp : s.prep
  · rw [openBlock_of_not_prep stereo hp]
    exact ⟨rfl, rfl, rfl⟩
  · rw [openBlock_of_prep stereo hp]
    dsimp only
    rw [latch_host, landRacing_host]
    exact ⟨foldl_setParam_of_invariant HostRegs.setParam_fsLo _ _, foldl_setParam_of_invariant HostRegs.setParam_fsHi _ _,
      foldl_setParam_of_invariant HostRegs.setParam_maxBlk _ _⟩

/-- With nothing landing meanwhile a latch keeps the host registers and takes no draw. -/
theorem openBlock_host_of_quiet (stereo : Bool) {s : State} (h : s.racing = []) :
    (openBlock stereo s).host = s.host ∧ (openBlock stereo s).draws = s.draws := by
  cases hp : s.prep
  · rw [openBlock_of_not_prep stereo hp]
    exact ⟨rfl, rfl⟩
  · rw [openBlock_of_prep stereo hp, latch_eq, landRacing_of_nil h]
    exact ⟨rfl, rfl⟩

/-- A latch leaves in each parameter register the last value it held meanwhile (R67). -/
theorem getLast?_heldDuringLatch (stereo : Bool) {s : State} (h : s.prep = true) (p : Param) :
    (heldDuringLatch s p).getLast? = some ((openBlock stereo s).host.param p) := by
  rw [openBlock_of_prep stereo h]
  dsimp only
  rw [latch_host, landRacing_host]
  exact getLast?_writes_param s.racing s.host p

/-- Settles O10: the turns render the block that `PROCESS` opened, whose frames change the streams and the signal state alone, so that
the rest is as opening it left it. -/
theorem blockRunsToCompletion : Obligations.BlockRunsToCompletion := by
  unfold Obligations.BlockRunsToCompletion
  intro s stereo n fs rest hidle hagenda hin hlen
  have hq : (openBlock stereo s).inQ = fs ++ rest := by rw [openBlock_frame]; exact hin
  have hagenda' : (startBlock Config.block stereo n s).agenda = [] := by
    rw [startBlock_eq_withFrames, State.withFrames, openBlock_frame]; exact hagenda
  have hdone : FramesDone n.toNat (openBlock stereo s) (renderBlock stereo n.toNat s) :=
    .iterate _ _ (by rw [hq, List.length_append]; omega)
  obtain ⟨produced, hproduced, hout⟩ := hdone.outQ
  have hhost : (renderBlock stereo n.toNat s).host = (openBlock stereo s).host := by rw [hdone.frame]
  have hdraws : (renderBlock stereo n.toNat s).draws = (openBlock stereo s).draws := by rw [hdone.frame]
  have hcoeffs : (renderBlock stereo n.toNat s).coeffs = (openBlock stereo s).coeffs := by rw [hdone.frame]
  refine ⟨_, _, produced, exec_process_idle hidle stereo n, run_of_nil hagenda' _, hproduced, ?_⟩
  rw [iterate_datapathTurn_startBlock stereo (by rw [hin, List.length_append]; omega), hhost]
  obtain ⟨hlo, hhi, hmax⟩ := openBlock_rates stereo s
  refine ⟨?frame, hlo, hhi, hmax, fun hquiet => ?quiet, fun hprep p => getLast?_heldDuringLatch stereo hprep p,
    fun hprep => ?bypass⟩
  case frame =>
    have hinQ : (renderBlock stereo n.toNat s).inQ = rest := by
      rw [hdone.inQ, hq, ← hlen, List.drop_left]
    have hout' : (renderBlock stereo n.toNat s).outQ = s.outQ ++ produced := by
      rw [hout, openBlock_frame]
    refine hdone.frame.trans ?_
    rw [hinQ, hout', hcoeffs, hdraws, openBlock_frame]
  case quiet =>
    rw [hdraws]
    exact openBlock_host_of_quiet stereo hquiet
  case bypass =>
    rw [openBlock_of_not_prep stereo hprep] at hdone hcoeffs hdraws ⊢
    obtain ⟨hpd, hstr, hmix, hdrive⟩ := hdone.bypass rfl
    exact ⟨rfl, hcoeffs, hpd, hstr, hmix, hdrive, hdraws⟩

/-! ### One block after another (R264) -/

/-- With nothing landing meanwhile the coefficients a latch writes are a function of the registers and the constants. -/
theorem latch_coeffs_of_quiet {σ τ : State} (hσ : σ.racing = []) (hτ : τ.racing = []) (hhost : σ.host = τ.host)
    (hconsts : σ.consts = τ.consts) : (latch Config.block σ).coeffs = (latch Config.block τ).coeffs := by
  simp only [latch_eq, snapshot_of_nil hσ, snapshot_of_nil hτ, hhost, hconsts]

/-- A latch would find all it writes there already: no write is to land, the coefficients are those of the registers, and so are the
targets of the smoothers. -/
structure Latched (σ : State) : Prop where
  racing : σ.racing = []
  coeffs : σ.coeffs = (latch Config.block σ).coeffs
  mix : feq (clampParam Config.block .mix σ.host.pMix) σ.smMix.tgt = true
  drive : feq (clampParam Config.block .drive σ.host.pDrive) σ.smDrive.tgt = true

/-- With nothing landing meanwhile a latch writes the coefficients and the smoothers. -/
theorem latch_of_quiet {σ : State} (h : σ.racing = []) :
    latch Config.block σ =
      { σ with
        coeffs := (latch Config.block σ).coeffs
        smMix := retargeted Config.block σ.consts.nr (clampParam Config.block .mix σ.host.pMix) σ.smMix
        smDrive := retargeted Config.block σ.consts.nr (clampParam Config.block .drive σ.host.pDrive) σ.smDrive } := by
  rw [latch_eq, landRacing_of_nil h, snapshot_of_nil h .mix, snapshot_of_nil h .drive]
  rfl

theorem Latched.latch_eq_self {σ : State} (h : Latched σ) : latch Config.block σ = σ := by
  rw [latch_of_quiet h.racing, ← h.coeffs, retargeted_of_feq h.mix, retargeted_of_feq h.drive]

theorem feq_retargeted_tgt {v : F32} (hv : isNaN v = false) (nr : Nat) (x : Smoother) :
    feq v (retargeted Config.block nr v x).tgt = true := by
  cases h : feq v x.tgt
  · rw [retargeted_of_not_feq h]; exact feq_refl hv
  · rw [retargeted_of_feq h]; exact h

theorem not_isNaN_clampParam (p : Param) (w : Word) : isNaN (clampParam Config.block p w) = false :=
  (fle_iff.1 (between_iff.1 (clampParam_spec p w).1).1).2.1

/-- After a latch a second one has nothing to do. -/
theorem latched_latch {σ : State} (h : σ.racing = []) : Latched (latch Config.block σ) := by
  have hquiet := latch_of_quiet h
  have hracing : (latch Config.block σ).racing = [] := by rw [hquiet]; exact h
  have hhost : (latch Config.block σ).host = σ.host := by rw [hquiet]
  refine ⟨hracing, latch_coeffs_of_quiet h hracing hhost.symm (latch_consts σ).symm, ?mix, ?drive⟩
  case mix => rw [hquiet]; exact feq_retargeted_tgt (not_isNaN_clampParam _ _) _ _
  case drive => rw [hquiet]; exact feq_retargeted_tgt (not_isNaN_clampParam _ _) _ _

/-- Frames leave a later latch nothing to do either: they keep the registers, the coefficients and the targets. -/
theorem Latched.framesDone {σ τ : State} {n : Nat} (h : Latched σ) (hdone : FramesDone n σ τ) : Latched τ := by
  have hracing : τ.racing = [] := by rw [hdone.frame]; exact h.racing
  have hhost : τ.host = σ.host := by rw [hdone.frame]
  have hconsts : τ.consts = σ.consts := by rw [hdone.frame]
  have hcoeffs : τ.coeffs = σ.coeffs := by rw [hdone.frame]
  obtain ⟨hmix, hdrive⟩ := hdone.tgt
  refine ⟨hracing, ?_, ?_, ?_⟩
  · rw [hcoeffs, h.coeffs]
    exact latch_coeffs_of_quiet h.racing hracing hhost.symm hconsts.symm
  · rw [hhost, hmix]; exact h.mix
  · rw [hhost, hdrive]; exact h.drive

/-- A block of the mode is open and idle, and opening it anew would change nothing. -/
structure Opened (stereo : Bool) (σ : State) : Prop where
  seq : σ.seq = { run := false, frames := 0#16, stereo := stereo, bypass := !σ.prep }
  latched : σ.prep = true → Latched σ

theorem Opened.openBlock_eq_self {stereo : Bool} {σ : State} (h : Opened stereo σ) : openBlock stereo σ = σ := by
  rw [openBlock, ← h.seq]
  cases hp : σ.prep
  · rfl
  · rw [if_pos rfl, (h.latched hp).latch_eq_self]

theorem opened_openBlock (stereo : Bool) {σ : State} (h : σ.prep = true → σ.racing = []) :
    Opened stereo (openBlock stereo σ) := by
  cases hp : σ.prep
  · rw [openBlock_of_not_prep stereo hp]
    exact ⟨by rw [hp]; rfl, fun hprep => absurd (hp.symm.trans hprep) Bool.false_ne_true⟩
  · obtain ⟨hracing, hcoeffs, hmix, hdrive⟩ := latched_latch (h hp)
    rw [openBlock_of_prep stereo hp]
    exact ⟨by rw [latch_prep, hp]; rfl,
      fun _ => ⟨hracing, hcoeffs.trans (latch_coeffs_of_quiet hracing hracing rfl rfl), hmix, hdrive⟩⟩

theorem Opened.framesDone {stereo : Bool} {σ τ : State} {n : Nat} (h : Opened stereo σ) (hdone : FramesDone n σ τ) :
    Opened stereo τ := by
  have hprep : τ.prep = σ.prep := by rw [hdone.frame]
  refine ⟨by rw [hdone.seq, hprep]; exact h.seq, fun hp => (h.latched ?_).framesDone hdone⟩
  rw [← hprep]; exact hp

/-- A block of `a` frames and one of `b` are a block of `a + b`. -/
theorem renderBlock_renderBlock (stereo : Bool) {s : State} (hquiet : s.prep = true → s.racing = []) {a b : Nat}
    (hin : a ≤ s.inQ.length) : renderBlock stereo b (renderBlock stereo a s) = renderBlock stereo (a + b) s := by
  have hq : a ≤ (openBlock stereo s).inQ.length := by rw [openBlock_frame]; exact hin
  have hopened := (opened_openBlock stereo hquiet).framesDone (.iterate _ a hq)
  rw [renderBlock, renderBlock, hopened.openBlock_eq_self, ← Function.iterate_add_apply, Nat.add_comm b a, renderBlock]

theorem latch_agenda (s : State) (es : List Event) :
    latch Config.block { s with agenda := es } = { latch Config.block s with agenda := es } := by
  have hsnap (p : Param) : snapshot { s with agenda := es } p = snapshot s p := rfl
  simp only [latch_eq, hsnap]
  rfl

/-- Opening a block does not see the agenda. -/
theorem openBlock_agenda (stereo : Bool) (s : State) (es : List Event) :
    openBlock stereo { s with agenda := es } = { openBlock stereo s with agenda := es } := by
  obtain hp | hp := Bool.eq_false_or_eq_true s.prep
  · rw [openBlock_of_prep stereo hp, openBlock_of_prep stereo (s := { s with agenda := es }) hp, latch_agenda]
  · rw [openBlock_of_not_prep stereo hp, openBlock_of_not_prep stereo (s := { s with agenda := es }) hp]

theorem startBlock_agenda (stereo : Bool) (n : BitVec 16) (s : State) (es : List Event) :
    startBlock Config.block stereo n { s with agenda := es } = { startBlock Config.block stereo n s with agenda := es } := by
  rw [startBlock_eq_withFrames, startBlock_eq_withFrames, openBlock_agenda]
  rfl

/-- A `PROCESS` of a host program on an idle machine with its input there renders its block. -/
theorem run_processEvents {s : State} (stereo : Bool) {n : BitVec 16} (rest : List Event) (hidle : s.seq.run = false)
    (hin : n.toNat ≤ s.inQ.length) :
    Host.Core.run Sys2Proof.core (1 + n.toNat) { s with agenda := processEvents stereo n ++ rest } =
      .next { renderBlock stereo n.toNat s with agenda := rest } := by
  have hstart : exec (.process stereo n) { s with agenda := List.replicate n.toNat .turn ++ rest } =
      .next { startBlock Config.block stereo n s with agenda := List.replicate n.toNat .turn ++ rest } := by
    rw [exec_process_idle ?_, startBlock_agenda]
    exact hidle
  have hstep : step { s with agenda := processEvents stereo n ++ rest } =
      .next { startBlock Config.block stereo n s with agenda := List.replicate n.toNat .turn ++ rest } := by
    rw [processEvents_eq, List.cons_append, step_event rfl, runEvent_command, decode_processWord]
    exact hstart
  rw [Nat.add_comm, run_next hstep, run_turns, iterate_datapathTurn_startBlock stereo hin]

/-- Settles O11: each `PROCESS` renders its block, and where the first ends the second opens nothing new. -/
theorem blockSplittingIsInaudible : Obligations.BlockSplittingIsInaudible := by
  unfold Obligations.BlockSplittingIsInaudible
  intro s stereo a b hidle hquiet hfits hin
  have hab : (a + b).toNat = a.toNat + b.toNat := by rw [BitVec.toNat_add, Nat.mod_eq_of_lt hfits]
  have hq : (openBlock stereo s).inQ = s.inQ := by rw [openBlock_frame]
  have hdone : FramesDone a.toNat (openBlock stereo s) (renderBlock stereo a.toNat s) := .iterate _ _ (by rw [hq]; omega)
  have hidle' : (renderBlock stereo a.toNat s).seq.run = false := by rw [hdone.seq]; rfl
  have hin' : b.toNat ≤ (renderBlock stereo a.toNat s).inQ.length := by rw [hdone.inQ, hq, List.length_drop]; omega
  have hone := run_processEvents (n := a + b) stereo [] hidle (by omega)
  have hfirst := run_processEvents (n := a) stereo (processEvents stereo b ++ []) hidle (by omega)
  have hsecond := run_processEvents (n := b) stereo [] hidle' hin'
  rw [renderBlock_renderBlock stereo hquiet (by omega), ← hab, List.append_nil] at hsecond
  rw [List.append_nil] at hone hfirst
  exact hone.trans ((run_add _ _ _ _ _).2 ⟨_, hfirst, hsecond⟩).symm

end Sys2Proof.Machine
end
